-- ==== Sys2Proof/Config.lean ====
section
/-! DEFINITION. What an implementation fixes: the two semantic parameters the spec leaves open (00_scope R10) and the
fixed parameters of the hardware (00_scope R9). The spec leaves no value free, so no opaque constant is needed: a state
carries the parameters (`State.params`), and a statement about every state holds for every choice of them. -/

namespace Sys2Proof

/-- `DIV_OVF_POLICY` (R10, R182): which predicate the divides take for overflow. -/
inductive DivOvfPolicy where
  /-- The sentence "divisor magnitude ≥ dividend" read literally; the spec's default. -/
  | prose
  /-- The quoted expression as JavaScript evaluates it: the dividend's low word is zero. -/
  | codeAsEvaluated
  /-- The MC68000's rule: the quotient does not fit 16 bits. -/
  | mc68000
deriving DecidableEq, Repr

/-- `ASL_V_RULE` (R10, R131): when `asl` sets Overflow. -/
inductive AslVRule where
  /-- The sign bit differs before and after the whole shift; the spec's default. -/
  | beforeAfter
  /-- The sign bit changed at some single shift. -/
  | anyPoint
deriving DecidableEq, Repr

/-- The semantic parameters of R10. -/
structure Config where
  divOvfPolicy : DivOvfPolicy
  aslVRule     : AslVRule
deriving DecidableEq, Repr

/-- R10's defaults. DESIGN CHOICE of the spec (D31, D34), log entry 2: unsafe for an engine with other parameters. -/
def Config.default : Config := ⟨.prose, .beforeAfter⟩

/-- The highest valid data address (R9, R46). -/
abbrev Config.maxAddress : Nat := 0x7FFFFFFF

/-- pc units of one instruction cell (R9). -/
abbrev Config.cellUnits : Int := 4

/-- Largest immediate shift count for a register destination (R9, R107). -/
abbrev Config.maxRegisterCount : Int := 8

end Sys2Proof
end

