-- ==== Sys2Proof/Word.lean ====
section
/-! DEFINITION. The bit-vector types of the block and their plainest reading (10_state R21, R34; 00_scope R11). -/

namespace Sys2Proof

/-- One register slot's 32-bit pattern (R21). -/
abbrev Word := BitVec 32

/-- One memory cell's 8-bit value (R34). -/
abbrev Byte := BitVec 8

end Sys2Proof
end

