-- ==== Sys2Proof/Syntax.lean ====
section
/-! DEFINITION. The syntax of the machine: cell text, operation sizes, the five operand kinds, the 34 mnemonics, and the
instructions, one constructor for each row of spec/opcode_table.json (30_encoding sections 1, 3). -/

namespace Sys2Proof

/-- The text of an instruction cell (R71), character by character. -/
abbrev Text := List Char

/-- Operation size (R12). -/
inductive Size where
  | b | w | l
deriving DecidableEq, Repr

/-- `W(s)` of R12. -/
def Size.bits : Size → Nat
  | .b => 8
  | .w => 16
  | .l => 32

/-- `bytes(s)` of R12. -/
def Size.bytes : Size → Nat
  | .b => 1
  | .w => 2
  | .l => 4

/-- The five operand kinds (R90). Literals are integers of any size (R89). -/
inductive Operand where
  /-- `#lit` -/
  | immediate (v : Int)
  /-- `lit`: a memory address for data, a displacement for control flow. -/
  | absoluteOffset (a : Int)
  /-- `a0` .. `a7`, `sp` -/
  | addressRegister (n : Fin 8)
  /-- `d0` .. `d7` -/
  | dataRegister (n : Fin 8)
  /-- `lit(areg)` -/
  | offsetAddress (d : Int) (n : Fin 8)
deriving DecidableEq, Repr

/-- The 34 mnemonics of 00_scope R3. -/
inductive Mnemonic where
  | add | sub | cmp | neg
  | move | and | or | eor | not | clr | ext | swap | exg
  | asl | asr | lsl | lsr | rol | ror
  | mulu | muls | divu | divs
  | bra | bsr | beq | bne | bge | bgt | ble | blt | jmp | jsr | rts
deriving DecidableEq, Repr

/-- An instruction after the decode checks (a) to (e) of R99: mnemonic, size, arity and operand spelling have passed;
the legality of the operand combination (R101 to R109) belongs to the meaning. A mnemonic for which R110 takes one
size only (or gives the size no effect) carries no size. -/
inductive Instr where
  | add (s : Size) (src dst : Operand)
  | sub (s : Size) (src dst : Operand)
  | cmp (s : Size) (src dst : Operand)
  | neg (s : Size) (dst : Operand)
  | move (s : Size) (src dst : Operand)
  | and (s : Size) (src dst : Operand)
  | or (s : Size) (src dst : Operand)
  | eor (s : Size) (src dst : Operand)
  | not (s : Size) (dst : Operand)
  | clr (s : Size) (dst : Operand)
  | ext (s : Size) (op : Operand)
  | swap (op : Operand)
  | exg (op1 op2 : Operand)
  | asl (s : Size) (count dst : Operand)
  | asr (s : Size) (count dst : Operand)
  | lsl (s : Size) (count dst : Operand)
  | lsr (s : Size) (count dst : Operand)
  | rol (s : Size) (count dst : Operand)
  | ror (s : Size) (count dst : Operand)
  | mulu (src dst : Operand)
  | muls (src dst : Operand)
  | divu (src dst : Operand)
  | divs (src dst : Operand)
  | bra (s : Size) (target : Operand)
  | bsr (s : Size) (target : Operand)
  | beq (s : Size) (target : Operand)
  | bne (s : Size) (target : Operand)
  | bge (s : Size) (target : Operand)
  | bgt (s : Size) (target : Operand)
  | ble (s : Size) (target : Operand)
  | blt (s : Size) (target : Operand)
  | jmp (target : Operand)
  | jsr (target : Operand)
  | rts
  /-- The cell whose `nonExec` flag is set (R80); its text is not decoded. -/
  | nonExecutable
deriving DecidableEq, Repr

/-- The mnemonic of an executable instruction; none for the non-executable slot. -/
def Instr.mnemonic : Instr → Option Mnemonic
  | .add .. => some .add
  | .sub .. => some .sub
  | .cmp .. => some .cmp
  | .neg .. => some .neg
  | .move .. => some .move
  | .and .. => some .and
  | .or .. => some .or
  | .eor .. => some .eor
  | .not .. => some .not
  | .clr .. => some .clr
  | .ext .. => some .ext
  | .swap .. => some .swap
  | .exg .. => some .exg
  | .asl .. => some .asl
  | .asr .. => some .asr
  | .lsl .. => some .lsl
  | .lsr .. => some .lsr
  | .rol .. => some .rol
  | .ror .. => some .ror
  | .mulu .. => some .mulu
  | .muls .. => some .muls
  | .divu .. => some .divu
  | .divs .. => some .divs
  | .bra .. => some .bra
  | .bsr .. => some .bsr
  | .beq .. => some .beq
  | .bne .. => some .bne
  | .bge .. => some .bge
  | .bgt .. => some .bgt
  | .ble .. => some .ble
  | .blt .. => some .blt
  | .jmp .. => some .jmp
  | .jsr .. => some .jsr
  | .rts => some .rts
  | .nonExecutable => none

/-- The operation size an instruction carries, if it carries one. -/
def Instr.size : Instr → Option Size
  | .add s _ _ | .sub s _ _ | .cmp s _ _ | .move s _ _ | .and s _ _ | .or s _ _ | .eor s _ _ => some s
  | .neg s _ | .not s _ | .clr s _ | .ext s _ => some s
  | .asl s _ _ | .asr s _ _ | .lsl s _ _ | .lsr s _ _ | .rol s _ _ | .ror s _ _ => some s
  | .bra s _ | .bsr s _ | .beq s _ | .bne s _ | .bge s _ | .bgt s _ | .ble s _ | .blt s _ => some s
  | .swap _ | .exg _ _ | .mulu _ _ | .muls _ _ | .divu _ _ | .divs _ _ | .jmp _ | .jsr _ | .rts | .nonExecutable => none

/-- The operands of an instruction, in text order (R85). -/
def Instr.operands : Instr → List Operand
  | .add _ a b | .sub _ a b | .cmp _ a b | .move _ a b | .and _ a b | .or _ a b | .eor _ a b => [a, b]
  | .asl _ a b | .asr _ a b | .lsl _ a b | .lsr _ a b | .rol _ a b | .ror _ a b => [a, b]
  | .exg a b | .mulu a b | .muls a b | .divu a b | .divs a b => [a, b]
  | .neg _ a | .not _ a | .clr _ a | .ext _ a | .swap a => [a]
  | .bra _ a | .bsr _ a | .beq _ a | .bne _ a | .bge _ a | .bgt _ a | .ble _ a | .blt _ a | .jmp a | .jsr a => [a]
  | .rts | .nonExecutable => []

/-- One cell of the instruction table (R35, R71). -/
structure InstrCell where
  text    : Text
  line    : Int
  nonExec : Bool
deriving DecidableEq, Repr

end Sys2Proof
end

