-- ==== Sys2Proof/Machine/Event.lean ====
section
/-! DEFINITION. The kinds of fatal exceptions and non-fatal errors, and the error record (60_exceptions sections 2, 3). -/

namespace Sys2Proof.Machine

/-- The fatal exception kinds F1 to F6 (R214). -/
inductive FatalKind where
  /-- F1: pc negative or not a multiple of 4 before a fetch (R220). -/
  | invalidPC
  /-- F2: the 16-bit divisor of `divu` or `divs` is 0 (R221). -/
  | divisionByZero
  /-- F3, recorded by the loader (R245). -/
  | duplicateLabel
  /-- F4, recorded by the loader (R245). -/
  | unknownLabel
  /-- F5, recorded by the loader (R245). -/
  | missingEnd
  /-- F6, recorded by the loader (R245). -/
  | duplicateEnd
deriving DecidableEq, Repr

/-- The non-fatal error kinds E1 to E10 (R217). -/
inductive NonFatalKind where
  | wrongArity
  | invalidRegister
  | memToMem
  | invalidAddress
  | illegalOperand
  | shiftCount
  | offsetTooLong
  /-- E8: never recorded, the cell is refused instead (R84). -/
  | unknownMnemonic
  | invalidSize
  /-- E10: never recorded, the cell is refused instead (R96). -/
  | operandParse
deriving DecidableEq, Repr

/-- A non-fatal error record (R216): its kind and the source line of the cell being executed, which is the `line` field
of the state. That field is none before the first fetch, so the record's is optional too (DEDUCED, log entry 13). -/
structure ErrorRecord where
  kind : NonFatalKind
  line : Option Int
deriving DecidableEq, Repr

end Sys2Proof.Machine
end

