-- ==== Sys2Proof/Machine/State.lean ====
section
/-! DEFINITION. The machine's state as plain data, its launch, and the ways a step stops (10_state; 70_reset section 1). -/

namespace Sys2Proof.Machine

/-- Reasons a step ends with no state. There are none: a fatal exception is recorded in `State.exc` and a halted step
leaves the state as it is (R73 to R77, R213), so every event of this hardware leaves a next state (DEDUCED, log entry 1,
safe). -/
inductive Fault where
deriving DecidableEq, Repr

/-- The refusals of R74: the model gives the cell no meaning. All are safe: the engine may go on where the model stops. -/
inductive Refusal where
  /-- An arm of `exec` without a meaning; no arm of this model is one. -/
  | notModelled (mnemonic : String)
  /-- Raised by `step` for a mnemonic outside the 34 (R84). -/
  | unknownMnemonic
  /-- Raised by `step` for a size suffix the mnemonic does not take (R110), and by `execExt` at size b. -/
  | sizeNotShown
  /-- Raised by `step` for an operand spelling outside R90 (R89, R96). -/
  | operandForm
  /-- Raised by `step` for a one-operand shift (R83, R173), and by the shifts, rotates, multiplies, divides, branches and
  jumps for an operand combination the source does not show (R107 to R109). -/
  | formNotShown
deriving DecidableEq, Repr

/-- The condition-code register (R26): C = bit 0, V = 1, Z = 2, N = 3, X = 4. -/
abbrev Ccr := BitVec 5

/-- Data memory (R34) in canonical form: addresses strictly rising, no zero byte; an unlisted address reads 0. -/
abbrev Memory := List Host.Cell

/-- The launch and semantic parameters (00_scope R10). No step writes them. -/
structure Params where
  /-- `PROGRAM`, the instruction table (R35). -/
  program : List InstrCell
  /-- `INIT_MEM` (R246). -/
  initMem : Memory
  /-- `INIT_EXC` (R245). -/
  initExc : Option FatalKind
  /-- `DIV_OVF_POLICY` and `ASL_V_RULE`. -/
  config  : Config
deriving DecidableEq, Repr

/-- An undo frame (R39, R42). -/
structure Frame where
  pc        : Int
  ccr       : Ccr
  lastInstr : Option Text
  line      : Option Int
  x         : Vector Word 16
  mem       : Memory
  errs      : List ErrorRecord
deriving DecidableEq, Repr

/-- The machine state (R42), with the parameters beside it. -/
structure State where
  /-- Register slots: a0 to a7 are 0 to 7, d0 to d7 are 8 to 15 (R22). -/
  x         : Vector Word 16
  /-- The program counter, a mathematical integer (R29). -/
  pc        : Int
  ccr       : Ccr
  mem       : Memory
  /-- The fatal-exception slot (R36). -/
  exc       : Option FatalKind
  /-- The non-fatal error list, oldest first (R37). -/
  errs      : List ErrorRecord
  /-- Text of the cell fetched last (R38). -/
  lastInstr : Option Text
  /-- Source line of the cell fetched last (R38). -/
  line      : Option Int
  /-- The undo stack, the most recent frame last (R39). -/
  undo      : List Frame
  params    : Params
deriving DecidableEq, Repr

/-- The state after launch (R40, R241, R242). The zero `ccr` and `pc`, the empty `errs` and the absent `lastInstr` and
`line` are the spec's own decisions (log entry 5, unsafe). -/
def State.launch (p : Params) : State where
  x         := Vector.replicate 16 0
  pc        := 0
  ccr       := 0
  mem       := p.initMem
  exc       := p.initExc
  errs      := []
  lastInstr := none
  line      := none
  undo      := []
  params    := p

/-- The parameters of `State.reset`: no program, no initial byte, no loader error, R10's default rules (log entries 2, 3). -/
def Params.empty : Params := ⟨[], [], none, Config.default⟩

/-- The machine right after reset. A program is loaded from outside, through `State.launch` (log entry 3). -/
def State.reset : State := State.launch Params.empty

end Sys2Proof.Machine
end

