-- ==== Sys2Proof/Machine/Flags.lean ====
section
/-! DEFINITION. The operand-arithmetic and condition-code library (40_alu_library; 44_multiply_divide R182;
45_control_flow R191, R192). Pure functions of operands and the current ccr (R111). -/

namespace Sys2Proof.Machine

/-! ### The condition-code register (R26) -/

def Ccr.c (f : Ccr) : Bool := f.getLsbD 0
def Ccr.v (f : Ccr) : Bool := f.getLsbD 1
def Ccr.z (f : Ccr) : Bool := f.getLsbD 2
def Ccr.n (f : Ccr) : Bool := f.getLsbD 3
def Ccr.x (f : Ccr) : Bool := f.getLsbD 4

/-- The register with the given bits. -/
def Ccr.pack (x n z v c : Bool) : Ccr :=
  BitVec.ofBool x ++ BitVec.ofBool n ++ BitVec.ofBool z ++ BitVec.ofBool v ++ BitVec.ofBool c

/-! ### Add, subtract, compare, negate (R116 to R121) -/

/-- R117: add overflow from the sign bits. -/
def addOverflow {w : Nat} (src dst r : BitVec w) : Bool :=
  (!src.msb && !dst.msb && r.msb) || (src.msb && dst.msb && !r.msb)

/-- R119: subtract overflow, as the source states it. -/
def subOverflow {w : Nat} (src dst r : BitVec w) : Bool := dst.msb && !src.msb && !r.msb

/-- R116. -/
def addOP {w : Nat} (src dst : BitVec w) (_ccr : Ccr) : BitVec w × Ccr :=
  let full := dst.toNat + src.toNat
  let r := BitVec.ofNat w full
  let c := decide (full > 2 ^ w - 1)
  (r, Ccr.pack c r.msb (r == 0) (addOverflow src dst r) c)

/-- R118: destination minus source. -/
def subOP {w : Nat} (src dst : BitVec w) (_ccr : Ccr) : BitVec w × Ccr :=
  let full : Int := (dst.toNat : Int) - (src.toNat : Int)
  let r := BitVec.ofInt w full
  let c := decide (full < 0)
  (r, Ccr.pack c r.msb (r == 0) (subOverflow src dst r) c)

/-- R120: the flags of the subtraction with X kept. -/
def cmpOP {w : Nat} (src dst : BitVec w) (ccr : Ccr) : Ccr :=
  let f := (subOP src dst ccr).2
  Ccr.pack ccr.x f.n f.z f.v f.c

/-- R121: subtraction from 0. -/
def negOP {w : Nat} (dst : BitVec w) (ccr : Ccr) : BitVec w × Ccr := subOP dst 0 ccr

/-! ### Move and logical (R122 to R124) -/

/-- R122: the flags of a moved or logical result. -/
def moveFlags {w : Nat} (r : BitVec w) (ccr : Ccr) : Ccr := Ccr.pack ccr.x r.msb (r == 0) false false

def moveOP {w : Nat} (v : BitVec w) (ccr : Ccr) : BitVec w × Ccr := (v, moveFlags v ccr)

def andOP {w : Nat} (src dst : BitVec w) (ccr : Ccr) : BitVec w × Ccr := moveOP (dst &&& src) ccr

def orOP {w : Nat} (src dst : BitVec w) (ccr : Ccr) : BitVec w × Ccr := moveOP (dst ||| src) ccr

def eorOP {w : Nat} (src dst : BitVec w) (ccr : Ccr) : BitVec w × Ccr := moveOP (dst ^^^ src) ccr

def notOP {w : Nat} (dst : BitVec w) (ccr : Ccr) : BitVec w × Ccr := moveOP (~~~dst) ccr

def clrOP {w : Nat} (ccr : Ccr) : BitVec w × Ccr := moveOP 0 ccr

/-- R124: sign extension of the low `n` bits to width `w`. -/
def extOP (n w : Nat) (d : Word) (ccr : Ccr) : BitVec w × Ccr := moveOP ((d.setWidth n).signExtend w) ccr

/-- R124: the halves exchanged. -/
def swapOP (d : Word) (ccr : Ccr) : Word × Ccr := moveOP (d.extractLsb' 0 16 ++ d.extractLsb' 16 16) ccr

/-! ### Shifts and rotates (R125 to R132) -/

/-- R125: C and X take the last bit moved out, but keep their values at count 0; Z and N from the result. -/
def shiftFlags {w : Nat} (r : BitVec w) (count : Nat) (out v : Bool) (ccr : Ccr) : Ccr :=
  if count = 0 then Ccr.pack ccr.x r.msb (r == 0) v ccr.c
  else Ccr.pack out r.msb (r == 0) v out

/-- R126: the last bit shifted out of the top. -/
def leftOut {w : Nat} (x : BitVec w) (c : Nat) : Bool := decide (c ≤ w) && x.getLsbD (w - c)

/-- R126. -/
def lslOP {w : Nat} (x : BitVec w) (c : Nat) (ccr : Ccr) : BitVec w × Ccr :=
  let r := BitVec.ofNat w (x.toNat * 2 ^ c)
  (r, shiftFlags r c (leftOut x c) false ccr)

/-- R127. -/
def lsrOP {w : Nat} (x : BitVec w) (c : Nat) (ccr : Ccr) : BitVec w × Ccr :=
  let r := BitVec.ofNat w (x.toNat / 2 ^ c)
  (r, shiftFlags r c (decide (c ≤ w) && x.getLsbD (c - 1)) false ccr)

/-- The sign bit after `k` single left shifts, `m_k` of R131. -/
def signAfter {w : Nat} (x : BitVec w) (k : Nat) : Bool := decide (k < w) && x.getLsbD (w - 1 - k)

/-- R131: arithmetic-shift-left overflow under the parameter `ASL_V_RULE`. -/
def aslOverflow {w : Nat} (rule : AslVRule) (x r : BitVec w) (c : Nat) : Bool :=
  match rule with
  | .beforeAfter => x.msb != r.msb
  | .anyPoint => (List.range (c + 1)).any fun k => signAfter x k != signAfter x 0

/-- R128. -/
def aslOP {w : Nat} (rule : AslVRule) (x : BitVec w) (c : Nat) (ccr : Ccr) : BitVec w × Ccr :=
  let r := BitVec.ofNat w (x.toNat * 2 ^ c)
  (r, shiftFlags r c (leftOut x c) (aslOverflow rule x r c) ccr)

/-- R129: floor division of the signed value. -/
def asrOP {w : Nat} (x : BitVec w) (c : Nat) (ccr : Ccr) : BitVec w × Ccr :=
  let r := BitVec.ofInt w (x.toInt / 2 ^ c)
  (r, shiftFlags r c (if c ≤ w then x.getLsbD (c - 1) else x.msb) false ccr)

/-- R130. -/
def rolOP {w : Nat} (x : BitVec w) (c : Nat) (ccr : Ccr) : BitVec w × Ccr :=
  let k := c % w
  let r := BitVec.ofNat w (x.toNat * 2 ^ k + x.toNat / 2 ^ (w - k))
  (r, shiftFlags r c (r.getLsbD 0) false ccr)

/-- R130. -/
def rorOP {w : Nat} (x : BitVec w) (c : Nat) (ccr : Ccr) : BitVec w × Ccr :=
  let k := c % w
  let r := BitVec.ofNat w (x.toNat / 2 ^ k + x.toNat * 2 ^ (w - k))
  (r, shiftFlags r c r.msb false ccr)

/-! ### Multiply and divide (R133 to R137, R182) -/

/-- R133. -/
def muluOP (src dst : BitVec 16) (ccr : Ccr) : Word × Ccr :=
  moveOP (BitVec.ofNat 32 (src.toNat * dst.toNat)) ccr

/-- R133. -/
def mulsOP (src dst : BitVec 16) (ccr : Ccr) : Word × Ccr :=
  moveOP (BitVec.ofInt 32 (src.toInt * dst.toInt)) ccr

/-- R182 for divu: `a` the unsigned dividend, `b` the unsigned divisor. -/
def divuOverflow (policy : DivOvfPolicy) (a b : Nat) : Bool :=
  match policy with
  | .prose => decide (a ≤ b)
  | .codeAsEvaluated => decide (a % 2 ^ 16 = 0)
  | .mc68000 => decide (a / b > 0xFFFF)

/-- R182 for divs: `a` the signed dividend, `b` the signed divisor. -/
def divsOverflow (policy : DivOvfPolicy) (a b : Int) : Bool :=
  match policy with
  | .prose => decide (a ≤ b.natAbs)
  | .codeAsEvaluated => decide (a % 2 ^ 16 = 0)
  | .mc68000 => decide (a.tdiv b < -32768) || decide (a.tdiv b > 32767)

/-- R137: the packed remainder and quotient. -/
def packDivide (q r : Int) : Word := BitVec.ofInt 16 r ++ BitVec.ofInt 16 q

/-- R135, R136: the flags of a quotient; V and X are kept. -/
def quotientFlags (q : Int) (ccr : Ccr) : Ccr :=
  Ccr.pack ccr.x (BitVec.ofInt 16 q).msb (BitVec.ofInt 16 q == 0) ccr.v false

/-- R135, R136: the flags of a divide overflow; X, N, Z are kept. -/
def divideOverflowFlags (ccr : Ccr) : Ccr := Ccr.pack ccr.x ccr.n ccr.z true false

/-- R135 for a non-zero divisor; no result where the divide overflows. -/
def divuOP (policy : DivOvfPolicy) (divisor : BitVec 16) (dividend : Word) (ccr : Ccr) : Option Word × Ccr :=
  let a := dividend.toNat
  let b := divisor.toNat
  if divuOverflow policy a b then (none, divideOverflowFlags ccr)
  else (some (packDivide ((a / b : Nat) : Int) ((a % b : Nat) : Int)), quotientFlags ((a / b : Nat) : Int) ccr)

/-- R136 for a non-zero divisor: the quotient rounds toward zero. -/
def divsOP (policy : DivOvfPolicy) (divisor : BitVec 16) (dividend : Word) (ccr : Ccr) : Option Word × Ccr :=
  let a := dividend.toInt
  let b := divisor.toInt
  if divsOverflow policy a b then (none, divideOverflowFlags ccr)
  else (some (packDivide (a.tdiv b) (a - a.tdiv b * b)), quotientFlags (a.tdiv b) ccr)

/-! ### Branch ranges and conditions (R191, R192) -/

/-- `InRange(s, d)` of R191. -/
def inRange (sz : Size) (d : Int) : Bool :=
  match sz with
  | .b => decide (-128 ≤ d) && decide (d ≤ 127)
  | .w => decide (-32768 ≤ d) && decide (d ≤ 32767)
  | .l => decide (-2147483648 ≤ d) && decide (d ≤ 2147483647)

def condEq (f : Ccr) : Bool := f.z
def condNe (f : Ccr) : Bool := !f.z
def condGe (f : Ccr) : Bool := f.n == f.v
def condGt (f : Ccr) : Bool := !f.z && f.n == f.v
def condLe (f : Ccr) : Bool := f.z || f.n != f.v
def condLt (f : Ccr) : Bool := f.n != f.v

end Sys2Proof.Machine
end

