-- ==== Sys2Proof/WellFormed.lean ====
section
/-! DEFINITION. Well-formed instructions: the size an instruction carries is one its mnemonic takes (30_encoding R110).
Register numbers are below 8 and operand kinds are the five of R90 by their types; literals have no bound (R89). -/

namespace Sys2Proof

/-- R110: the explicit size suffixes a mnemonic takes. -/
def Mnemonic.takesSize : Mnemonic → Size → Bool
  | .ext, s => s != .b
  | .swap, s | .mulu, s | .muls, s | .divu, s | .divs, s => s == .w
  | .exg, s => s == .l
  | .jmp, _ | .jsr, _ | .rts, _ => false
  | .move, _ | .add, _ | .sub, _ | .cmp, _ | .and, _ | .or, _ | .eor, _ | .not, _ | .clr, _ | .neg, _ => true
  | .asl, _ | .asr, _ | .lsl, _ | .lsr, _ | .rol, _ | .ror, _ => true
  | .bra, _ | .bsr, _ | .beq, _ | .bne, _ | .bge, _ | .bgt, _ | .ble, _ | .blt, _ => true

/-- An instruction is well-formed when its mnemonic takes the size it carries (R110). -/
def Instr.wf (i : Instr) : Bool :=
  match i.mnemonic, i.size with
  | some m, some s => m.takesSize s
  | _, _ => true

end Sys2Proof
end

