-- ==== Sys2Proof/Decode.lean ====
section
/-! DEFINITION. Decoding a cell (30_encoding R71 to R110): lexical rules, literals, operands, the checks (a) to (e) of R99
in their order, and the encoder. Total on any text; what the spec gives no meaning is refused by name. -/

namespace Sys2Proof

open Machine (NonFatalKind)

/-- A decode-time refusal (R74). -/
inductive DecodeRefusal where
  /-- R84 -/
  | unknownMnemonic
  /-- R110 -/
  | sizeNotShown
  /-- R89, R96 -/
  | operandForm
  /-- R83: a shift or rotate with one operand. -/
  | formNotShown
deriving DecidableEq, Repr

/-- Why decoding ends without an instruction. -/
inductive DecodeStop where
  /-- A non-fatal error is recorded and the cell is skipped. -/
  | error (k : NonFatalKind)
  /-- The model gives the cell no meaning. -/
  | refuse (r : DecodeRefusal)
deriving DecidableEq, Repr

/-! ### Lexical rules (R72) -/

/-- White space. DESIGN CHOICE (log entry 8): space, tab, line feed, vertical tab, form feed, carriage return. -/
def isSpace (c : Char) : Bool := c.toNat == 32 || (9 ≤ c.toNat && c.toNat ≤ 13)

/-- Letters are matched without regard to case (R72). -/
def lower (t : Text) : Text := t.map Char.toLower

/-- The text up to the first character that satisfies `p`, and the rest from it on. -/
def splitAtFirst (p : Char → Bool) : Text → Text × Text
  | [] => ([], [])
  | c :: r => if p c then ([], c :: r) else ((c :: (splitAtFirst p r).1), (splitAtFirst p r).2)

def trimStart : Text → Text
  | [] => []
  | c :: r => if isSpace c then trimStart r else c :: r

/-- Leading and trailing white space removed. -/
def trim (t : Text) : Text := (trimStart (trimStart t).reverse).reverse

/-- The parts of a text between commas. -/
def commaParts : Text → List Text
  | [] => [[]]
  | c :: r =>
    if c == ',' then [] :: commaParts r
    else match commaParts r with
      | [] => [[c]]
      | p :: ps => (c :: p) :: ps

/-- The operands' texts: the comma-separated parts of the operand field, white space removed; none for an empty field
(R72, R83). A comma inside parentheses separates like any other (DEDUCED, log entry 10). -/
def operandTexts (field : Text) : List Text :=
  match trim field with
  | [] => []
  | f => (commaParts f).map trim

/-! ### Literals (R89) -/

/-- The value of a digit in the given base; hexadecimal digits in either case. -/
def digitValue (base : Nat) (c : Char) : Option Nat :=
  let n := c.toNat
  let v := if 48 ≤ n && n ≤ 57 then n - 48
    else if 97 ≤ n && n ≤ 102 then n - 87
    else if 65 ≤ n && n ≤ 70 then n - 55
    else base
  if v < base then some v else none

def digitsValue (base acc : Nat) : Text → Option Nat
  | [] => some acc
  | c :: r =>
    match digitValue base c with
    | none => none
    | some d => digitsValue base (acc * base + d) r

/-- One or more digits of the base. -/
def natLiteral (base : Nat) : Text → Option Nat
  | [] => none
  | c :: r => digitsValue base 0 (c :: r)

/-- R89: decimal with an optional minus, `$` hexadecimal, `%` binary; nothing else. -/
def literal (t : Text) : Option Int :=
  match t with
  | '-' :: r => (natLiteral 10 r).map fun n => -(n : Int)
  | '$' :: r => (natLiteral 16 r).map fun n => (n : Int)
  | '%' :: r => (natLiteral 2 r).map fun n => (n : Int)
  | r => (natLiteral 10 r).map fun n => (n : Int)

/-! ### Operands (R90, R91, R95, R96) -/

/-- What a text is as a register name. -/
inductive RegisterText where
  | register (op : Operand)
  /-- A register letter and a number that is not 0..7 (R95). -/
  | invalid
  | other
deriving DecidableEq, Repr

/-- The digits after a register letter. A number below 8 names a register only as one digit (DEDUCED, log entry 11). -/
def numberedRegister (mk : Fin 8 → Operand) (digits : Text) : RegisterText :=
  match natLiteral 10 digits with
  | none => .other
  | some n =>
    if h : n < 8 then
      if digits.length == 1 then .register (mk ⟨n, h⟩) else .other
    else .invalid

/-- R91, R95. -/
def registerText (t : Text) : RegisterText :=
  match lower t with
  | ['s', 'p'] => .register (.addressRegister 7)
  | 'a' :: ds => numberedRegister .addressRegister ds
  | 'd' :: ds => numberedRegister .dataRegister ds
  | _ => .other

/-- `outside(inside)` split into its two texts. -/
def splitParentheses (t : Text) : Option (Text × Text) :=
  match splitAtFirst (· == '(') t with
  | (outside, '(' :: r) =>
    match r.reverse with
    | ')' :: inside => some (outside, inside.reverse)
    | _ => none
  | _ => none

/-- One operand's text, its register number (R95) before its spelling (R96), as R99(e) orders them. -/
def parseOperand (t : Text) : Except DecodeStop Operand :=
  match t with
  | '#' :: r =>
    match literal r with
    | some v => .ok (.immediate v)
    | none => .error (.refuse .operandForm)
  | t =>
    match registerText t with
    | .register op => .ok op
    | .invalid => .error (.error .invalidRegister)
    | .other =>
      match splitParentheses t with
      | none =>
        match literal t with
        | some a => .ok (.absoluteOffset a)
        | none => .error (.refuse .operandForm)
      | some (outside, inside) =>
        match literal outside with
        | none => .error (.refuse .operandForm)
        | some d =>
          match registerText inside with
          | .register (.addressRegister n) => .ok (.offsetAddress d n)
          | .invalid => .error (.error .invalidRegister)
          | _ => .error (.refuse .operandForm)

/-! ### Mnemonics, sizes, formats (R82 to R85) -/

/-- The spelling of each mnemonic (opcode_table.json, "match"). -/
def Mnemonic.text : Mnemonic → Text
  | .add => ['a', 'd', 'd']
  | .sub => ['s', 'u', 'b']
  | .cmp => ['c', 'm', 'p']
  | .neg => ['n', 'e', 'g']
  | .move => ['m', 'o', 'v', 'e']
  | .and => ['a', 'n', 'd']
  | .or => ['o', 'r']
  | .eor => ['e', 'o', 'r']
  | .not => ['n', 'o', 't']
  | .clr => ['c', 'l', 'r']
  | .ext => ['e', 'x', 't']
  | .swap => ['s', 'w', 'a', 'p']
  | .exg => ['e', 'x', 'g']
  | .asl => ['a', 's', 'l']
  | .asr => ['a', 's', 'r']
  | .lsl => ['l', 's', 'l']
  | .lsr => ['l', 's', 'r']
  | .rol => ['r', 'o', 'l']
  | .ror => ['r', 'o', 'r']
  | .mulu => ['m', 'u', 'l', 'u']
  | .muls => ['m', 'u', 'l', 's']
  | .divu => ['d', 'i', 'v', 'u']
  | .divs => ['d', 'i', 'v', 's']
  | .bra => ['b', 'r', 'a']
  | .bsr => ['b', 's', 'r']
  | .beq => ['b', 'e', 'q']
  | .bne => ['b', 'n', 'e']
  | .bge => ['b', 'g', 'e']
  | .bgt => ['b', 'g', 't']
  | .ble => ['b', 'l', 'e']
  | .blt => ['b', 'l', 't']
  | .jmp => ['j', 'm', 'p']
  | .jsr => ['j', 's', 'r']
  | .rts => ['r', 't', 's']

/-- The 34 mnemonics in the table's order. -/
def allMnemonics : List Mnemonic :=
  [.add, .sub, .cmp, .neg, .move, .and, .or, .eor, .not, .clr, .ext, .swap, .exg,
   .asl, .asr, .lsl, .lsr, .rol, .ror, .mulu, .muls, .divu, .divs,
   .bra, .bsr, .beq, .bne, .bge, .bgt, .ble, .blt, .jmp, .jsr, .rts]

/-- The mnemonic a base token spells, case ignored (R84). -/
def mnemonicOf (base : Text) : Option Mnemonic := allMnemonics.find? fun m => m.text == lower base

/-- A size suffix without its dot (R82); none where it is not `b`, `w` or `l`. -/
def suffixSize (suffix : Text) : Option Size :=
  match lower suffix with
  | ['b'] => some .b
  | ['w'] => some .w
  | ['l'] => some .l
  | _ => none

/-- R82, R110: the size of the instruction, w where the suffix is absent. An empty suffix (`add.`) is not absent
(DEDUCED, log entry 9). -/
def checkSize (m : Mnemonic) (suffix : Option Text) : Except DecodeStop Size :=
  match suffix with
  | none => .ok .w
  | some t =>
    match suffixSize t with
    | none => .error (.error .invalidSize)
    | some s => if m.takesSize s then .ok s else .error (.refuse .sizeNotShown)

/-- An instruction's format (R85) with what it makes of its operands. -/
inductive Format where
  | f1 (i : Instr)
  | f2 (make : Operand → Instr)
  | f3 (make : Operand → Operand → Instr)

/-- R83: how many operands the format takes. -/
def Format.arity : Format → Nat
  | .f1 _ => 0
  | .f2 _ => 1
  | .f3 _ => 2

/-- R85: the format of each mnemonic. -/
def Mnemonic.format (s : Size) : Mnemonic → Format
  | .add => .f3 (.add s)
  | .sub => .f3 (.sub s)
  | .cmp => .f3 (.cmp s)
  | .neg => .f2 (.neg s)
  | .move => .f3 (.move s)
  | .and => .f3 (.and s)
  | .or => .f3 (.or s)
  | .eor => .f3 (.eor s)
  | .not => .f2 (.not s)
  | .clr => .f2 (.clr s)
  | .ext => .f2 (.ext s)
  | .swap => .f2 .swap
  | .exg => .f3 .exg
  | .asl => .f3 (.asl s)
  | .asr => .f3 (.asr s)
  | .lsl => .f3 (.lsl s)
  | .lsr => .f3 (.lsr s)
  | .rol => .f3 (.rol s)
  | .ror => .f3 (.ror s)
  | .mulu => .f3 .mulu
  | .muls => .f3 .muls
  | .divu => .f3 .divu
  | .divs => .f3 .divs
  | .bra => .f2 (.bra s)
  | .bsr => .f2 (.bsr s)
  | .beq => .f2 (.beq s)
  | .bne => .f2 (.bne s)
  | .bge => .f2 (.bge s)
  | .bgt => .f2 (.bgt s)
  | .ble => .f2 (.ble s)
  | .blt => .f2 (.blt s)
  | .jmp => .f2 .jmp
  | .jsr => .f2 .jsr
  | .rts => .f1 .rts

/-- R83: the shifts and rotates, whose one-operand form is refused. -/
def Mnemonic.isShift : Mnemonic → Bool
  | .asl | .asr | .lsl | .lsr | .rol | .ror => true
  | _ => false

/-- R83: what a wrong number of operands does. -/
def arityStop (m : Mnemonic) (field : Text) : DecodeStop :=
  if m.isShift && (operandTexts field).length == 1 then .refuse .formNotShown else .error .wrongArity

/-- R83, R99(d), (e): arity, then the operands left to right. -/
def formInstr (m : Mnemonic) (s : Size) (field : Text) : Except DecodeStop Instr :=
  match m.format s, operandTexts field with
  | .f1 i, [] => .ok i
  | .f2 make, [a] => do
    let x ← parseOperand a
    .ok (make x)
  | .f3 make, [a, b] => do
    let x ← parseOperand a
    let y ← parseOperand b
    .ok (make x y)
  | _, _ => .error (arityStop m field)

/-- R81: the token's base mnemonic and its suffix, absent where the token has no dot. -/
def splitMnemonic (token : Text) : Text × Option Text :=
  match splitAtFirst (· == '.') token with
  | (base, _ :: suffix) => (base, some suffix)
  | (base, []) => (base, none)

/-- The decode checks (a) to (e) of R99 on a cell's text. -/
def decodeText (t : Text) : Except DecodeStop Instr :=
  let (token, field) := splitAtFirst isSpace t
  let (base, suffix) := splitMnemonic token
  match mnemonicOf base with
  | none => .error (.refuse .unknownMnemonic)
  | some m => do
    let s ← checkSize m suffix
    formInstr m s field

/-- R71, R80: a non-executable cell's text is not decoded. -/
def decodeCell (c : InstrCell) : Except DecodeStop Instr :=
  if c.nonExec then .ok .nonExecutable else decodeText c.text

/-! ### The encoder: one spelling for each instruction (DESIGN CHOICE, log entry 16) -/

def digitChar (d : Nat) : Char := Char.ofNat (48 + d)

/-- The decimal digits of `n` before `acc`, on fuel. -/
def decimalDigits : Nat → Nat → Text → Text
  | 0, _, acc => acc
  | fuel + 1, n, acc =>
    if n < 10 then digitChar n :: acc
    else decimalDigits fuel (n / 10) (digitChar (n % 10) :: acc)

def natText (n : Nat) : Text := decimalDigits (n + 1) n []

def intText : Int → Text
  | .ofNat n => natText n
  | .negSucc n => '-' :: natText (n + 1)

def Operand.text : Operand → Text
  | .immediate v => '#' :: intText v
  | .absoluteOffset a => intText a
  | .addressRegister n => ['a', digitChar n.val]
  | .dataRegister n => ['d', digitChar n.val]
  | .offsetAddress d n => intText d ++ ['(', 'a', digitChar n.val, ')']

def Size.suffix : Size → Text
  | .b => ['.', 'b']
  | .w => ['.', 'w']
  | .l => ['.', 'l']

/-- The suffix of the size an instruction carries; none where it carries no size. -/
def sizeText : Option Size → Text
  | some s => s.suffix
  | none => []

/-- The operand field with its leading space; empty where there is no operand. -/
def fieldText : List Operand → Text
  | [] => []
  | [a] => ' ' :: a.text
  | a :: rest => ' ' :: (a.text ++ rest.flatMap fun b => ',' :: b.text)

/-- A cell that holds the instruction, at the given source line. -/
def encode (i : Instr) (line : Int) : InstrCell :=
  match i.mnemonic with
  | none => ⟨['L', ':'], line, true⟩
  | some m => ⟨m.text ++ sizeText i.size ++ fieldText i.operands, line, false⟩

/-! ### The table's words (DESIGN CHOICE, log entry 4)

The table gives no bits: an instruction is text. A word's bytes, the first in bits 7..0, are the text's characters; a
zero byte ends it; a text that ends in a colon is a label's slot (R243), so its cell is flagged non-executable. -/

def wordText : Nat → Nat → Text
  | 0, _ => []
  | n + 1, w => if w % 256 == 0 then [] else Char.ofNat (w % 256) :: wordText n (w / 256)

def cellOfWord (nbits w : Nat) : InstrCell :=
  let t := wordText ((nbits + 7) / 8) w
  ⟨t, 1, t.getLast? == some ':'⟩

/-- The instruction the decoder reads from a word of the table's numbering. -/
def decodeTableWord (nbits w : Nat) : Option Instr :=
  match decodeCell (cellOfWord nbits w) with
  | .ok i => some i
  | .error _ => none

end Sys2Proof
end

