-- ==== Sys2Proof/Machine/Ops.lean ====
section
/-! DEFINITION. Named operations over memory, registers, events and the fetch (20_memory, 10_state R25, 60_exceptions
sections 2 and 3, 30_encoding section 2). -/

namespace Sys2Proof.Machine

/-! ### Memory (R46 to R57) -/

/-- `getByte` (R49): an absent address reads 0. -/
def Memory.getByte (m : Memory) (a : Nat) : Byte :=
  match m with
  | [] => 0
  | (k, v) :: r => if k = a then v else Memory.getByte r a

/-- `setByte` on a byte value (R52), keeping the canonical form. -/
def Memory.setByte (m : Memory) (a : Nat) (v : Byte) : Memory :=
  match m with
  | [] => if v = 0 then [] else [(a, v)]
  | (k, b) :: r =>
    if a < k then (if v = 0 then (k, b) :: r else (a, v) :: (k, b) :: r)
    else if a = k then (if v = 0 then r else (a, v) :: r)
    else (k, b) :: Memory.setByte r a v

/-- `MemRead` of `n` bytes (R49 to R51): big-endian composition. -/
def Memory.read (m : Memory) (a : Nat) : Nat → Nat
  | 0 => 0
  | n + 1 => (Memory.getByte m a).toNat * 256 ^ n + Memory.read m (a + 1) n

/-- `MemWrite` of the low `n` bytes of `v` (R52 to R54): most significant byte at the lowest address. -/
def Memory.write (m : Memory) (a : Nat) : Nat → Nat → Memory
  | 0, _ => m
  | n + 1, v => Memory.write (Memory.setByte m a (BitVec.ofNat 8 (v / 256 ^ n))) (a + 1) n v

/-- The canonical form: addresses strictly rising, no zero byte. -/
def Memory.wf : Memory → Bool
  | [] => true
  | (k, v) :: r => v != 0 && r.all (fun c => decide (k < c.1)) && Memory.wf r

/-- Every listed address is in the address space (R46). -/
def Memory.inSpace (m : Memory) : Bool := m.all fun c => decide (c.1 ≤ Config.maxAddress)

/-- `Valid(a, n)` (R48). -/
def valid (a : Int) (n : Nat) : Bool := decide (0 ≤ a) && decide (a + n - 1 ≤ Config.maxAddress)

/-! ### Registers (R21 to R25) -/

/-- A(n) is slot n (R22). -/
def addressSlot (n : Fin 8) : Fin 16 := ⟨n.val, by omega⟩

/-- D(n) is slot 8 + n (R22). -/
def dataSlot (n : Fin 8) : Fin 16 := ⟨8 + n.val, by omega⟩

/-- The stack pointer is slot 7 (R24). -/
def spSlot : Fin 16 := 7

def State.reg (s : State) (i : Fin 16) : Word := s.x[i.val]

/-- `x[i] <- v`, all 32 bits (R13). -/
def State.setReg (s : State) (i : Fin 16) (v : Word) : State := { s with x := s.x.set i.val v }

/-- The low bits of a slot (R25). -/
def State.readReg (s : State) (i : Fin 16) (w : Nat) : BitVec w := (s.reg i).setWidth w

/-- A word whose low `w` bits are replaced (R25). -/
def replaceLow {w : Nat} (old : Word) (v : BitVec w) : Word := ((old >>> w) <<< w) ||| v.setWidth 32

/-- `RegWrite(i, s, v)` (R25): the bits above the size are kept. -/
def State.writeReg {w : Nat} (s : State) (i : Fin 16) (v : BitVec w) : State :=
  s.setReg i (replaceLow (s.reg i) v)

def State.setCcr (s : State) (f : Ccr) : State := { s with ccr := f }

def State.setPc (s : State) (pc : Int) : State := { s with pc := pc }

def State.setMem (s : State) (m : Memory) : State := { s with mem := m }

/-! ### Events: taking a fatal exception, recording an error (R213, R216, R225) -/

/-- `raise Fatal(k)` (R213): the slot holds the first exception; nothing else is written. -/
def State.raiseFatal (s : State) (k : FatalKind) : State :=
  { s with exc := match s.exc with | none => some k | some e => some e }

/-- `error NonFatal(k)` (R216): a record with the current source line is appended; nothing else is written. -/
def State.recordError (s : State) (k : NonFatalKind) : State :=
  { s with errs := s.errs ++ [⟨k, s.line⟩] }

/-- How an instruction ends without its effect. -/
inductive Event where
  | nonFatal (k : NonFatalKind)
  | fatal (k : FatalKind)
  | refuse (r : Refusal)
deriving DecidableEq, Repr

/-- The end of an instruction started in `s` (R100, R215, R218): all of its writes, or an event that leaves everything
else as it was in `s`. -/
def conclude (s : State) : Except Event State → Host.Outcome State Fault Refusal
  | .ok t => .next t
  | .error (.nonFatal k) => .next (s.recordError k)
  | .error (.fatal k) => .next (s.raiseFatal k)
  | .error (.refuse r) => .refused r

/-- A decode-time refusal as a refusal of the step (R74). -/
def refusalOf : DecodeRefusal → Refusal
  | .unknownMnemonic => .unknownMnemonic
  | .sizeNotShown => .sizeNotShown
  | .operandForm => .operandForm
  | .formNotShown => .formNotShown

/-- A decode stop as an event of the step (R99). -/
def stopEvent : DecodeStop → Event
  | .error k => .nonFatal k
  | .refuse r => .refuse (refusalOf r)

/-! ### The step's first half (R73 steps 1 to 4) -/

/-- `4 × N`, the end of the instruction table (R29). -/
def State.programEnd (s : State) : Int := Config.cellUnits * s.params.program.length

/-- `Halted(s)` (R43). -/
def State.halted (s : State) : Bool := s.exc.isSome || decide (s.programEnd ≤ s.pc)

/-- A pc that can be fetched at: a non-negative multiple of 4 (R77). -/
def State.pcAligned (s : State) : Bool := decide (0 ≤ s.pc) && decide (s.pc % Config.cellUnits = 0)

/-- The cell at the pc (R29). -/
def State.currentCell (s : State) : Option InstrCell := s.params.program[(s.pc / Config.cellUnits).toNat]?

/-- The snapshot of a state (R39). -/
def State.frame (s : State) : Frame := ⟨s.pc, s.ccr, s.lastInstr, s.line, s.x, s.mem, s.errs⟩

/-- R78: a frame is pushed unless pc is 0. -/
def State.pushFrame (s : State) : State :=
  if s.pc = 0 then s else { s with undo := s.undo ++ [s.frame] }

/-- R79: `lastInstr` and `line` name the cell, pc advances to `pc_adv`. -/
def State.fetch (s : State) (c : InstrCell) : State :=
  { s with lastInstr := some c.text, line := some c.line, pc := s.pc + Config.cellUnits }

/-- What the first half of a step comes to. -/
inductive Fetched where
  /-- No cell is executed; the step ends in this state. -/
  | stop (s : State)
  /-- The state to execute the cell in. -/
  | cell (s : State) (c : InstrCell)
deriving DecidableEq, Repr

/-- R73 steps (1) to (4): the halt test, the pc test, the undo frame, the fetch. A pc that passes both tests has a cell;
the arm without one is never reached and changes nothing. -/
def State.beginStep (s : State) : Fetched :=
  if s.halted then .stop s
  else if !s.pcAligned then .stop (s.raiseFatal .invalidPC)
  else
    match s.currentCell with
    | none => .stop s
    | some c => .cell (s.pushFrame.fetch c) c

/-! ### Placing an instruction for the next step (log entries 3, 4) -/

/-- The list with `c` at index `n`, lengthened with copies of `c` where it is too short. -/
def placeCell (c : InstrCell) : Nat → List InstrCell → List InstrCell
  | 0, [] => [c]
  | 0, _ :: r => c :: r
  | n + 1, [] => c :: placeCell c n []
  | n + 1, d :: r => d :: placeCell c n r

/-- The state with the cell where the next step fetches: a pc that cannot be fetched at becomes 0, and a recorded fatal
exception is taken away, since with either no cell is fetched. -/
def State.withCell (s : State) (c : InstrCell) : State :=
  let pc := if s.pcAligned then s.pc else 0
  { s with
    pc := pc
    exc := none
    params := { s.params with program := placeCell c (pc / Config.cellUnits).toNat s.params.program } }

end Sys2Proof.Machine
end

