-- ==== Sys2Proof/Machine/Operands.lean ====
section
/-! DEFINITION. The five operand kinds read and written, and the legality of operand combinations
(30_encoding sections 3 and 4). -/

namespace Sys2Proof.Machine

open Sys2Proof (Operand Size)

/-! ### Kinds -/

/-- `mem` of R101: a memory operand (R90). -/
def isMem : Operand → Bool
  | .absoluteOffset _ | .offsetAddress _ _ => true
  | .immediate _ | .addressRegister _ | .dataRegister _ => false

def isImmediate : Operand → Bool
  | .immediate _ => true
  | .absoluteOffset _ | .addressRegister _ | .dataRegister _ | .offsetAddress _ _ => false

def isAddressRegister : Operand → Bool
  | .addressRegister _ => true
  | .immediate _ | .absoluteOffset _ | .dataRegister _ | .offsetAddress _ _ => false

/-- The slot of a register operand (R22, R90). -/
def slotOf : Operand → Option (Fin 16)
  | .addressRegister n => some (addressSlot n)
  | .dataRegister n => some (dataSlot n)
  | .immediate _ | .absoluteOffset _ | .offsetAddress _ _ => none

/-- The effective address of a memory operand, an integer (R93, R94). -/
def effectiveAddress (op : Operand) (s : State) : Option Int :=
  match op with
  | .absoluteOffset a => some a
  | .offsetAddress d n => some ((s.reg (addressSlot n)).toInt + d)
  | .immediate _ | .addressRegister _ | .dataRegister _ => none

/-! ### Reading and writing (R97, R98) -/

/-- Whether the operand can be accessed at the size: a memory operand's bytes are all valid (R48, R56). -/
def accessible (op : Operand) (sz : Size) (s : State) : Bool :=
  match effectiveAddress op s with
  | none => true
  | some a => valid a sz.bytes

/-- The value of an operand at a size, its address taken as valid (R97). -/
def operandValue (op : Operand) (sz : Size) (s : State) : BitVec sz.bits :=
  match op with
  | .immediate v => BitVec.ofInt sz.bits v
  | .addressRegister n => s.readReg (addressSlot n) sz.bits
  | .dataRegister n => s.readReg (dataSlot n) sz.bits
  | .absoluteOffset a => BitVec.ofNat sz.bits (Memory.read s.mem a.toNat sz.bytes)
  | .offsetAddress d n =>
    BitVec.ofNat sz.bits (Memory.read s.mem ((s.reg (addressSlot n)).toInt + d).toNat sz.bytes)

/-- `ReadOp(op, s)` (R97). -/
def readOp (op : Operand) (sz : Size) (s : State) : Except Event (BitVec sz.bits) :=
  if accessible op sz s then .ok (operandValue op sz s) else .error (.nonFatal .invalidAddress)

/-- The value of a source read as a word (R180 to R184). -/
def operandWord (op : Operand) (s : State) : BitVec 16 := operandValue op .w s

/-- `ReadOp(src, w)` (R180 to R184). -/
def readWord (op : Operand) (s : State) : Except Event (BitVec 16) :=
  if accessible op .w s then .ok (operandWord op s) else .error (.nonFatal .invalidAddress)

/-- The state with the value in the operand, its address taken as valid (R98); an Immediate has no place to write. -/
def storeOperand (op : Operand) (sz : Size) (v : BitVec sz.bits) (s : State) : State :=
  match op with
  | .immediate _ => s
  | .addressRegister n => s.writeReg (addressSlot n) v
  | .dataRegister n => s.writeReg (dataSlot n) v
  | .absoluteOffset a => s.setMem (Memory.write s.mem a.toNat sz.bytes v.toNat)
  | .offsetAddress d n =>
    s.setMem (Memory.write s.mem ((s.reg (addressSlot n)).toInt + d).toNat sz.bytes v.toNat)

/-- `WriteOp(op, s, v)` (R98) with the validity check R100 puts before every write. -/
def writeOp (op : Operand) (sz : Size) (v : BitVec sz.bits) (s : State) : Except Event State :=
  if accessible op sz s then .ok (storeOperand op sz v s) else .error (.nonFatal .invalidAddress)

/-! ### Legality (R101 to R109); the first failure is the event -/

def illegalOperand : Except Event Unit := .error (.nonFatal .illegalOperand)

/-- R101: add, sub, and, or, eor. -/
def legalAlu (src dst : Operand) : Except Event Unit :=
  if isImmediate dst then illegalOperand
  else if isMem src && isMem dst then .error (.nonFatal .memToMem)
  else .ok ()

/-- R102, R103: cmp, move. -/
def legalMove (dst : Operand) : Except Event Unit :=
  if isImmediate dst then illegalOperand else .ok ()

/-- R104: not, clr, neg. -/
def legalUnary (dst : Operand) : Except Event Unit :=
  if isAddressRegister dst || isImmediate dst then illegalOperand else .ok ()

/-- R105: ext, swap; the data register's slot. -/
def dataRegisterOnly : Operand → Except Event (Fin 16)
  | .dataRegister n => .ok (dataSlot n)
  | .immediate _ | .absoluteOffset _ | .addressRegister _ | .offsetAddress _ _ => .error (.nonFatal .illegalOperand)

/-- R106: exg; a register's slot. -/
def registerOnly (op : Operand) : Except Event (Fin 16) :=
  match slotOf op with
  | some i => .ok i
  | none => .error (.nonFatal .illegalOperand)

/-- R107: the shifts and rotates, in the rule's order. -/
def legalShift (sz : Size) (count dst : Operand) : Except Event Unit :=
  match dst with
  | .immediate _ => illegalOperand
  | .addressRegister _ => .error (.refuse .formNotShown)
  | .dataRegister _ =>
    match count with
    | .immediate c =>
      if 0 ≤ c ∧ c ≤ Config.maxRegisterCount then .ok () else .error (.nonFatal .shiftCount)
    | .dataRegister _ => .ok ()
    | .absoluteOffset _ | .addressRegister _ | .offsetAddress _ _ => .error (.refuse .formNotShown)
  | .absoluteOffset _ | .offsetAddress _ _ =>
    match count with
    | .immediate c =>
      if c ≠ 1 then .error (.nonFatal .shiftCount)
      else if sz ≠ .w then .error (.nonFatal .invalidSize)
      else .ok ()
    | .dataRegister _ | .absoluteOffset _ | .addressRegister _ | .offsetAddress _ _ => .error (.refuse .formNotShown)

/-- `Count(count)` (R172): an Immediate's value, a data register modulo 64. -/
def shiftCount (count : Operand) (s : State) : Nat :=
  match count with
  | .immediate c => c.toNat
  | .dataRegister n => (s.reg (dataSlot n)).toNat % 64
  | .absoluteOffset _ | .addressRegister _ | .offsetAddress _ _ => 0

/-- R108: mulu, muls, divu, divs, in the rule's order; the destination register's slot. -/
def legalMulDiv (src dst : Operand) : Except Event (Fin 16) :=
  match dst with
  | .immediate _ => .error (.nonFatal .illegalOperand)
  | .absoluteOffset _ | .offsetAddress _ _ =>
    if isMem src then .error (.nonFatal .memToMem) else .error (.refuse .formNotShown)
  | .addressRegister n => .ok (addressSlot n)
  | .dataRegister n => .ok (dataSlot n)

/-- R109: the displacement of a branch or jump. -/
def displacementOf : Operand → Except Event Int
  | .absoluteOffset d => .ok d
  | .immediate _ | .addressRegister _ | .dataRegister _ | .offsetAddress _ _ => .error (.refuse .formNotShown)

end Sys2Proof.Machine
end

