-- ==== Sys2Proof/Machine/Arithmetic.lean ====
section
/-! DEFINITION. add, sub, cmp, neg (41_arithmetic), and the two shapes shared with the logical instructions. Each meaning
runs after the fetch: the state's pc is `pc_adv` (R30). -/

namespace Sys2Proof.Machine

open Sys2Proof (Operand Size)

/-- A two-operand ALU instruction (R141, R142, R152 to R154): source read, then destination (R145, R160), one write. -/
def aluTwo (op : {w : Nat} → BitVec w → BitVec w → Ccr → BitVec w × Ccr) (sz : Size) (src dst : Operand) (s : State) :
    Except Event State := do
  legalAlu src dst
  let S ← readOp src sz s
  let D ← readOp dst sz s
  let t ← writeOp dst sz (op S D s.ccr).1 s
  .ok (t.setCcr (op S D s.ccr).2)

/-- A one-operand ALU instruction (R144, R155). -/
def aluOne (op : {w : Nat} → BitVec w → Ccr → BitVec w × Ccr) (sz : Size) (dst : Operand) (s : State) :
    Except Event State := do
  legalUnary dst
  let D ← readOp dst sz s
  let t ← writeOp dst sz (op D s.ccr).1 s
  .ok (t.setCcr (op D s.ccr).2)

/-- R141. -/
def execAdd (sz : Size) (src dst : Operand) (s : State) : Host.Outcome State Fault Refusal :=
  conclude s (aluTwo addOP sz src dst s)

/-- R142. -/
def execSub (sz : Size) (src dst : Operand) (s : State) : Host.Outcome State Fault Refusal :=
  conclude s (aluTwo subOP sz src dst s)

/-- R143: no operand is written. -/
def execCmp (sz : Size) (src dst : Operand) (s : State) : Host.Outcome State Fault Refusal :=
  conclude s do
    legalMove dst
    let S ← readOp src sz s
    let D ← readOp dst sz s
    .ok (s.setCcr (cmpOP S D s.ccr))

/-- R144. -/
def execNeg (sz : Size) (dst : Operand) (s : State) : Host.Outcome State Fault Refusal :=
  conclude s (aluOne negOP sz dst s)

end Sys2Proof.Machine
end

