-- ==== Sys2Proof/Machine/ControlFlow.lean ====
section
/-! DEFINITION. bra, bsr, beq, bne, bge, bgt, ble, blt, jmp, jsr, rts (45_control_flow) and the non-executable slot
(30_encoding R80). The state's pc is `pc_adv` (R30); no flag is written. -/

namespace Sys2Proof.Machine

open Sys2Proof (Operand Size)

/-- R191: `T = pc_adv + d`; the target is not checked here. -/
def State.jumpBy (s : State) (d : Int) : State := s.setPc (s.pc + d)

/-- R191 to R193: the condition, then the range test, then the displacement. -/
def branchInstr (taken : Bool) (sz : Size) (target : Operand) (s : State) : Except Event State := do
  let d ← displacementOf target
  if !taken then .ok s
  else if inRange sz d then .ok (s.jumpBy d)
  else .error (.nonFatal .offsetTooLong)

/-- R194, R202: a7 is incremented by 4 modulo 2^32 and `pc_adv` stored there as a long. -/
def pushPc (s : State) : Except Event State :=
  let sp := s.reg spSlot + 4
  if valid sp.toNat 4 then
    .ok ((s.setReg spSlot sp).setMem (Memory.write s.mem sp.toNat 4 (BitVec.ofInt 32 s.pc).toNat))
  else .error (.nonFatal .invalidAddress)

/-- R193. -/
def execBra (sz : Size) (target : Operand) (s : State) : Host.Outcome State Fault Refusal :=
  conclude s (branchInstr true sz target s)

/-- R194: the range test comes before the push. -/
def execBsr (sz : Size) (target : Operand) (s : State) : Host.Outcome State Fault Refusal :=
  conclude s do
    let d ← displacementOf target
    if inRange sz d then do
      let t ← pushPc s
      .ok (t.jumpBy d)
    else .error (.nonFatal .offsetTooLong)

/-- R195. -/
def execBeq (sz : Size) (target : Operand) (s : State) : Host.Outcome State Fault Refusal :=
  conclude s (branchInstr (condEq s.ccr) sz target s)

/-- R196. -/
def execBne (sz : Size) (target : Operand) (s : State) : Host.Outcome State Fault Refusal :=
  conclude s (branchInstr (condNe s.ccr) sz target s)

/-- R197. -/
def execBge (sz : Size) (target : Operand) (s : State) : Host.Outcome State Fault Refusal :=
  conclude s (branchInstr (condGe s.ccr) sz target s)

/-- R198. -/
def execBgt (sz : Size) (target : Operand) (s : State) : Host.Outcome State Fault Refusal :=
  conclude s (branchInstr (condGt s.ccr) sz target s)

/-- R199. -/
def execBle (sz : Size) (target : Operand) (s : State) : Host.Outcome State Fault Refusal :=
  conclude s (branchInstr (condLe s.ccr) sz target s)

/-- R200. -/
def execBlt (sz : Size) (target : Operand) (s : State) : Host.Outcome State Fault Refusal :=
  conclude s (branchInstr (condLt s.ccr) sz target s)

/-- R201: no range test. -/
def execJmp (target : Operand) (s : State) : Host.Outcome State Fault Refusal :=
  conclude s do
    let d ← displacementOf target
    .ok (s.jumpBy d)

/-- R202: no range test. -/
def execJsr (target : Operand) (s : State) : Host.Outcome State Fault Refusal :=
  conclude s do
    let d ← displacementOf target
    let t ← pushPc s
    .ok (t.jumpBy d)

/-- R203: the long at a7 is the new pc, read unsigned; a7 is decremented by 4 modulo 2^32. -/
def execRts (s : State) : Host.Outcome State Fault Refusal :=
  conclude s <|
    let a := (s.reg spSlot).toNat
    if valid a 4 then
      .ok ((s.setPc (Memory.read s.mem a 4 : Int)).setReg spSlot (s.reg spSlot - 4))
    else .error (.nonFatal .invalidAddress)

/-- R80: a no-op. -/
def execNonExecutable (s : State) : Host.Outcome State Fault Refusal := conclude s (.ok s)

end Sys2Proof.Machine
end

