-- ==== Sys2Proof/Machine/MoveLogical.lean ====
section
/-! DEFINITION. move, and, or, eor, not, clr, ext, swap, exg (42_move_logical). -/

namespace Sys2Proof.Machine

open Sys2Proof (Operand Size)

/-- R151. -/
def execMove (sz : Size) (src dst : Operand) (s : State) : Host.Outcome State Fault Refusal :=
  conclude s do
    legalMove dst
    let v ← readOp src sz s
    let t ← writeOp dst sz (moveOP v s.ccr).1 s
    .ok (t.setCcr (moveOP v s.ccr).2)

/-- R152. -/
def execAnd (sz : Size) (src dst : Operand) (s : State) : Host.Outcome State Fault Refusal :=
  conclude s (aluTwo andOP sz src dst s)

/-- R153. -/
def execOr (sz : Size) (src dst : Operand) (s : State) : Host.Outcome State Fault Refusal :=
  conclude s (aluTwo orOP sz src dst s)

/-- R154. -/
def execEor (sz : Size) (src dst : Operand) (s : State) : Host.Outcome State Fault Refusal :=
  conclude s (aluTwo eorOP sz src dst s)

/-- R155. -/
def execNot (sz : Size) (dst : Operand) (s : State) : Host.Outcome State Fault Refusal :=
  conclude s (aluOne notOP sz dst s)

/-- R156: the destination is written, not read. -/
def execClr (sz : Size) (dst : Operand) (s : State) : Host.Outcome State Fault Refusal :=
  conclude s do
    legalUnary dst
    let t ← writeOp dst sz (clrOP s.ccr).1 s
    .ok (t.setCcr (clrOP (w := sz.bits) s.ccr).2)

/-- R157: the low `src` bits of a data register (R105) sign-extended to its low `dst` bits. -/
def extendRegister (src dst : Nat) (op : Operand) (s : State) : Except Event State := do
  let i ← dataRegisterOnly op
  .ok ((s.writeReg i (extOP src dst (s.reg i) s.ccr).1).setCcr (extOP src dst (s.reg i) s.ccr).2)

/-- R157: byte to word, word to long. Size b is no form of `ext` and no text decodes to it; the size is checked before the
operand (R110 before R105, R99; log entry 17). -/
def execExt (sz : Size) (op : Operand) (s : State) : Host.Outcome State Fault Refusal :=
  conclude s (match sz with
    | .b => .error (.refuse .sizeNotShown)
    | .w => extendRegister 8 16 op s
    | .l => extendRegister 16 32 op s)

/-- R158. -/
def execSwap (op : Operand) (s : State) : Host.Outcome State Fault Refusal :=
  conclude s do
    let i ← dataRegisterOnly op
    .ok ((s.setReg i (swapOP (s.reg i) s.ccr).1).setCcr (swapOP (s.reg i) s.ccr).2)

/-- R159: no flag is written. -/
def execExg (op1 op2 : Operand) (s : State) : Host.Outcome State Fault Refusal :=
  conclude s do
    let i ← registerOnly op1
    let j ← registerOnly op2
    .ok ((s.setReg i (s.reg j)).setReg j (s.reg i))

end Sys2Proof.Machine
end

