-- ==== Sys2Proof/Machine/MultiplyDivide.lean ====
section
/-! DEFINITION. mulu, muls, divu, divs (44_multiply_divide). -/

namespace Sys2Proof.Machine

open Sys2Proof (Operand Size)

/-- R180, R181: the product of the 16-bit source and the destination's low word, written on all 32 bits. -/
def multiplyInstr (op : BitVec 16 → BitVec 16 → Ccr → Word × Ccr) (src dst : Operand) (s : State) :
    Except Event State := do
  let i ← legalMulDiv src dst
  let S ← readWord src s
  let p := op S (s.readReg i 16) s.ccr
  .ok ((s.setReg i p.1).setCcr p.2)

/-- The writes of a divide: the packed result, if there is one, and the flags (R183, R184). -/
def divideWrite (i : Fin 16) (p : Option Word × Ccr) (s : State) : State :=
  match p.1 with
  | some r => (s.setReg i r).setCcr p.2
  | none => s.setCcr p.2

/-- R183 to R185: the zero test comes after the source is read and before the overflow test. -/
def divideInstr (op : BitVec 16 → Word → Ccr → Option Word × Ccr) (src dst : Operand) (s : State) :
    Except Event State := do
  let i ← legalMulDiv src dst
  let d ← readWord src s
  if d = 0#16 then .error (.fatal .divisionByZero)
  else .ok (divideWrite i (op d (s.reg i) s.ccr) s)

/-- R180. -/
def execMulu (src dst : Operand) (s : State) : Host.Outcome State Fault Refusal :=
  conclude s (multiplyInstr muluOP src dst s)

/-- R181. -/
def execMuls (src dst : Operand) (s : State) : Host.Outcome State Fault Refusal :=
  conclude s (multiplyInstr mulsOP src dst s)

/-- R183. -/
def execDivu (src dst : Operand) (s : State) : Host.Outcome State Fault Refusal :=
  conclude s (divideInstr (divuOP s.params.config.divOvfPolicy) src dst s)

/-- R184. -/
def execDivs (src dst : Operand) (s : State) : Host.Outcome State Fault Refusal :=
  conclude s (divideInstr (divsOP s.params.config.divOvfPolicy) src dst s)

end Sys2Proof.Machine
end

