-- ==== Sys2Proof/Machine/ShiftRotate.lean ====
section
/-! DEFINITION. asl, asr, lsl, lsr, rol, ror (43_shift_rotate). -/

namespace Sys2Proof.Machine

open Sys2Proof (Operand Size)

/-- The shape of all six (R166, R172, R173): the count is read before the destination is written, and a legal memory
form has size w and count 1 (R107). -/
def shiftInstr (op : {w : Nat} → BitVec w → Nat → Ccr → BitVec w × Ccr) (sz : Size) (count dst : Operand) (s : State) :
    Except Event State := do
  legalShift sz count dst
  let x ← readOp dst sz s
  let t ← writeOp dst sz (op x (shiftCount count s) s.ccr).1 s
  .ok (t.setCcr (op x (shiftCount count s) s.ccr).2)

/-- R166. -/
def execAsl (sz : Size) (count dst : Operand) (s : State) : Host.Outcome State Fault Refusal :=
  conclude s (shiftInstr (aslOP s.params.config.aslVRule) sz count dst s)

/-- R167. -/
def execAsr (sz : Size) (count dst : Operand) (s : State) : Host.Outcome State Fault Refusal :=
  conclude s (shiftInstr asrOP sz count dst s)

/-- R168. -/
def execLsl (sz : Size) (count dst : Operand) (s : State) : Host.Outcome State Fault Refusal :=
  conclude s (shiftInstr lslOP sz count dst s)

/-- R169. -/
def execLsr (sz : Size) (count dst : Operand) (s : State) : Host.Outcome State Fault Refusal :=
  conclude s (shiftInstr lsrOP sz count dst s)

/-- R170. -/
def execRol (sz : Size) (count dst : Operand) (s : State) : Host.Outcome State Fault Refusal :=
  conclude s (shiftInstr rolOP sz count dst s)

/-- R171. -/
def execRor (sz : Size) (count dst : Operand) (s : State) : Host.Outcome State Fault Refusal :=
  conclude s (shiftInstr rorOP sz count dst s)

end Sys2Proof.Machine
end

