-- ==== Sys2Proof/Machine/Dispatch.lean ====
section
/-! DEFINITION. One arm per constructor of Instr, each the direct call of its meaning. -/

namespace Sys2Proof.Machine

open Sys2Proof (Instr)

def exec (i : Instr) (s : State) : Host.Outcome State Fault Refusal :=
  match i with
  | .add sz src dst => Sys2Proof.Machine.execAdd sz src dst s
  | .sub sz src dst => Sys2Proof.Machine.execSub sz src dst s
  | .cmp sz src dst => Sys2Proof.Machine.execCmp sz src dst s
  | .neg sz dst => Sys2Proof.Machine.execNeg sz dst s
  | .move sz src dst => Sys2Proof.Machine.execMove sz src dst s
  | .and sz src dst => Sys2Proof.Machine.execAnd sz src dst s
  | .or sz src dst => Sys2Proof.Machine.execOr sz src dst s
  | .eor sz src dst => Sys2Proof.Machine.execEor sz src dst s
  | .not sz dst => Sys2Proof.Machine.execNot sz dst s
  | .clr sz dst => Sys2Proof.Machine.execClr sz dst s
  | .ext sz op => Sys2Proof.Machine.execExt sz op s
  | .swap op => Sys2Proof.Machine.execSwap op s
  | .exg op1 op2 => Sys2Proof.Machine.execExg op1 op2 s
  | .asl sz count dst => Sys2Proof.Machine.execAsl sz count dst s
  | .asr sz count dst => Sys2Proof.Machine.execAsr sz count dst s
  | .lsl sz count dst => Sys2Proof.Machine.execLsl sz count dst s
  | .lsr sz count dst => Sys2Proof.Machine.execLsr sz count dst s
  | .rol sz count dst => Sys2Proof.Machine.execRol sz count dst s
  | .ror sz count dst => Sys2Proof.Machine.execRor sz count dst s
  | .mulu src dst => Sys2Proof.Machine.execMulu src dst s
  | .muls src dst => Sys2Proof.Machine.execMuls src dst s
  | .divu src dst => Sys2Proof.Machine.execDivu src dst s
  | .divs src dst => Sys2Proof.Machine.execDivs src dst s
  | .bra sz target => Sys2Proof.Machine.execBra sz target s
  | .bsr sz target => Sys2Proof.Machine.execBsr sz target s
  | .beq sz target => Sys2Proof.Machine.execBeq sz target s
  | .bne sz target => Sys2Proof.Machine.execBne sz target s
  | .bge sz target => Sys2Proof.Machine.execBge sz target s
  | .bgt sz target => Sys2Proof.Machine.execBgt sz target s
  | .ble sz target => Sys2Proof.Machine.execBle sz target s
  | .blt sz target => Sys2Proof.Machine.execBlt sz target s
  | .jmp target => Sys2Proof.Machine.execJmp target s
  | .jsr target => Sys2Proof.Machine.execJsr target s
  | .rts => Sys2Proof.Machine.execRts s
  | .nonExecutable => Sys2Proof.Machine.execNonExecutable s

end Sys2Proof.Machine
end

