-- ==== Sys2Proof/Machine/Step.lean ====
section
/-! DEFINITION. One call of `step()` (30_encoding R73). A halted step answers the state unchanged (R75); the boolean it
returns is `State.finished` of the state after (R86). -/

namespace Sys2Proof.Machine

open Sys2Proof (Instr)

/-- R73 steps (5) to (7): the cell is decoded and its instruction executed, or its decode stop concluded. -/
def runCell (s : State) (c : InstrCell) : Host.Outcome State Fault Refusal :=
  match decodeCell c with
  | .ok i => exec i s
  | .error e => conclude s (.error (stopEvent e))

def step (s : State) : Host.Outcome State Fault Refusal :=
  match s.beginStep with
  | .stop t => .next t
  | .cell t c => runCell t c

/-- The state whose next step fetches the instruction of a word of the table's numbering (log entry 4): it stands for the
load of a program from outside (R241; log entry 3). -/
def State.withFetchWord (s : State) (nbits w : Nat) : State := s.withCell (cellOfWord nbits w)

end Sys2Proof.Machine
end

