-- ==== Sys2Proof/Machine/HostOps.lean ====
section
/-! DEFINITION. The host's operations on an engine (70_reset section 3) and the loader's displacement rule (R244). No step
calls them; host memory writes are no move of a run (R258, log entry 15). -/

namespace Sys2Proof.Machine

/-- R86, R252: what `step()` returns, evaluated on the state after the step. -/
def State.finished (s : State) : Bool := s.halted

/-- R255, R256: pops the most recent frame and restores its fields; `exc` is not in a frame. A no-op on an empty stack. -/
def State.undoFromStack (s : State) : State :=
  match s.undo.getLast? with
  | none => s
  | some f =>
    { s with
      pc := f.pc, ccr := f.ccr, x := f.x, mem := f.mem, errs := f.errs,
      lastInstr := f.lastInstr, line := f.line, undo := s.undo.dropLast }

/-- R44: the signed value of each slot. -/
def State.getRegisters (s : State) : Vector Int 16 := s.x.map BitVec.toInt

def State.getPC (s : State) : Int := s.pc

/-- R44; the byte map's key set is not modelled (R41, log entry 14). -/
def State.getMemory (s : State) : Memory := s.mem

/-- R38. -/
def State.getLastInstruction (s : State) : Option Text × Option Int := (s.lastInstr, s.line)

def State.getErrors (s : State) : List ErrorRecord := s.errs

def State.getException (s : State) : Option FatalKind := s.exc

/-- R48. -/
def isValidAddress (a : Int) : Bool := valid a 1

/-- R49 to R51, R55: `n` is 1, 2 or 4; none at an address that is not valid (R237, log entry 15). -/
def State.hostGet (s : State) (a : Int) (n : Nat) : Option Nat :=
  if valid a n then some (Memory.read s.mem a.toNat n) else none

/-- R52 to R55, R258: the low `n` bytes of an integer; nothing is written at an address that is not valid (R237, log
entry 15). No undo frame is pushed. -/
def State.hostSet (s : State) (a : Int) (n : Nat) (v : Int) : State :=
  if valid a n then s.setMem (Memory.write s.mem a.toNat n (v % 256 ^ n).toNat) else s

/-- `setMemory`, which R258 only names. DESIGN CHOICE (log entry 15): it replaces the whole memory by the listed bytes,
drops a byte outside the address space, and keeps the later of two bytes for one address. -/
def State.setMemory (s : State) (bytes : List Host.Cell) : State :=
  s.setMem ((bytes.filter fun c => decide (c.1 ≤ Config.maxAddress)).foldl (fun m c => Memory.setByte m c.1 c.2) [])

/-- R250: reset is a new construction with the same launch parameters. -/
def State.hostReset (s : State) : State := State.launch s.params

/-- R244: what the loader writes for the label at index `label` in a control-flow cell at index `cell`. -/
def labelDisplacement (label cell : Nat) : Int := 4 * ((label : Int) - (cell : Int))

end Sys2Proof.Machine
end

