-- ==== Sys2Proof/Safety.lean ====
section
/-! DEFINITION. The terms claims are stated in: the invariant, frames, legal forms, flags and runs. -/

namespace Sys2Proof.Machine

open Sys2Proof (Operand Size Instr)

/-! ### The invariant -/

/-- A frame's memory is canonical and in the address space, and its pc is one a step with a frame starts at: not 0, a
multiple of 4, within the instruction table (R77, R78, R257; not 0 by decision D38, log entry 6; the canonical form is the
model's, log entry 14). -/
def Frame.Inv (n : Nat) (f : Frame) : Prop :=
  Memory.wf f.mem = true ∧ Memory.inSpace f.mem = true ∧
    0 < f.pc ∧ f.pc % 4 = 0 ∧ f.pc < 4 * (n : Int) ∧ f.lastInstr.isSome = f.line.isSome

/-- The invariant every step keeps: memory is canonical and within 0..0x7FFFFFFF (R34, R46), the last cell's text and line
are both there or both absent (R38), and every undo frame is one a step pushed (R78). -/
def State.Inv (s : State) : Prop :=
  Memory.wf s.mem = true ∧ Memory.inSpace s.mem = true ∧ s.lastInstr.isSome = s.line.isSome ∧
    ∀ f ∈ s.undo, Frame.Inv s.params.program.length f

/-! ### Frames -/

/-- Everything but registers, pc, ccr and memory is as before: no event was recorded, and the fetch's bookkeeping, the
undo stack and the parameters are untouched. -/
def SameRecords (s t : State) : Prop :=
  t.exc = s.exc ∧ t.errs = s.errs ∧ t.lastInstr = s.lastInstr ∧ t.line = s.line ∧ t.undo = s.undo ∧ t.params = s.params

/-- Every byte outside the `n` bytes from address `a` on is as before. -/
def SameBytesOutside (a n : Nat) (s t : State) : Prop :=
  ∀ b, b < a ∨ a + n ≤ b → Memory.getByte t.mem b = Memory.getByte s.mem b

/-- What an instruction with destination `dst` of size `sz` leaves as before: the registers that are not the destination,
the destination register's bits above the size (R25), every byte of memory outside the destination's, the pc, and the
records. A register destination has no effective address, so then every byte is as before. -/
def DataFrame (sz : Size) (dst : Operand) (s t : State) : Prop :=
  (∀ i, slotOf dst ≠ some i → t.reg i = s.reg i) ∧
  (∀ i, slotOf dst = some i → t.reg i >>> sz.bits = s.reg i >>> sz.bits) ∧
  (∀ b, (∀ a, effectiveAddress dst s = some a → b < a.toNat ∨ a.toNat + sz.bytes ≤ b) →
    Memory.getByte t.mem b = Memory.getByte s.mem b) ∧
  t.pc = s.pc ∧ SameRecords s t

/-- The state in which an instruction started in `s` recorded the non-fatal error `k` and did nothing else (R216, R218). -/
def errorState (s : State) (k : NonFatalKind) : State := { s with errs := s.errs ++ [⟨k, s.line⟩] }

/-! ### Flags -/

/-- The flags of R122 on the result `r`. -/
def LogicalFlags {w : Nat} (r : BitVec w) (old new : Ccr) : Prop :=
  new.c = false ∧ new.v = false ∧ new.z = decide (r = 0) ∧ new.n = r.getLsbD (w - 1) ∧ new.x = old.x

/-- The flags of R125 on the result `r` of a shift or rotate by `c` whose last bit moved out is `out`: C and X keep their
values at count 0. -/
def ShiftFlags {w : Nat} (r : BitVec w) (c : Nat) (out : Bool) (old new : Ccr) : Prop :=
  new.z = decide (r = 0) ∧ new.n = r.getLsbD (w - 1) ∧
  (c = 0 → new.c = old.c ∧ new.x = old.x) ∧ (1 ≤ c → new.c = out ∧ new.x = out)

/-! ### Legal forms -/

/-- The forms of a shift or rotate R107 calls legal. -/
def ShiftForm (sz : Size) (count dst : Operand) : Prop :=
  (∃ n, dst = .dataRegister n ∧
    ((∃ c, count = .immediate c ∧ 0 ≤ c ∧ c ≤ 8) ∨ ∃ k, count = .dataRegister k)) ∨
  (isMem dst = true ∧ count = .immediate 1 ∧ sz = .w)

/-- `Count(count)` of R172 is `c`. -/
def CountIs (count : Operand) (s : State) (c : Nat) : Prop :=
  count = .immediate (c : Int) ∨ ∃ k, count = .dataRegister k ∧ c = (s.reg (dataSlot k)).toNat % 64

/-- The displacement fits the branch's size (R191). -/
def DisplacementFits (sz : Size) (d : Int) : Prop := -2 ^ (sz.bits - 1) ≤ d ∧ d < 2 ^ (sz.bits - 1)

/-- What a branch with displacement `d` does under the condition `cond` (R192): the condition comes before the range. -/
def BranchRule (i : Instr) (sz : Size) (d : Int) (s : State) (cond : Prop) : Prop :=
  (cond → DisplacementFits sz d → exec i s = .next { s with pc := s.pc + d }) ∧
  (cond → ¬ DisplacementFits sz d → exec i s = .next (errorState s .offsetTooLong)) ∧
  (¬ cond → exec i s = .next s)

/-- `DivOverflow(unsigned, a, b)` of R182. -/
def DivuOverflows (policy : DivOvfPolicy) (a b : Nat) : Prop :=
  (policy = .prose ∧ b ≥ a) ∨ (policy = .codeAsEvaluated ∧ a % 65536 = 0) ∨ (policy = .mc68000 ∧ a / b > 65535)

/-- `DivOverflow(signed, a, b)` of R182, the quotient truncated toward zero. -/
def DivsOverflows (policy : DivOvfPolicy) (a b : Int) : Prop :=
  (policy = .prose ∧ |b| ≥ a) ∨ (policy = .codeAsEvaluated ∧ a % 65536 = 0) ∨
    (policy = .mc68000 ∧ (a.tdiv b < -32768 ∨ a.tdiv b > 32767))

/-- The control-flow mnemonics (45_control_flow). -/
def isControlFlow : Instr → Bool
  | .bra .. | .bsr .. | .beq .. | .bne .. | .bge .. | .bgt .. | .ble .. | .blt .. | .jmp .. | .jsr .. | .rts => true
  | .add .. | .sub .. | .cmp .. | .neg .. | .move .. | .and .. | .or .. | .eor .. | .not .. | .clr .. => false
  | .ext .. | .swap .. | .exg .. | .asl .. | .asr .. | .lsl .. | .lsr .. | .rol .. | .ror .. => false
  | .mulu .. | .muls .. | .divu .. | .divs .. | .nonExecutable => false

/-- The instructions that write the Extend bit (R28, R113). -/
def writesExtend : Instr → Bool
  | .add .. | .sub .. | .neg .. | .asl .. | .asr .. | .lsl .. | .lsr .. | .rol .. | .ror .. => true
  | .cmp .. | .move .. | .and .. | .or .. | .eor .. | .not .. | .clr .. | .ext .. | .swap .. | .exg .. => false
  | .mulu .. | .muls .. | .divu .. | .divs .. | .nonExecutable => false
  | .bra .. | .bsr .. | .beq .. | .bne .. | .bge .. | .bgt .. | .ble .. | .blt .. | .jmp .. | .jsr .. | .rts => false

/-- The slots an instruction may write (R23). -/
def writtenSlots : Instr → List (Fin 16)
  | .add _ _ d | .sub _ _ d | .neg _ d | .move _ _ d | .and _ _ d | .or _ _ d | .eor _ _ d | .not _ d | .clr _ d => (slotOf d).toList
  | .ext _ d | .swap d => (slotOf d).toList
  | .asl _ _ d | .asr _ _ d | .lsl _ _ d | .lsr _ _ d | .rol _ _ d | .ror _ _ d => (slotOf d).toList
  | .mulu _ d | .muls _ d | .divu _ d | .divs _ d => (slotOf d).toList
  | .exg a b => (slotOf a).toList ++ (slotOf b).toList
  | .bsr _ _ | .jsr _ | .rts => [spSlot]
  | .cmp .. | .bra .. | .beq .. | .bne .. | .bge .. | .bgt .. | .ble .. | .blt .. | .jmp .. | .nonExecutable => []

/-- The state after a call from `s` by displacement `d` (R194, R202): a7 incremented by 4, `pc_adv` stored there as a long,
the pc moved; every other register and byte, the flags and the records as before. -/
def Called (d : Int) (s t : State) : Prop :=
  t.reg spSlot = s.reg spSlot + 4 ∧ (∀ i, i ≠ spSlot → t.reg i = s.reg i) ∧
  (Memory.read t.mem (s.reg spSlot + 4).toNat 4 : Int) = s.pc % 2 ^ 32 ∧
  SameBytesOutside (s.reg spSlot + 4).toNat 4 s t ∧
  t.pc = s.pc + d ∧ t.ccr = s.ccr ∧ SameRecords s t

/-- The state after a return from `s` (R203): the pc is the unsigned long at a7, a7 is decremented by 4; nothing else
changes. -/
def Returned (s t : State) : Prop :=
  t.pc = (Memory.read s.mem (s.reg spSlot).toNat 4 : Int) ∧ t.reg spSlot = s.reg spSlot - 4 ∧
  (∀ i, i ≠ spSlot → t.reg i = s.reg i) ∧ t.mem = s.mem ∧ t.ccr = s.ccr ∧ SameRecords s t

/-! ### Steps and runs -/

/-- The next step executes the cell `c`: no fatal exception, the pc a non-negative multiple of 4 below `4N`, and `c` the
cell there (R75, R77, R79). -/
def Ready (s : State) (c : InstrCell) : Prop :=
  s.exc = none ∧ 0 ≤ s.pc ∧ s.pc % 4 = 0 ∧ s.params.program[(s.pc / 4).toNat]? = some c

/-- The state the cell is executed in (R78, R79): the frame pushed unless pc is 0, the cell named, pc advanced by 4. -/
def fetchedState (s : State) (c : InstrCell) : State :=
  { s with
    undo := if s.pc = 0 then s.undo
      else s.undo ++ [⟨s.pc, s.ccr, s.lastInstr, s.line, s.x, s.mem, s.errs⟩]
    lastInstr := some c.text
    line := some c.line
    pc := s.pc + 4 }

/-- `n` steps from `s` to `t`, each of which executes a cell and pushes a frame (R265). -/
def PushingRun : Nat → State → State → Prop
  | 0, s, t => t = s
  | n + 1, s, t => s.pc ≠ 0 ∧ (∃ c, Ready s c) ∧ ∃ u, step s = .next u ∧ PushingRun n u t

/-- `n` undos. -/
def undoTimes : Nat → State → State
  | 0, s => s
  | n + 1, s => undoTimes n s.undoFromStack

/-- The fields an undo restores agree, the undo stack among them (R255). -/
def SameUndoFields (s t : State) : Prop :=
  t.pc = s.pc ∧ t.ccr = s.ccr ∧ t.x = s.x ∧ t.mem = s.mem ∧ t.errs = s.errs ∧
    t.lastInstr = s.lastInstr ∧ t.line = s.line ∧ t.undo = s.undo

end Sys2Proof.Machine
end

