-- ==== Sys2Proof/Certificates/Slice0/Obligations.lean ====
section
/-! DEFINITION. The statements about the machine, from the spec's numbered rules. Each docstring names the rule or the
section it formalises. Many rules rest on decisions the spec marks as its own (D<n> of 92_eei_decisions, log entry 6) or on
general knowledge (G<n>, log entry 7); a statement that rests on one says so. -/

open Sys2Proof Sys2Proof.Machine

/-! ### Launch, invariant, parameters -/

/-- R40, R241: the state at launch, for every choice of the launch parameters. The zero pc and ccr and the empty errs,
lastInstr and line are the spec's decisions D3, D4, D45, D50 (log entry 5). -/
def Obligations.LaunchValues : Prop :=
  (∀ p : Params,
    (∀ i, (State.launch p).reg i = 0) ∧ (State.launch p).pc = 0 ∧ (State.launch p).ccr = 0 ∧
    (State.launch p).mem = p.initMem ∧ (State.launch p).exc = p.initExc ∧ (State.launch p).errs = [] ∧
    (State.launch p).lastInstr = none ∧ (State.launch p).line = none ∧ (State.launch p).undo = [] ∧
    (State.launch p).params = p) ∧
  State.reset = State.launch ⟨[], [], none, ⟨.prose, .beforeAfter⟩⟩ ∧
  ∀ a, Memory.getByte State.reset.mem a = 0

/-- The invariant holds at launch with a canonical initial memory, and at reset (10_state, 20_memory). -/
def Obligations.LaunchMeetsInvariant : Prop :=
  (∀ p : Params, Memory.wf p.initMem = true → Memory.inSpace p.initMem = true → (State.launch p).Inv) ∧ State.reset.Inv

/-- Every step keeps the invariant, and so does the host's undo (R255): memory inside 0..0x7FFFFFFF (R34, R46, R56) and in
the model's canonical form (log entry 14, the model's choice), every undo frame one whose pc a step started at (R77), which
is positive by decision D38 (R78, log entry 6). -/
def Obligations.StepKeepsInvariant : Prop :=
  (∀ s t : State, s.Inv → step s = .next t → t.Inv) ∧ ∀ s : State, s.Inv → s.undoFromStack.Inv

/-- The instruction table and the other launch parameters are never written by a step or an undo (R35, R69). -/
def Obligations.ProgramIsNeverWritten : Prop :=
  (∀ s t : State, step s = .next t → t.params = s.params) ∧ ∀ s : State, s.undoFromStack.params = s.params

/-! ### The step -/

/-- R75. -/
def Obligations.HaltedStepChangesNothing : Prop :=
  ∀ s : State, s.exc ≠ none ∨ s.pc ≥ (s.params.program.length : Int) * 4 → step s = .next s ∧ s.finished = true

/-- R77, R215, R220: a misaligned or negative pc below the table's end sets the fatal exception and nothing else. -/
def Obligations.BadPcRaisesInvalidPC : Prop :=
  ∀ s : State, s.exc = none → s.pc < 4 * (s.params.program.length : Int) → (s.pc < 0 ∨ s.pc % 4 ≠ 0) →
    step s = .next { s with exc := some .invalidPC } ∧ ({ s with exc := some .invalidPC } : State).finished = true

/-- R80: a non-executable slot changes no register, flag, byte or error; the pc is `pc_adv` and the frame stays pushed, where
one was: none is at pc 0 (R78, decision D38, log entry 6). -/
def Obligations.NonExecutableSlotIsNoOp : Prop :=
  (∀ s : State, exec .nonExecutable s = .next s) ∧
  ∀ (s : State) (c : InstrCell), Ready s c → c.nonExec = true →
    ∃ t, step s = .next t ∧ t.x = s.x ∧ t.ccr = s.ccr ∧ t.mem = s.mem ∧ t.errs = s.errs ∧ t.pc = s.pc + 4 ∧
      (s.pc ≠ 0 → t.undo = s.undo ++ [⟨s.pc, s.ccr, s.lastInstr, s.line, s.x, s.mem, s.errs⟩])

/-- R73, R78, R79: a step from a ready state executes the decoded instruction in the state with the frame pushed, the
cell named and the pc advanced. No frame at pc 0 is decision D38, the last text and line set for every cell D40 (log
entry 6). -/
def Obligations.StepRunsDecodedInstruction : Prop :=
  ∀ (s : State) (c : InstrCell) (i : Instr), Ready s c → decodeCell c = .ok i → step s = exec i (fetchedState s c)

/-- R73, R74, R216, R218: a decode error is recorded with the cell's line and the cell skipped; a decode refusal refuses
the step. No frame at pc 0 is decision D38, the last text and line set for every cell D40, the record of kind and line D45
(log entry 6). -/
def Obligations.StepStopsOnUndecodableCell : Prop :=
  ∀ (s : State) (c : InstrCell), Ready s c →
    (∀ k, decodeCell c = .error (.error k) →
      step s = .next { fetchedState s c with errs := s.errs ++ [⟨k, some c.line⟩] }) ∧
    (∀ r, decodeCell c = .error (.refuse r) → step s = .refused (refusalOf r))

/-- R224: one step records at most one event. -/
def Obligations.OneEventPerStep : Prop :=
  ∀ s t : State, step s = .next t →
    (t.errs = s.errs ∧ t.exc = s.exc) ∨
    (∃ k l, t.errs = s.errs ++ [⟨k, l⟩] ∧ t.exc = s.exc) ∨
    (t.errs = s.errs ∧ s.exc = none ∧ ∃ k, t.exc = some k)

/-! ### Decoding -/

/-- Texts of the spec and what they decode to (95_test_vectors, 30_encoding), one or more of each family. They rest on
decisions D2 (unknown mnemonic), D11 (letter case), D13 (suffixes), D14 (order of checks), D23 (sizes of ext), D33
(one-operand shift) and D41 (register names and spellings), log entry 6. -/
def Obligations.KnownTextsDecode : Prop :=
  decodeText "ADD.L D0,D1".toList = .ok (.add .l (.dataRegister 0) (.dataRegister 1)) ∧
  decodeText "cmp.w #2,d0".toList = .ok (.cmp .w (.immediate 2) (.dataRegister 0)) ∧
  decodeText "move.l #$01020304,$FFF(a0)".toList = .ok (.move .l (.immediate 0x01020304) (.offsetAddress 0xFFF 0)) ∧
  decodeText "move.l #8,sp".toList = .ok (.move .l (.immediate 8) (.addressRegister 7)) ∧
  decodeText "asl.w #1,$100".toList = .ok (.asl .w (.immediate 1) (.absoluteOffset 0x100)) ∧
  decodeText "divu #3,d0".toList = .ok (.divu (.immediate 3) (.dataRegister 0)) ∧
  decodeText "bne -12".toList = .ok (.bne .w (.absoluteOffset (-12))) ∧
  decodeText "rts".toList = .ok .rts ∧
  decodeText "add.x d0,d1".toList = .error (.error .invalidSize) ∧
  decodeText "add.l d9".toList = .error (.error .wrongArity) ∧
  decodeText "move.l 4(a9),d0".toList = .error (.error .invalidRegister) ∧
  decodeText "lea 4(a0),a1".toList = .error (.refuse .unknownMnemonic) ∧
  decodeText "ext.b d0".toList = .error (.refuse .sizeNotShown) ∧
  decodeText "move.l (a0),d0".toList = .error (.refuse .operandForm) ∧
  decodeText "lsl.w $100".toList = .error (.refuse .formNotShown)

/-- Decoding the encoding of a well-formed instruction gives it back, every operand at every value (30_encoding sections 1
and 3; the encoder's spelling is the model's, log entry 16). -/
def Obligations.DecodeOfEncodeIsTheInstruction : Prop :=
  ∀ (i : Instr) (line : Int), i.wf = true → decodeCell (encode i line) = .ok i

/-- R110, R99(c) (decisions D13, D22, D23, D37, log entry 6): what decodes is well formed; the sizes a mnemonic does not
take, row by row; and a suffix b, w or l that the mnemonic does not take refuses the step whatever the operands, so no such
size reaches a meaning and none is dropped. -/
def Obligations.DecodedInstructionsAreWellFormed : Prop :=
  (∀ (c : InstrCell) (i : Instr), decodeCell c = .ok i → i.wf = true) ∧
  (∀ (m : Mnemonic) (sz : Size), m.takesSize sz = false ↔
    (m = .ext ∧ sz = .b) ∨ (m ∈ [.swap, .mulu, .muls, .divu, .divs] ∧ sz ≠ .w) ∨ (m = .exg ∧ sz ≠ .l) ∨
      m ∈ [.jmp, .jsr, .rts]) ∧
  ∀ (s : State) (c : InstrCell) (m : Mnemonic) (sz : Size) (base suffix field : Text), Ready s c → c.nonExec = false →
    c.text = base ++ '.' :: (suffix ++ field) → lower base = m.text →
    (field = [] ∨ ∃ ch r, field = ch :: r ∧ isSpace ch = true) →
    (sz = .b ∧ lower suffix = ['b'] ∨ sz = .w ∧ lower suffix = ['w'] ∨ sz = .l ∧ lower suffix = ['l']) →
    m.takesSize sz = false → step s = .refused .sizeNotShown

/-- R72, R91 (decision D11, log entry 6): letters are matched without regard to case. -/
def Obligations.DecodingIgnoresLetterCase : Prop := ∀ t : Text, decodeText (lower t) = decodeText t

/-- R84, R99(a) (decision D2, log entry 6): a base mnemonic outside the 34 is refused whatever follows it. -/
def Obligations.UnknownMnemonicIsRefused : Prop :=
  ∀ (s : State) (c : InstrCell) (base rest : Text), Ready s c → c.nonExec = false → c.text = base ++ rest →
    (∀ ch ∈ base, ch ≠ '.' ∧ isSpace ch = false) →
    (rest = [] ∨ ∃ ch r, rest = ch :: r ∧ (ch = '.' ∨ isSpace ch = true)) →
    (∀ m : Mnemonic, m.text ≠ lower base) → step s = .refused .unknownMnemonic

/-- R82, R99(b) (decision D13, log entry 6): a suffix other than b, w, l records InvalidSize whatever the operands. That a
dot with nothing after it is such a suffix is the model's reading (log entry 9). -/
def Obligations.InvalidSuffixIsRecorded : Prop :=
  ∀ (s : State) (c : InstrCell) (m : Mnemonic) (base suffix field : Text), Ready s c → c.nonExec = false →
    c.text = base ++ '.' :: (suffix ++ field) → lower base = m.text →
    (∀ ch ∈ suffix, isSpace ch = false) → (field = [] ∨ ∃ ch r, field = ch :: r ∧ isSpace ch = true) →
    lower suffix ≠ ['b'] → lower suffix ≠ ['w'] → lower suffix ≠ ['l'] →
    step s = .next (errorState (fetchedState s c) .invalidSize)

/-! ### Memory and registers -/

/-- R50, R51, R53, R54: words and longs are composed and stored byte by byte, the most significant byte first. -/
def Obligations.BigEndianComposition : Prop :=
  ∀ (m : Memory) (a : Nat), Memory.wf m = true →
    Memory.read m a 2 = (Memory.getByte m a).toNat * 2 ^ 8 + (Memory.getByte m (a + 1)).toNat ∧
    Memory.read m a 4 = (Memory.getByte m a).toNat * 2 ^ 24 + (Memory.getByte m (a + 1)).toNat * 2 ^ 16 +
      (Memory.getByte m (a + 2)).toNat * 2 ^ 8 + (Memory.getByte m (a + 3)).toNat ∧
    (∀ v : Nat, Memory.getByte (Memory.write m a 2 v) a = (BitVec.ofNat 16 v).extractLsb' 8 8 ∧
      Memory.getByte (Memory.write m a 2 v) (a + 1) = (BitVec.ofNat 16 v).extractLsb' 0 8) ∧
    (∀ v : Nat, Memory.getByte (Memory.write m a 4 v) a = (BitVec.ofNat 32 v).extractLsb' 24 8 ∧
      Memory.getByte (Memory.write m a 4 v) (a + 1) = (BitVec.ofNat 32 v).extractLsb' 16 8 ∧
      Memory.getByte (Memory.write m a 4 v) (a + 2) = (BitVec.ofNat 32 v).extractLsb' 8 8 ∧
      Memory.getByte (Memory.write m a 4 v) (a + 3) = (BitVec.ofNat 32 v).extractLsb' 0 8)

/-- R25: a write of a size replaces the low bits of the slot and no other bit of any slot; a read gives the low bits. -/
def Obligations.RegisterWritesArePartial : Prop :=
  ∀ (s : State) (i : Fin 16) (sz : Size) (v : BitVec sz.bits),
    (∀ b, b < 32 → ((s.writeReg i v).reg i).getLsbD b = if b < sz.bits then v.getLsbD b else (s.reg i).getLsbD b) ∧
    (∀ j, j ≠ i → (s.writeReg i v).reg j = s.reg j) ∧
    (∀ b, b < sz.bits → (s.readReg i sz.bits).getLsbD b = (s.reg i).getLsbD b)

/-- R52 to R55, R258 (20_memory section 2): what the host sets at a valid address it gets back, its low bytes; every other
byte stays. -/
def Obligations.HostSetThenGet : Prop :=
  ∀ (s : State) (a : Int) (n : Nat) (v : Int), (n = 1 ∨ n = 2 ∨ n = 4) → valid a n = true → Memory.wf s.mem = true →
    (s.hostSet a n v).hostGet a n = some (v % 256 ^ n).toNat ∧ SameBytesOutside a.toNat n s (s.hostSet a n v)

/-! ### Arithmetic (41_arithmetic) -/

/-- add (R116 with decision D7, log entry 6): the sum modulo the size, C = X the carry out, Z and N from the result. -/
def Obligations.AddResult : Prop :=
  ∀ (sz : Size) (src dst : Operand) (s : State), Memory.wf s.mem = true →
    isImmediate dst = false → ¬ (isMem src = true ∧ isMem dst = true) →
    accessible src sz s = true → accessible dst sz s = true →
    ∃ t, exec (.add sz src dst) s = .next t ∧
      (operandValue dst sz t).toNat = ((operandValue dst sz s).toNat + (operandValue src sz s).toNat) % 2 ^ sz.bits ∧
      t.ccr.c = decide ((operandValue dst sz s).toNat + (operandValue src sz s).toNat > 2 ^ sz.bits - 1) ∧
      t.ccr.x = t.ccr.c ∧ t.ccr.z = decide (operandValue dst sz t = 0) ∧
      t.ccr.n = (operandValue dst sz t).getLsbD (sz.bits - 1)

/-- sub (R118 with decision D7, log entry 6): destination minus source modulo the size, C = X the borrow, Z and N from the
result. -/
def Obligations.SubResult : Prop :=
  ∀ (sz : Size) (src dst : Operand) (s : State), Memory.wf s.mem = true →
    isImmediate dst = false → ¬ (isMem src = true ∧ isMem dst = true) →
    accessible src sz s = true → accessible dst sz s = true →
    ∃ t, exec (.sub sz src dst) s = .next t ∧
      ((operandValue dst sz t).toNat : Int) =
        (((operandValue dst sz s).toNat : Int) - ((operandValue src sz s).toNat : Int)) % 2 ^ sz.bits ∧
      t.ccr.c = decide ((operandValue dst sz s).toNat < (operandValue src sz s).toNat) ∧
      t.ccr.x = t.ccr.c ∧ t.ccr.z = decide (operandValue dst sz t = 0) ∧
      t.ccr.n = (operandValue dst sz t).getLsbD (sz.bits - 1)

/-- R117, R119: the overflow flag of every add and sub that writes its result. -/
def Obligations.AddAndSubtractOverflow : Prop :=
  ∀ (sz : Size) (src dst : Operand) (s t : State), Memory.wf s.mem = true → t.errs = s.errs →
    (exec (.add sz src dst) s = .next t →
      (t.ccr.v = true ↔
        ((operandValue src sz s).getLsbD (sz.bits - 1) = false ∧ (operandValue dst sz s).getLsbD (sz.bits - 1) = false ∧
          (operandValue dst sz t).getLsbD (sz.bits - 1) = true) ∨
        ((operandValue src sz s).getLsbD (sz.bits - 1) = true ∧ (operandValue dst sz s).getLsbD (sz.bits - 1) = true ∧
          (operandValue dst sz t).getLsbD (sz.bits - 1) = false))) ∧
    (exec (.sub sz src dst) s = .next t →
      (t.ccr.v = true ↔
        (operandValue dst sz s).getLsbD (sz.bits - 1) = true ∧ (operandValue src sz s).getLsbD (sz.bits - 1) = false ∧
          (operandValue dst sz t).getLsbD (sz.bits - 1) = false))

/-- cmp (R120, 41_arithmetic): any operands but an immediate destination, memory to memory too (decision D19, log entry 6);
only N, Z, V, C change, as for destination minus source. -/
def Obligations.CmpResult : Prop :=
  ∀ (sz : Size) (src dst : Operand) (s : State),
    isImmediate dst = false → accessible src sz s = true → accessible dst sz s = true →
    ∃ f : Ccr, exec (.cmp sz src dst) s = .next { s with ccr := f } ∧ f.x = s.ccr.x ∧
      f.c = decide ((operandValue dst sz s).toNat < (operandValue src sz s).toNat) ∧
      f.z = decide (operandValue dst sz s = operandValue src sz s) ∧
      f.n = (operandValue dst sz s - operandValue src sz s).getLsbD (sz.bits - 1) ∧
      f.v = ((operandValue dst sz s).getLsbD (sz.bits - 1) && !(operandValue src sz s).getLsbD (sz.bits - 1) &&
        !(operandValue dst sz s - operandValue src sz s).getLsbD (sz.bits - 1))

/-- neg (R121 with decision D20, log entry 6): the two's complement, C = X = (operand ≠ 0), V always 0. -/
def Obligations.NegResult : Prop :=
  ∀ (sz : Size) (dst : Operand) (s : State), Memory.wf s.mem = true →
    isImmediate dst = false → isAddressRegister dst = false → accessible dst sz s = true →
    ∃ t, exec (.neg sz dst) s = .next t ∧
      (operandValue dst sz t).toNat = (2 ^ sz.bits - (operandValue dst sz s).toNat) % 2 ^ sz.bits ∧
      t.ccr.c = decide (operandValue dst sz s ≠ 0) ∧ t.ccr.x = t.ccr.c ∧ t.ccr.v = false ∧
      t.ccr.z = decide (operandValue dst sz t = 0) ∧ t.ccr.n = (operandValue dst sz t).getLsbD (sz.bits - 1)

/-- The frame of add, sub and neg (all flags may change), and of cmp (only flags change, X not) (R25, R28, R100). -/
def Obligations.ArithmeticFrame : Prop :=
  ∀ (sz : Size) (src dst : Operand) (s t : State),
    (exec (.add sz src dst) s = .next t ∨ exec (.sub sz src dst) s = .next t ∨ exec (.neg sz dst) s = .next t →
      (∃ k, t = errorState s k) ∨ DataFrame sz dst s t) ∧
    (exec (.cmp sz src dst) s = .next t →
      (∃ k, t = errorState s k) ∨ (t = { s with ccr := t.ccr } ∧ t.ccr.x = s.ccr.x))

/-! ### Move and logical (42_move_logical) -/

/-- move (R151): the destination reads as the source did, memory to memory too. -/
def Obligations.MoveResult : Prop :=
  ∀ (sz : Size) (src dst : Operand) (s : State), Memory.wf s.mem = true →
    isImmediate dst = false → accessible src sz s = true → accessible dst sz s = true →
    ∃ t, exec (.move sz src dst) s = .next t ∧ operandValue dst sz t = operandValue src sz s

/-- and, or, eor (R123, general knowledge G11, log entry 7): bit by bit. -/
def Obligations.LogicalResults : Prop :=
  ∀ (sz : Size) (src dst : Operand) (s : State), Memory.wf s.mem = true →
    isImmediate dst = false → ¬ (isMem src = true ∧ isMem dst = true) →
    accessible src sz s = true → accessible dst sz s = true →
    (∃ t, exec (.and sz src dst) s = .next t ∧ ∀ b, b < sz.bits → (operandValue dst sz t).getLsbD b =
      ((operandValue dst sz s).getLsbD b && (operandValue src sz s).getLsbD b)) ∧
    (∃ t, exec (.or sz src dst) s = .next t ∧ ∀ b, b < sz.bits → (operandValue dst sz t).getLsbD b =
      ((operandValue dst sz s).getLsbD b || (operandValue src sz s).getLsbD b)) ∧
    (∃ t, exec (.eor sz src dst) s = .next t ∧ ∀ b, b < sz.bits → (operandValue dst sz t).getLsbD b =
      ((operandValue dst sz s).getLsbD b != (operandValue src sz s).getLsbD b))

/-- not, clr (R123, R124, general knowledge G11, log entry 7): every bit inverted; zero. -/
def Obligations.NotAndClrResults : Prop :=
  ∀ (sz : Size) (dst : Operand) (s : State), Memory.wf s.mem = true →
    isImmediate dst = false → isAddressRegister dst = false → accessible dst sz s = true →
    (∃ t, exec (.not sz dst) s = .next t ∧
      (operandValue dst sz t).toNat = 2 ^ sz.bits - 1 - (operandValue dst sz s).toNat) ∧
    (∃ t, exec (.clr sz dst) s = .next t ∧ (operandValue dst sz t).toNat = 0)

/-- R122: the flags after every move, not, and, or, eor, clr, ext that writes its result, and the moved value. -/
def Obligations.MoveAndLogicalFlags : Prop :=
  ∀ (sz : Size) (src dst : Operand) (s t : State), Memory.wf s.mem = true → t.errs = s.errs →
    (exec (.move sz src dst) s = .next t → operandValue dst sz t = operandValue src sz s) ∧
    (exec (.move sz src dst) s = .next t ∨ exec (.not sz dst) s = .next t ∨ exec (.and sz src dst) s = .next t ∨
        exec (.or sz src dst) s = .next t ∨ exec (.eor sz src dst) s = .next t ∨ exec (.clr sz dst) s = .next t ∨
        exec (.ext sz dst) s = .next t →
      LogicalFlags (operandValue dst sz t) s.ccr t.ccr)

/-- The frame of move, and, or, eor, not, clr (R25, R28, R100): X is kept as well. -/
def Obligations.MoveAndLogicalFrame : Prop :=
  ∀ (sz : Size) (src dst : Operand) (s t : State),
    exec (.move sz src dst) s = .next t ∨ exec (.and sz src dst) s = .next t ∨ exec (.or sz src dst) s = .next t ∨
      exec (.eor sz src dst) s = .next t ∨ exec (.not sz dst) s = .next t ∨ exec (.clr sz dst) s = .next t →
    (∃ k, t = errorState s k) ∨ (DataFrame sz dst s t ∧ t.ccr.x = s.ccr.x)

/-- ext (R157, general knowledge G11, log entry 7): the byte sign-extended to a word, the word to a long, with its frame; at
size b, which no text gives it (R110), the model refuses whatever the operand (log entry 17). -/
def Obligations.ExtResult : Prop :=
  ∀ (n : Fin 8) (s : State),
    (∃ t, exec (.ext .w (.dataRegister n)) s = .next t ∧
      (t.readReg (dataSlot n) 16).toInt = (s.readReg (dataSlot n) 8).toInt ∧
      DataFrame .w (.dataRegister n) s t ∧ LogicalFlags (t.readReg (dataSlot n) 16) s.ccr t.ccr) ∧
    (∃ t, exec (.ext .l (.dataRegister n)) s = .next t ∧
      (t.reg (dataSlot n)).toInt = (s.readReg (dataSlot n) 16).toInt ∧
      DataFrame .l (.dataRegister n) s t ∧ LogicalFlags (t.reg (dataSlot n)) s.ccr t.ccr) ∧
    ∀ op, exec (.ext .b op) s = .refused .sizeNotShown

/-- swap (R124, R158): the halves exchanged (general knowledge G11, log entry 7), N and Z from the long (decision D21, log
entry 6), with its frame. -/
def Obligations.SwapResult : Prop :=
  ∀ (n : Fin 8) (s : State),
    ∃ t, exec (.swap (.dataRegister n)) s = .next t ∧
      (t.reg (dataSlot n)).toNat =
        ((s.reg (dataSlot n)).toNat % 65536) * 65536 + (s.reg (dataSlot n)).toNat / 65536 ∧
      DataFrame .l (.dataRegister n) s t ∧ LogicalFlags (t.reg (dataSlot n)) s.ccr t.ccr

/-- exg (R159): two slots exchanged as 32-bit values (general knowledge G11, log entry 7), the same slot twice included;
nothing else changes (decision D22, log entry 6). -/
def Obligations.ExgResult : Prop :=
  ∀ (op1 op2 : Operand) (i j : Fin 16) (s : State), slotOf op1 = some i → slotOf op2 = some j →
    ∃ t, exec (.exg op1 op2) s = .next t ∧ t.reg i = s.reg j ∧ t.reg j = s.reg i ∧
      (∀ k, k ≠ i → k ≠ j → t.reg k = s.reg k) ∧
      t.pc = s.pc ∧ t.ccr = s.ccr ∧ t.mem = s.mem ∧ SameRecords s t

/-! ### Shifts and rotates (43_shift_rotate) -/

/-- lsl, asl (R126, R128, R172 with decision D28, log entries 6 and 7): the value times 2^c modulo the size; the last bit out
of the top; V is 0 for lsl. -/
def Obligations.LeftShiftResults : Prop :=
  ∀ (sz : Size) (count dst : Operand) (s : State) (c : Nat), Memory.wf s.mem = true →
    ShiftForm sz count dst → CountIs count s c → accessible dst sz s = true →
    (∃ t, exec (.lsl sz count dst) s = .next t ∧
      (operandValue dst sz t).toNat = ((operandValue dst sz s).toNat * 2 ^ c) % 2 ^ sz.bits ∧ t.ccr.v = false ∧
      ShiftFlags (operandValue dst sz t) c (decide (c ≤ sz.bits) && (operandValue dst sz s).getLsbD (sz.bits - c))
        s.ccr t.ccr) ∧
    (∃ t, exec (.asl sz count dst) s = .next t ∧
      (operandValue dst sz t).toNat = ((operandValue dst sz s).toNat * 2 ^ c) % 2 ^ sz.bits ∧
      ShiftFlags (operandValue dst sz t) c (decide (c ≤ sz.bits) && (operandValue dst sz s).getLsbD (sz.bits - c))
        s.ccr t.ccr)

/-- The overflow flag of asl under each value of the parameter ASL_V_RULE (R131 with decision D31, log entries 2 and 6). A
register count is taken modulo 64 (R172, decision D28 and general knowledge G3, log entries 6 and 7). -/
def Obligations.AslOverflowByRule : Prop :=
  ∀ (sz : Size) (count dst : Operand) (s : State) (c : Nat), Memory.wf s.mem = true →
    ShiftForm sz count dst → CountIs count s c → accessible dst sz s = true →
    ∃ t, exec (.asl sz count dst) s = .next t ∧
      (s.params.config.aslVRule = .beforeAfter →
        (t.ccr.v = true ↔ (operandValue dst sz s).getLsbD (sz.bits - 1) ≠ (operandValue dst sz t).getLsbD (sz.bits - 1))) ∧
      (s.params.config.aslVRule = .anyPoint →
        (t.ccr.v = true ↔ ∃ k, k ≤ c ∧
          (decide (k < sz.bits) && (operandValue dst sz s).getLsbD (sz.bits - 1 - k)) ≠
            (operandValue dst sz s).getLsbD (sz.bits - 1)))

/-- lsr, asr (R127, R129, R172 with decision D28, log entries 6 and 7): floor division of the unsigned and of the signed
value by 2^c; the last bit out of the bottom; V is 0. -/
def Obligations.RightShiftResults : Prop :=
  ∀ (sz : Size) (count dst : Operand) (s : State) (c : Nat), Memory.wf s.mem = true →
    ShiftForm sz count dst → CountIs count s c → accessible dst sz s = true →
    (∃ t, exec (.lsr sz count dst) s = .next t ∧
      (operandValue dst sz t).toNat = (operandValue dst sz s).toNat / 2 ^ c ∧ t.ccr.v = false ∧
      ShiftFlags (operandValue dst sz t) c (decide (c ≤ sz.bits) && (operandValue dst sz s).getLsbD (c - 1))
        s.ccr t.ccr) ∧
    (∃ t, exec (.asr sz count dst) s = .next t ∧
      (operandValue dst sz t).toInt = (operandValue dst sz s).toInt / 2 ^ c ∧ t.ccr.v = false ∧
      ShiftFlags (operandValue dst sz t) c
        (if c ≤ sz.bits then (operandValue dst sz s).getLsbD (c - 1) else (operandValue dst sz s).getLsbD (sz.bits - 1))
        s.ccr t.ccr)

/-- rol, ror (R130 with decision D30, R172 with D28, log entries 6 and 7): every bit moves c places round; C and X take the
bit that came round; V is 0. -/
def Obligations.RotateResults : Prop :=
  ∀ (sz : Size) (count dst : Operand) (s : State) (c : Nat), Memory.wf s.mem = true →
    ShiftForm sz count dst → CountIs count s c → accessible dst sz s = true →
    (∃ t, exec (.rol sz count dst) s = .next t ∧
      (∀ b, b < sz.bits →
        (operandValue dst sz t).getLsbD ((b + c) % sz.bits) = (operandValue dst sz s).getLsbD b) ∧
      t.ccr.v = false ∧
      ShiftFlags (operandValue dst sz t) c ((operandValue dst sz t).getLsbD 0) s.ccr t.ccr) ∧
    (∃ t, exec (.ror sz count dst) s = .next t ∧
      (∀ b, b < sz.bits →
        (operandValue dst sz t).getLsbD b = (operandValue dst sz s).getLsbD ((b + c) % sz.bits)) ∧
      t.ccr.v = false ∧
      ShiftFlags (operandValue dst sz t) c ((operandValue dst sz t).getLsbD (sz.bits - 1)) s.ccr t.ccr)

/-- The frame of asl, asr, lsl, lsr, rol, ror (R25, R28, R100). -/
def Obligations.ShiftFrame : Prop :=
  ∀ (sz : Size) (count dst : Operand) (s t : State),
    exec (.asl sz count dst) s = .next t ∨ exec (.asr sz count dst) s = .next t ∨ exec (.lsl sz count dst) s = .next t ∨
      exec (.lsr sz count dst) s = .next t ∨ exec (.rol sz count dst) s = .next t ∨ exec (.ror sz count dst) s = .next t →
    (∃ k, t = errorState s k) ∨ DataFrame sz dst s t

/-- R107 (decisions D16, D18, D28, D32, log entry 6): what every illegal or unshown form of the six does, in the rule's
order. -/
def Obligations.ShiftsRejectOtherForms : Prop :=
  ∀ mk ∈ [Instr.asl, Instr.asr, Instr.lsl, Instr.lsr, Instr.rol, Instr.ror],
  ∀ (sz : Size) (count dst : Operand) (s : State),
    (isImmediate dst = true → exec (mk sz count dst) s = .next (errorState s .illegalOperand)) ∧
    (isAddressRegister dst = true → exec (mk sz count dst) s = .refused .formNotShown) ∧
    (∀ n c, dst = .dataRegister n → count = .immediate c → (c < 0 ∨ 8 < c) →
      exec (mk sz count dst) s = .next (errorState s .shiftCount)) ∧
    (∀ n, dst = .dataRegister n → (isMem count = true ∨ isAddressRegister count = true) →
      exec (mk sz count dst) s = .refused .formNotShown) ∧
    (∀ c, isMem dst = true → count = .immediate c → c ≠ 1 →
      exec (mk sz count dst) s = .next (errorState s .shiftCount)) ∧
    (isMem dst = true → count = .immediate 1 → sz ≠ .w →
      exec (mk sz count dst) s = .next (errorState s .invalidSize)) ∧
    (isMem dst = true → isImmediate count = false → exec (mk sz count dst) s = .refused .formNotShown)

/-! ### Multiply and divide (44_multiply_divide) -/

/-- mulu, muls (R133, R180, R181) write the 32-bit product of the 16-bit source and the destination's low word; Z, N from the
product, C and V cleared, X kept. A memory source is read as a word (decision D37, log entry 6). -/
def Obligations.MultiplyResults : Prop :=
  ∀ (src dst : Operand) (i : Fin 16) (s : State), slotOf dst = some i → accessible src .w s = true →
    (∃ t, exec (.mulu src dst) s = .next t ∧
      (t.reg i).toNat = (operandWord src s).toNat * (s.readReg i 16).toNat ∧ LogicalFlags (t.reg i) s.ccr t.ccr) ∧
    (∃ t, exec (.muls src dst) s = .next t ∧
      (t.reg i).toInt = (operandWord src s).toInt * (s.readReg i 16).toInt ∧ LogicalFlags (t.reg i) s.ccr t.ccr)

/-- divu (R135, R137, R182, R183 with decision D35, log entry 6) where it does not overflow, under every DIV_OVF_POLICY (log
entry 2): remainder and quotient packed, N and Z from the 16-bit quotient, C cleared, V and X kept. -/
def Obligations.DivuResult : Prop :=
  ∀ (src dst : Operand) (i : Fin 16) (s : State) (a b : Nat), slotOf dst = some i → accessible src .w s = true →
    a = (s.reg i).toNat → b = (operandWord src s).toNat → b ≠ 0 →
    ¬ DivuOverflows s.params.config.divOvfPolicy a b →
    ∃ t, exec (.divu src dst) s = .next t ∧
      (t.reg i).toNat = (a % b) * 65536 + (a / b) % 65536 ∧ t.ccr.c = false ∧
      t.ccr.z = decide ((a / b) % 65536 = 0) ∧ t.ccr.n = decide (32768 ≤ (a / b) % 65536) ∧
      t.ccr.v = s.ccr.v ∧ t.ccr.x = s.ccr.x

/-- divs (R136, R137, R182, R184 with decision D35 and general knowledge G2, log entries 6 and 7) where it does not overflow,
under every DIV_OVF_POLICY (log entry 2): the quotient rounds toward zero and the remainder has the dividend's sign. -/
def Obligations.DivsResult : Prop :=
  ∀ (src dst : Operand) (i : Fin 16) (s : State) (a b : Int), slotOf dst = some i → accessible src .w s = true →
    a = (s.reg i).toInt → b = (operandWord src s).toInt → b ≠ 0 →
    ¬ DivsOverflows s.params.config.divOvfPolicy a b →
    ∃ (t : State) (q r : Int), exec (.divs src dst) s = .next t ∧
      a = q * b + r ∧ |r| < |b| ∧ (r = 0 ∨ (0 < r ↔ 0 < a)) ∧
      ((t.reg i).toNat : Int) = (r % 65536) * 65536 + q % 65536 ∧ t.ccr.c = false ∧
      t.ccr.z = decide (q % 65536 = 0) ∧ t.ccr.n = decide (32768 ≤ q % 65536) ∧
      t.ccr.v = s.ccr.v ∧ t.ccr.x = s.ccr.x

/-- Divide overflow (R135, R136, R182 with decision D36, log entries 2 and 6): V set, C cleared, nothing else changes. -/
def Obligations.DivideOverflow : Prop :=
  ∀ (src dst : Operand) (i : Fin 16) (s : State), slotOf dst = some i → accessible src .w s = true →
    operandWord src s ≠ 0 →
    (DivuOverflows s.params.config.divOvfPolicy (s.reg i).toNat (operandWord src s).toNat →
      ∃ f : Ccr, exec (.divu src dst) s = .next { s with ccr := f } ∧ f.v = true ∧ f.c = false ∧ f.x = s.ccr.x ∧
        f.n = s.ccr.n ∧ f.z = s.ccr.z) ∧
    (DivsOverflows s.params.config.divOvfPolicy (s.reg i).toInt (operandWord src s).toInt →
      ∃ f : Ccr, exec (.divs src dst) s = .next { s with ccr := f } ∧ f.v = true ∧ f.c = false ∧ f.x = s.ccr.x ∧
        f.n = s.ccr.n ∧ f.z = s.ccr.z)

/-- R221: divu and divs raise Division-By-Zero when the source's low 16 bits are 0, and no other instruction raises a fatal
exception. -/
def Obligations.OnlyDividesRaiseDivisionByZero : Prop :=
  (∀ (src dst : Operand) (i : Fin 16) (s : State), slotOf dst = some i → accessible src .w s = true → s.exc = none →
    operandWord src s = 0 →
    exec (.divu src dst) s = .next { s with exc := some .divisionByZero } ∧
    exec (.divs src dst) s = .next { s with exc := some .divisionByZero }) ∧
  ∀ (i : Instr) (s t : State), exec i s = .next t → t.exc ≠ s.exc →
    t.exc = some .divisionByZero ∧ ∃ src dst, (i = .divu src dst ∨ i = .divs src dst) ∧ operandWord src s = 0

/-- The frame of mulu, muls, divu, divs (R25, R28, R100): one long register and flags but X; a divide by zero changes the
exception slot only. -/
def Obligations.MultiplyDivideFrame : Prop :=
  ∀ (src dst : Operand) (s t : State),
    (exec (.mulu src dst) s = .next t ∨ exec (.muls src dst) s = .next t →
      (∃ k, t = errorState s k) ∨ (DataFrame .l dst s t ∧ t.ccr.x = s.ccr.x)) ∧
    (exec (.divu src dst) s = .next t ∨ exec (.divs src dst) s = .next t →
      (∃ k, t = errorState s k) ∨ (operandWord src s = 0 ∧ t = { s with exc := t.exc }) ∨
        (DataFrame .l dst s t ∧ t.ccr.x = s.ccr.x))

/-- R108 (decisions D16, D18, log entry 6): what every other form of the four does, in the rule's order. -/
def Obligations.MultiplyDivideRejectOtherForms : Prop :=
  ∀ mk ∈ [Instr.mulu, Instr.muls, Instr.divu, Instr.divs], ∀ (src dst : Operand) (s : State),
    (isImmediate dst = true → exec (mk src dst) s = .next (errorState s .illegalOperand)) ∧
    (isMem dst = true → isMem src = true → exec (mk src dst) s = .next (errorState s .memToMem)) ∧
    (isMem dst = true → isMem src = false → exec (mk src dst) s = .refused .formNotShown)

/-! ### Control flow (45_control_flow) -/

/-- bra and the conditional branches (R191 to R193, R195 to R200 with decisions D24, D25 and general knowledge G1, log
entries 6 and 7): the whole next state, taken, too long, and not taken. -/
def Obligations.BranchResults : Prop :=
  ∀ (sz : Size) (d : Int) (s : State),
    BranchRule (.bra sz (.absoluteOffset d)) sz d s True ∧
    BranchRule (.beq sz (.absoluteOffset d)) sz d s (s.ccr.z = true) ∧
    BranchRule (.bne sz (.absoluteOffset d)) sz d s (s.ccr.z = false) ∧
    BranchRule (.bge sz (.absoluteOffset d)) sz d s (s.ccr.n = s.ccr.v) ∧
    BranchRule (.bgt sz (.absoluteOffset d)) sz d s (s.ccr.z = false ∧ s.ccr.n = s.ccr.v) ∧
    BranchRule (.ble sz (.absoluteOffset d)) sz d s (s.ccr.z = true ∨ s.ccr.n ≠ s.ccr.v) ∧
    BranchRule (.blt sz (.absoluteOffset d)) sz d s (s.ccr.n ≠ s.ccr.v)

/-- jmp (R201 with decision D25, log entry 6): relative, no range test, nothing but the pc changes; with the displacement the
loader writes for a label (R191, R244) a jump at cell `c` lands on the cell after the label's. -/
def Obligations.JmpResult : Prop :=
  (∀ (d : Int) (s : State), exec (.jmp (.absoluteOffset d)) s = .next { s with pc := s.pc + d }) ∧
  ∀ (l c : Nat) (s : State), s.pc = 4 * (c : Int) + 4 →
    exec (.jmp (.absoluteOffset (labelDisplacement l c))) s = .next { s with pc := 4 * ((l : Int) + 1) }

/-- bsr, jsr (R194, R202 with decisions D26, D43, log entry 6): the push and the jump where the incremented stack pointer is
valid; InvalidAddress where it is not; for bsr the range test first. -/
def Obligations.CallResults : Prop :=
  ∀ (sz : Size) (d : Int) (s : State), Memory.wf s.mem = true →
    ((s.reg spSlot + 4).toNat ≤ 0x7FFFFFFC →
      (∃ t, exec (.jsr (.absoluteOffset d)) s = .next t ∧ Called d s t) ∧
      (DisplacementFits sz d → ∃ t, exec (.bsr sz (.absoluteOffset d)) s = .next t ∧ Called d s t)) ∧
    (0x7FFFFFFC < (s.reg spSlot + 4).toNat →
      exec (.jsr (.absoluteOffset d)) s = .next (errorState s .invalidAddress) ∧
      (DisplacementFits sz d → exec (.bsr sz (.absoluteOffset d)) s = .next (errorState s .invalidAddress))) ∧
    (¬ DisplacementFits sz d → exec (.bsr sz (.absoluteOffset d)) s = .next (errorState s .offsetTooLong))

/-- rts (R203 with decisions D27, D43, log entry 6): the pop where a7 is valid, InvalidAddress where it is not. -/
def Obligations.ReturnResult : Prop :=
  ∀ s : State,
    ((s.reg spSlot).toNat ≤ 0x7FFFFFFC → ∃ t, exec .rts s = .next t ∧ Returned s t) ∧
    (0x7FFFFFFC < (s.reg spSlot).toNat → exec .rts s = .next (errorState s .invalidAddress))

/-- A return undoes a call (45_control_flow, 95_test_vectors W10): after a bsr or jsr, in any state with the stack pointer
and the pushed bytes as the call left them, rts restores the pc after the call and a7. That `pc_adv` is pushed is decision
D26, that the popped long is unsigned D27 (it decides the pc from 2^31 on), that a7 wraps D43 (log entry 6). -/
def Obligations.CallThenReturnIsBalanced : Prop :=
  ∀ (sz : Size) (target : Operand) (s t u : State), Memory.wf s.mem = true → 0 ≤ s.pc → s.pc < 2 ^ 32 →
    t.errs = s.errs → (exec (.jsr target) s = .next t ∨ exec (.bsr sz target) s = .next t) →
    u.reg spSlot = t.reg spSlot →
    (∀ k, k < 4 → Memory.getByte u.mem ((t.reg spSlot).toNat + k) = Memory.getByte t.mem ((t.reg spSlot).toNat + k)) →
    ∃ r, exec .rts u = .next r ∧ r.pc = s.pc ∧ r.reg spSlot = s.reg spSlot

/-- R109 (decision D49, log entry 6): a branch or jump whose operand is not a plain literal is refused. -/
def Obligations.ControlFlowRejectsOtherTargets : Prop :=
  ∀ (sz : Size) (target : Operand) (s : State), (∀ d, target ≠ .absoluteOffset d) →
    (∀ mk ∈ [Instr.bra, Instr.bsr, Instr.beq, Instr.bne, Instr.bge, Instr.bgt, Instr.ble, Instr.blt],
      exec (mk sz target) s = .refused .formNotShown) ∧
    exec (.jmp target) s = .refused .formNotShown ∧ exec (.jsr target) s = .refused .formNotShown

/-! ### Errors of operands -/

/-- R101 to R106 (decision D16, log entry 6): illegal operand combinations record their error and do nothing else. For ext
at size b the size is refused first (`ExtResult`; log entry 17). -/
def Obligations.IllegalOperandsAreRecorded : Prop :=
  ∀ (sz : Size) (src dst : Operand) (s : State),
    (∀ mk ∈ [Instr.add, Instr.sub, Instr.and, Instr.or, Instr.eor],
      (isImmediate dst = true → exec (mk sz src dst) s = .next (errorState s .illegalOperand)) ∧
      (isMem src = true → isMem dst = true → exec (mk sz src dst) s = .next (errorState s .memToMem))) ∧
    (∀ mk ∈ [Instr.cmp, Instr.move],
      isImmediate dst = true → exec (mk sz src dst) s = .next (errorState s .illegalOperand)) ∧
    (∀ mk ∈ [Instr.not, Instr.clr, Instr.neg],
      (isImmediate dst = true ∨ isAddressRegister dst = true) →
        exec (mk sz dst) s = .next (errorState s .illegalOperand)) ∧
    ((∀ n, dst ≠ .dataRegister n) →
      (sz ≠ .b → exec (.ext sz dst) s = .next (errorState s .illegalOperand)) ∧
      exec (.swap dst) s = .next (errorState s .illegalOperand)) ∧
    ((slotOf src = none ∨ slotOf dst = none) → exec (.exg src dst) s = .next (errorState s .illegalOperand))

/-- R56, R97, R100 (decisions D8 and, for multiply and divide, D37, log entry 6): a legal form with an operand outside the
address space records InvalidAddress and does nothing else. -/
def Obligations.InvalidAddressesAreRecorded : Prop :=
  ∀ (sz : Size) (src dst : Operand) (s : State), isImmediate dst = false →
    ((accessible src sz s = false ∨ accessible dst sz s = false) →
      (¬ (isMem src = true ∧ isMem dst = true) →
        ∀ mk ∈ [Instr.add, Instr.sub, Instr.and, Instr.or, Instr.eor],
          exec (mk sz src dst) s = .next (errorState s .invalidAddress)) ∧
      (∀ mk ∈ [Instr.cmp, Instr.move], exec (mk sz src dst) s = .next (errorState s .invalidAddress))) ∧
    (accessible dst sz s = false →
      (∀ mk ∈ [Instr.not, Instr.clr, Instr.neg], exec (mk sz dst) s = .next (errorState s .invalidAddress)) ∧
      (ShiftForm sz src dst →
        ∀ mk ∈ [Instr.asl, Instr.asr, Instr.lsl, Instr.lsr, Instr.rol, Instr.ror],
          exec (mk sz src dst) s = .next (errorState s .invalidAddress))) ∧
    (accessible src .w s = false → ∀ i, slotOf dst = some i →
      ∀ mk ∈ [Instr.mulu, Instr.muls, Instr.divu, Instr.divs],
        exec (mk src dst) s = .next (errorState s .invalidAddress))

/-! ### Rules over all instructions -/

/-- R100, R215, R218 (decisions D15, D47, log entry 6): whatever the instruction, an error recorded or an exception raised is
the whole change. -/
def Obligations.EveryInstructionIsAllOrNothing : Prop :=
  ∀ (i : Instr) (s t : State), exec i s = .next t →
    (t.errs ≠ s.errs → ∃ k, t = errorState s k) ∧ (t.exc ≠ s.exc → t = { s with exc := t.exc })

/-- R30, R31, R35, R38, R39: only control flow moves the pc from `pc_adv`, and no instruction writes the fetch's
bookkeeping, the undo stack or the parameters. -/
def Obligations.PcAndBookkeepingWriters : Prop :=
  ∀ (i : Instr) (s t : State), exec i s = .next t →
    (isControlFlow i = false → t.pc = s.pc) ∧
    t.lastInstr = s.lastInstr ∧ t.line = s.line ∧ t.undo = s.undo ∧ t.params = s.params

/-- R28, R113: X is written by add, sub, neg, shifts and rotates only; control flow, exg and the non-executable slot write
no flag. -/
def Obligations.FlagWriters : Prop :=
  ∀ (i : Instr) (s t : State), exec i s = .next t →
    (writesExtend i = false → t.ccr.x = s.ccr.x) ∧
    (isControlFlow i = true ∨ i = .nonExecutable ∨ (∃ a b, i = .exg a b) → t.ccr = s.ccr)

/-- R23: an instruction writes no register but its destination's, exg's two, and slot 7 for bsr, jsr, rts. -/
def Obligations.RegisterWriters : Prop :=
  ∀ (i : Instr) (s t : State) (j : Fin 16), exec i s = .next t → j ∉ writtenSlots i → t.reg j = s.reg j

/-! ### Undo (70_reset_and_hazards section 3) -/

/-- R255, R256: undo pops the most recent frame and restores its fields; on an empty stack it is a no-op. That it keeps the
exception slot is decision D38 (log entry 6). -/
def Obligations.UndoRestoresTheLastFrame : Prop :=
  (∀ s : State, s.undo = [] → s.undoFromStack = s) ∧
  ∀ (s : State) (fs : List Frame) (f : Frame), s.undo = fs ++ [f] →
    s.undoFromStack.pc = f.pc ∧ s.undoFromStack.ccr = f.ccr ∧ s.undoFromStack.x = f.x ∧
    s.undoFromStack.mem = f.mem ∧ s.undoFromStack.errs = f.errs ∧ s.undoFromStack.lastInstr = f.lastInstr ∧
    s.undoFromStack.line = f.line ∧ s.undoFromStack.undo = fs ∧ s.undoFromStack.exc = s.exc

/-- R265: n steps each of which pushes a frame, then n undos, restore every field a frame holds and the undo stack. -/
def Obligations.UndosReverseAPushingRun : Prop :=
  ∀ (n : Nat) (s t : State), PushingRun n s t → SameUndoFields s (undoTimes n t)
end

