-- ==== Sys2Proof/Laws/Decode.lean ====
section
/-! SUPPORT. The decoder, function by function: how a text splits, that every function ignores the case of letters (R72),
and that what the encoder spells is read back. -/

namespace Sys2Proof

open Machine (NonFatalKind)

/-! ### Splitting -/

theorem splitAtFirst_append (p : Char → Bool) (a b : Text) (ha : ∀ c ∈ a, p c = false) (hb : b = [] ∨ ∃ c r, b = c :: r ∧ p c = true) :
    splitAtFirst p (a ++ b) = (a, b) := by
  induction a with
  | nil => rcases hb with rfl | ⟨c, r, rfl, h⟩ <;> simp [splitAtFirst, *]
  | cons c r ih =>
    have := ih (fun c hc => ha c (by simp [hc]))
    simp [splitAtFirst, ha c (by simp), this]

/-! ### The case of letters -/

theorem toLower_of_not_upper (c : Char) (h : c.toNat < 65 ∨ 90 < c.toNat) : c.toLower = c := by
  unfold Char.toLower; rw [dif_neg]
  intro hh
  have h1 := hh.1; have h2 := hh.2
  have h5 : c.toNat = c.val.toNat := rfl
  rw [ge_iff_le, UInt32.le_iff_toNat_le] at h1; rw [UInt32.le_iff_toNat_le] at h2
  simp at h1 h2
  omega

theorem toLower_of_upper (c : Char) (h : 65 ≤ c.toNat ∧ c.toNat ≤ 90) : c.toLower.toNat = c.toNat + 32 := by
  have h5 : c.toNat = c.val.toNat := rfl
  unfold Char.toLower; rw [dif_pos (by
    constructor
    · rw [ge_iff_le, UInt32.le_iff_toNat_le]; simp; omega
    · rw [UInt32.le_iff_toNat_le]; simp; omega)]
  show (c.val + 32).toNat = _
  rw [UInt32.toNat_add]; simp; omega

theorem lower_lower (t : Text) : lower (lower t) = lower t := by
  simp only [lower, List.map_map]; congr 1; funext c
  simp only [Function.comp]
  by_cases h : 65 ≤ c.toNat ∧ c.toNat ≤ 90
  · exact toLower_of_not_upper _ (by have := toLower_of_upper c h; omega)
  · exact toLower_of_not_upper _ (by have := toLower_of_not_upper c (by omega); rw [this]; omega)

theorem toLower_eq_iff (c d : Char) (hd : d.toNat < 65 ∨ 122 < d.toNat ∨ (90 < d.toNat ∧ d.toNat < 97)) : c.toLower = d ↔ c = d := by
  by_cases h : 65 ≤ c.toNat ∧ c.toNat ≤ 90
  · have := toLower_of_upper c h
    constructor
    · rintro rfl; omega
    · rintro rfl; omega
  · rw [toLower_of_not_upper c (by omega)]

theorem isSpace_toLower (c : Char) : isSpace c.toLower = isSpace c := by
  by_cases h : 65 ≤ c.toNat ∧ c.toNat ≤ 90
  · have := toLower_of_upper c h
    simp only [isSpace]; rw [this, Bool.eq_iff_iff]; simp; omega
  · rw [toLower_of_not_upper c (by omega)]

theorem beq_toLower (c d : Char) (hd : d.toNat < 65 ∨ 122 < d.toNat ∨ (90 < d.toNat ∧ d.toNat < 97)) : (c.toLower == d) = (c == d) := by
  rw [Bool.eq_iff_iff]; simp [toLower_eq_iff c d hd]

theorem splitAtFirst_lower (p : Char → Bool) (hp : ∀ c, p c.toLower = p c) (t : Text) : splitAtFirst p (lower t) = (lower (splitAtFirst p t).1, lower (splitAtFirst p t).2) := by
  induction t with
  | nil => rfl
  | cons c r ih =>
    simp only [lower, List.map_cons, splitAtFirst, hp] at ih ⊢
    split
    · rfl
    · rw [ih]; rfl

theorem trimStart_lower (t : Text) : trimStart (lower t) = lower (trimStart t) := by
  induction t with
  | nil => rfl
  | cons c r ih => simp only [lower, List.map_cons, trimStart, isSpace_toLower] at ih ⊢; split
                   · exact ih
                   · rfl

theorem trim_lower (t : Text) : trim (lower t) = lower (trim t) := by
  unfold trim
  rw [trimStart_lower, show (lower (trimStart t)).reverse = lower (trimStart t).reverse by simp [lower], trimStart_lower]
  simp [lower]

theorem commaParts_lower (t : Text) : commaParts (lower t) = (commaParts t).map lower := by
  induction t with
  | nil => rfl
  | cons c r ih =>
    simp only [lower, List.map_cons, commaParts, beq_toLower c ',' (by decide)] at ih ⊢
    split
    · simp [ih]; rfl
    · rw [ih]; cases commaParts r <;> simp [lower]

theorem operandTexts_lower (t : Text) : operandTexts (lower t) = (operandTexts t).map lower := by
  unfold operandTexts
  rw [trim_lower]
  cases h : trim t with
  | nil => rfl
  | cons c r =>
    show (commaParts (lower (c :: r))).map trim = _
    rw [commaParts_lower]; simp [trim_lower]

theorem digitValue_toLower (b : Nat) (_hb : b ≤ 16) (c : Char) : digitValue b c.toLower = digitValue b c := by
  by_cases h : 65 ≤ c.toNat ∧ c.toNat ≤ 90
  · have := toLower_of_upper c h
    simp only [digitValue, this]
    repeat' split
    all_goals simp_all
    all_goals omega
  · rw [toLower_of_not_upper c (by omega)]

theorem digitsValue_lower (b : Nat) (hb : b ≤ 16) (t : Text) : ∀ acc, digitsValue b acc (lower t) = digitsValue b acc t := by
  induction t with
  | nil => intro; rfl
  | cons c r ih =>
    intro acc
    have : lower (c :: r) = c.toLower :: lower r := rfl
    rw [this]; simp only [digitsValue, digitValue_toLower b hb]
    cases digitValue b c <;> simp [ih]

theorem natLiteral_lower (b : Nat) (hb : b ≤ 16) (t : Text) : natLiteral b (lower t) = natLiteral b t := by
  cases t with
  | nil => rfl
  | cons c r => exact digitsValue_lower b hb (c :: r) 0

theorem literal_lower (t : Text) : literal (lower t) = literal t := by
  cases t with
  | nil => rfl
  | cons c r =>
    have e : lower (c :: r) = c.toLower :: lower r := rfl
    by_cases h1 : c = '-'
    · subst h1; rw [e, toLower_of_not_upper '-' (by decide)]; simp only [literal, natLiteral_lower 10 (by decide)]
    by_cases h2 : c = '$'
    · subst h2; rw [e, toLower_of_not_upper '$' (by decide)]; simp only [literal, natLiteral_lower 16 (by decide)]
    by_cases h3 : c = '%'
    · subst h3; rw [e, toLower_of_not_upper '%' (by decide)]; simp only [literal, natLiteral_lower 2 (by decide)]
    have hn := natLiteral_lower 10 (by decide) (c :: r)
    rw [e] at hn ⊢
    have k1 : c.toLower ≠ '-' := by rwa [ne_eq, toLower_eq_iff _ _ (by decide)]
    have k2 : c.toLower ≠ '$' := by rwa [ne_eq, toLower_eq_iff _ _ (by decide)]
    have k3 : c.toLower ≠ '%' := by rwa [ne_eq, toLower_eq_iff _ _ (by decide)]
    unfold literal
    split <;> simp_all

theorem registerText_lower (t : Text) : registerText (lower t) = registerText t := by
  unfold registerText; rw [lower_lower]

theorem splitParentheses_lower (t : Text) : splitParentheses (lower t) = (splitParentheses t).map (fun p => (lower p.1, lower p.2)) := by
  unfold splitParentheses
  rw [splitAtFirst_lower _ (fun c => beq_toLower c '(' (by decide))]
  cases h : splitAtFirst (· == '(') t with
  | mk o r =>
  simp only
  cases r with
  | nil => rfl
  | cons c r =>
    have e : lower (c :: r) = c.toLower :: lower r := rfl
    rw [e]
    have hc : c = '(' := by
      have : ∀ t : Text, ∀ o c r, splitAtFirst (· == '(') t = (o, c :: r) → c = '(' := by
        intro t; induction t with
        | nil => intro o c r h; simp [splitAtFirst] at h
        | cons d t ih => intro o c r h; simp only [splitAtFirst] at h; split at h
                         · simp at h; rename_i hd; simp at hd; rw [← h.2.1, hd]
                         · simp at h; exact ih _ c r (Prod.ext rfl h.2)
      exact this t o c r h
    subst hc
    show (match (lower r).reverse with | ')' :: inside => some (lower o, inside.reverse) | _ => none) = Option.map _ (match r.reverse with | ')' :: inside => some (o, inside.reverse) | _ => none)
    have : (lower r).reverse = lower r.reverse := by simp [lower]
    rw [this]
    cases hr : r.reverse with
    | nil => rfl
    | cons d q =>
      have e : lower (d :: q) = d.toLower :: lower q := rfl
      rw [e]
      by_cases hd : d = ')'
      · subst hd; simp [lower]
      · have : d.toLower ≠ ')' := by rwa [ne_eq, toLower_eq_iff _ _ (by decide)]
        split <;> simp_all

theorem parseOperand_lower (t : Text) : parseOperand (lower t) = parseOperand t := by
  by_cases hh : ∃ r, t = '#' :: r
  · obtain ⟨r, rfl⟩ := hh
    show (match literal (lower r) with | some v => _ | none => _) = _
    rw [literal_lower]; rfl
  · have hh' : ∀ r, lower t ≠ '#' :: r := by
      intro r h; cases t with
      | nil => cases h
      | cons c q =>
        have e : lower (c :: q) = c.toLower :: lower q := rfl
        rw [e] at h; simp at h
        exact hh ⟨q, by rw [(toLower_eq_iff c '#' (by decide)).1 h.1]⟩
    have P : ∀ u : Text, (∀ r, u ≠ '#' :: r) → parseOperand u = (match registerText u with
      | .register op => .ok op
      | .invalid => .error (.error .invalidRegister)
      | .other =>
      match splitParentheses u with
      | none =>
        match literal u with
        | some a => .ok (.absoluteOffset a)
        | none => .error (.refuse .operandForm)
      | some (outside, inside) =>
        match literal outside with
        | none => .error (.refuse .operandForm)
        | some d =>
          match registerText inside with
          | .register (.addressRegister n) => .ok (.offsetAddress d n)
          | .invalid => .error (.error .invalidRegister)
          | _ => .error (.refuse .operandForm)) := by
      intro u hu
      unfold parseOperand
      split
      · exact absurd rfl (hu _)
      · rfl
    rw [P _ hh', P _ (fun r h => hh ⟨r, h⟩), registerText_lower, splitParentheses_lower, literal_lower]
    cases registerText t <;> simp
    cases splitParentheses t <;> simp [literal_lower, registerText_lower]

theorem mnemonicOf_lower (t : Text) : mnemonicOf (lower t) = mnemonicOf t := by unfold mnemonicOf; rw [lower_lower]

theorem checkSize_lower (m) (s : Option Text) : checkSize m (s.map lower) = checkSize m s := by
  cases s with
  | none => rfl
  | some t => simp only [Option.map_some, checkSize, suffixSize]; rw [lower_lower]

theorem formInstr_lower (m sz) (f : Text) : formInstr m sz (lower f) = formInstr m sz f := by
  unfold formInstr arityStop
  rw [operandTexts_lower]
  rcases operandTexts f with _ | ⟨a, _ | ⟨b, _ | ⟨c, r⟩⟩⟩ <;> simp only [List.map_cons, List.map_nil, List.length_cons, List.length_nil, List.length_map] <;> cases m <;> simp only [Mnemonic.format, parseOperand_lower]

/-! ### What the encoder spells -/

def IsDigit (c : Char) : Prop := 48 ≤ c.toNat ∧ c.toNat ≤ 57

theorem digitChar_toNat (d : Nat) (h : d < 10) : (digitChar d).toNat = 48 + d := by
  interval_cases d <;> rfl

theorem digitValue_digitChar (d : Nat) (h : d < 10) : digitValue 10 (digitChar d) = some d := by
  interval_cases d <;> rfl

theorem digitsValue_decimalDigits : ∀ fuel n acc (v : Nat), n < fuel → digitsValue 10 v (decimalDigits fuel n acc) = digitsValue 10 (v * 10 ^ (decimalDigits fuel n []).length + n) acc := by
  intro fuel; induction fuel with
  | zero => intro n acc v h; omega
  | succ f ih =>
    intro n acc v h
    have len : ∀ f n acc, (decimalDigits f n acc).length = (decimalDigits f n []).length + acc.length := by
      intro f; induction f with
      | zero => intro n acc; simp [decimalDigits]
      | succ f ih => intro n acc; simp only [decimalDigits]; split
                     · simp; omega
                     · rw [ih, ih _ [digitChar (n%10)]]; simp; omega
    simp only [decimalDigits]
    split
    · rename_i h10; simp [digitsValue, digitValue_digitChar n h10]
    · rename_i h10
      rw [ih _ _ _ (by omega), len f _ [digitChar (n%10)]]
      simp [digitsValue, digitValue_digitChar (n % 10) (by omega)]
      congr 1
      rw [pow_succ]
      have := Nat.div_add_mod n 10
      have e : (v * 10 ^ (decimalDigits f (n/10) []).length + n/10) * 10 + n % 10 = v * (10 ^ (decimalDigits f (n/10) []).length * 10) + (10 * (n / 10) + n % 10) := by ring
      rw [e, this]

theorem decimalDigits_cons : ∀ fuel n acc, 0 < fuel → ∃ d r, decimalDigits fuel n acc = digitChar d :: r ∧ d < 10 := by
  intro fuel; induction fuel with
  | zero => intro n acc h; omega
  | succ f ih =>
    intro n acc _
    simp only [decimalDigits]
    split
    · exact ⟨n, acc, rfl, by assumption⟩
    · cases f with
      | zero => exact ⟨n%10, acc, rfl, by omega⟩
      | succ f => exact ih _ _ (by omega)

theorem decimalDigits_digits : ∀ fuel n acc, (∀ c ∈ acc, IsDigit c) → ∀ c ∈ decimalDigits fuel n acc, IsDigit c := by
  intro fuel; induction fuel with
  | zero => intro n acc h; exact h
  | succ f ih =>
    intro n acc h
    have hd : ∀ d, d < 10 → IsDigit (digitChar d) := fun d hd => by have := digitChar_toNat d hd; exact ⟨by omega, by omega⟩
    simp only [decimalDigits]
    split
    · intro c hc; rcases List.mem_cons.1 hc with rfl | hc
      · exact hd _ ‹_›
      · exact h c hc
    · apply ih; intro c hc; rcases List.mem_cons.1 hc with rfl | hc
      · exact hd _ (Nat.mod_lt _ (by decide))
      · exact h c hc

theorem natText_digits (n) : ∀ c ∈ natText n, IsDigit c := decimalDigits_digits _ _ _ (by simp)

theorem natLiteral_natText (n) : natLiteral 10 (natText n) = some n := by
  obtain ⟨d, r, h, -⟩ := decimalDigits_cons (n+1) n [] (by omega)
  have := digitsValue_decimalDigits (n+1) n [] 0 (by omega)
  unfold natText
  rw [h] at this ⊢
  simp only [natLiteral]; rw [this]; simp [digitsValue]

theorem literal_natText (n) : literal (natText n) = some (n : Int) := by
  obtain ⟨d, r, h, hd⟩ := decimalDigits_cons (n+1) n [] (by omega)
  have hn := natLiteral_natText n
  have h' : natText n = digitChar d :: r := h
  rw [h'] at hn ⊢
  have := digitChar_toNat d hd
  generalize digitChar d = c at *
  unfold literal
  split
  · rename_i he; simp at he; rw [he.1] at this; simp at this; omega
  · rename_i he; simp at he; rw [he.1] at this; simp at this; omega
  · rename_i he; simp at he; rw [he.1] at this; simp at this; omega
  · rw [hn]; rfl

theorem literal_intText (v : Int) : literal (intText v) = some v := by
  cases v with
  | ofNat n => exact literal_natText n
  | negSucc n => simp [intText, literal, natLiteral_natText]; omega

/-- characters of an operand's text -/
def Plain (c : Char) : Prop := isSpace c = false ∧ c ≠ ','

theorem intText_plain (v : Int) : ∀ c ∈ intText v, Plain c ∧ c ≠ '(' ∧ c ≠ 'a' ∧ c ≠ 'd' ∧ c ≠ 's' ∧ c ≠ '#' ∧ (IsDigit c ∨ c = '-') := by
  have hd : ∀ c, IsDigit c → Plain c ∧ c ≠ '(' ∧ c ≠ 'a' ∧ c ≠ 'd' ∧ c ≠ 's' ∧ c ≠ '#' ∧ (IsDigit c ∨ c = '-') := by
    rintro c h; have h' := h
    obtain ⟨h1, h2⟩ := h
    refine ⟨⟨?_, ?_⟩, ?_, ?_, ?_, ?_, ?_, .inl h'⟩
    · simp only [isSpace]; rw [Bool.eq_false_iff]; simp; omega
    all_goals (rintro rfl; simp at h1 h2)
  cases v with
  | ofNat n => exact fun c hc => hd c (natText_digits n c hc)
  | negSucc n => intro c hc; rcases List.mem_cons.1 hc with rfl | hc
                 · exact ⟨⟨by decide, by decide⟩, by decide, by decide, by decide, by decide, by decide, .inr rfl⟩
                 · exact hd c (natText_digits _ c hc)

theorem operandText_plain (op : Operand) : (∀ c ∈ op.text, Plain c) ∧ op.text ≠ [] := by
  have hdig : ∀ n : Fin 8, Plain (digitChar n.val) := by unfold Plain; decide
  cases op with
  | immediate v => exact ⟨fun c hc => by rcases List.mem_cons.1 hc with rfl | hc
                                         · exact ⟨by decide, by decide⟩
                                         · exact (intText_plain v c hc).1, by simp [Operand.text]⟩
  | absoluteOffset v => refine ⟨fun c hc => (intText_plain v c hc).1, ?_⟩
                        cases v with
                        | ofNat n => obtain ⟨d, r, h, -⟩ := decimalDigits_cons (n+1) n [] (by omega); simp [Operand.text, intText, natText, h]
                        | negSucc n => simp [Operand.text, intText]
  | addressRegister n => refine ⟨fun c hc => ?_, by simp [Operand.text]⟩
                         simp [Operand.text] at hc; rcases hc with rfl | rfl
                         · exact ⟨by decide, by decide⟩
                         · exact hdig n
  | dataRegister n => refine ⟨fun c hc => ?_, by simp [Operand.text]⟩
                      simp [Operand.text] at hc; rcases hc with rfl | rfl
                      · exact ⟨by decide, by decide⟩
                      · exact hdig n
  | offsetAddress v n => refine ⟨fun c hc => ?_, by simp [Operand.text]⟩
                         simp [Operand.text] at hc; rcases hc with hc | rfl | rfl | rfl | rfl
                         · exact (intText_plain v c hc).1
                         · exact ⟨by decide, by decide⟩
                         · exact ⟨by decide, by decide⟩
                         · exact hdig n
                         · exact ⟨by decide, by decide⟩

theorem registerText_of_number (t : Text) (h : ∃ c r, t = c :: r ∧ (IsDigit c ∨ c = '-')) : registerText t = .other := by
  obtain ⟨c, r, rfl, hc⟩ := h
  have e : lower (c :: r) = c :: lower r := by
    show c.toLower :: _ = _
    have : c.toLower = c := by
      unfold Char.toLower; rw [dif_neg]
      intro hh; have h1 := hh.1; rw [ge_iff_le, UInt32.le_iff_toNat_le] at h1; simp at h1
      have h5 : c.toNat = c.val.toNat := rfl
      rcases hc with hc | rfl
      · have := hc.2; omega
      · simp at h1
    rw [this]; rfl
  unfold registerText
  rw [e]
  rcases hc with hc | rfl
  · split <;> rename_i h <;> simp at h
    all_goals first | rfl | (obtain ⟨rfl, -⟩ := h; obtain ⟨h1, h2⟩ := hc; simp at h1 h2)
  · rfl

theorem intText_cons (v : Int) : ∃ c r, intText v = c :: r ∧ (IsDigit c ∨ c = '-') := by
  cases h : intText v with
  | nil => exfalso
           cases v with
           | ofNat n => obtain ⟨d, r, h', -⟩ := decimalDigits_cons (n+1) n [] (by omega); simp [intText, natText, h'] at h
           | negSucc n => simp [intText] at h
  | cons c r => exact ⟨c, r, rfl, (intText_plain v c (by rw [h]; simp)).2.2.2.2.2.2⟩

theorem parseOperand_text (op : Operand) : parseOperand op.text = .ok op := by
  have P : ∀ u : Text, (∃ c r, u = c :: r ∧ (IsDigit c ∨ c = '-')) → parseOperand u = (
      match splitParentheses u with
      | none =>
        match literal u with
        | some a => .ok (.absoluteOffset a)
        | none => .error (.refuse .operandForm)
      | some (outside, inside) =>
        match literal outside with
        | none => .error (.refuse .operandForm)
        | some d =>
          match registerText inside with
          | .register (.addressRegister n) => .ok (.offsetAddress d n)
          | .invalid => .error (.error .invalidRegister)
          | _ => .error (.refuse .operandForm)) := by
      intro u hu
      have := registerText_of_number u hu
      obtain ⟨c, r, rfl, hc⟩ := hu
      unfold parseOperand
      split
      · rename_i h; simp at h; obtain ⟨rfl, -⟩ := h; rcases hc with hc | hc
        · obtain ⟨h1, h2⟩ := hc; simp at h1
        · simp at hc
      · rw [this] <;> rfl
  cases op with
  | immediate v => show (match literal (intText v) with | some v => _ | none => _) = _; rw [literal_intText]
  | addressRegister n => revert n; decide
  | dataRegister n => revert n; decide
  | absoluteOffset v =>
    rw [show (Operand.absoluteOffset v).text = intText v from rfl, P _ (intText_cons v)]
    have : splitParentheses (intText v) = none := by
      have := splitAtFirst_append (· == '(') (intText v) [] (fun c hc => by simpa using (intText_plain v c hc).2.1) (.inl rfl)
      rw [List.append_nil] at this
      simp [splitParentheses, this]
    rw [this]; simp only [literal_intText]
  | offsetAddress v n =>
    rw [show (Operand.offsetAddress v n).text = intText v ++ ['(', 'a', digitChar n.val, ')'] from rfl]
    rw [P _ (by obtain ⟨c, r, h, hc⟩ := intText_cons v; exact ⟨c, _, by rw [h]; rfl, hc⟩)]
    have : splitParentheses (intText v ++ ['(', 'a', digitChar n.val, ')']) = some (intText v, ['a', digitChar n.val]) := by
      have := splitAtFirst_append (· == '(') (intText v) ['(', 'a', digitChar n.val, ')'] (fun c hc => by simpa using (intText_plain v c hc).2.1) (.inr ⟨_, _, rfl, rfl⟩)
      simp [splitParentheses, this]
    rw [this]; simp only [literal_intText]
    have : registerText ['a', digitChar n.val] = .register (.addressRegister n) := by clear this P; revert n; decide
    simp only [this]

theorem trimStart_of_no_space (t : Text) (h : ∀ c ∈ t, isSpace c = false) : trimStart t = t := by
  cases t with
  | nil => rfl
  | cons c r => simp [trimStart, h c (by simp)]

theorem trim_of_no_space (t : Text) (h : ∀ c ∈ t, isSpace c = false) : trim t = t := by
  unfold trim; rw [trimStart_of_no_space t h, trimStart_of_no_space _ (by simpa using h)]; simp

theorem commaParts_one (t : Text) (h : ∀ c ∈ t, c ≠ ',') : commaParts t = [t] := by
  induction t with
  | nil => rfl
  | cons c r ih => simp [commaParts, h c (by simp), ih (fun c hc => h c (by simp [hc]))]

theorem commaParts_two (t u : Text) (h : ∀ c ∈ t, c ≠ ',') (hu : ∀ c ∈ u, c ≠ ',') : commaParts (t ++ ',' :: u) = [t, u] := by
  induction t with
  | nil => simp [commaParts, commaParts_one u hu]
  | cons c r ih => simp [commaParts, h c (by simp), ih (fun c hc => h c (by simp [hc]))]

theorem trim_space_cons (t : Text) : trim (' ' :: t) = trim t := by
  unfold trim; rw [show trimStart (' ' :: t) = trimStart t by simp [trimStart, isSpace]]

theorem operandTexts_one (a : Operand) : operandTexts (' ' :: a.text) = [a.text] := by
  obtain ⟨h, hn⟩ := operandText_plain a
  unfold operandTexts; rw [trim_space_cons, trim_of_no_space _ (fun c hc => (h c hc).1)]
  split
  · exact absurd ‹_› hn
  · rw [commaParts_one _ (fun c hc => (h c hc).2)]; simp [trim_of_no_space _ (fun c hc => (h c hc).1)]

theorem operandTexts_two (a b : Operand) : operandTexts (' ' :: (a.text ++ ',' :: b.text)) = [a.text, b.text] := by
  obtain ⟨h, hn⟩ := operandText_plain a
  obtain ⟨h', hn'⟩ := operandText_plain b
  unfold operandTexts; rw [trim_space_cons, trim_of_no_space _ (fun c hc => by
    simp at hc; rcases hc with hc | rfl | hc
    · exact (h c hc).1
    · decide
    · exact (h' c hc).1)]
  split
  · rename_i h; simp at h
  · rw [commaParts_two _ _ (fun c hc => (h c hc).2) (fun c hc => (h' c hc).2)]; simp [trim_of_no_space _ (fun c hc => (h c hc).1), trim_of_no_space _ (fun c hc => (h' c hc).1)]

theorem decodeText_spelled (m : Mnemonic) (sz : Option Size) (field : Text) (hf : field = [] ∨ ∃ c r, field = c :: r ∧ isSpace c = true) (hs : ∀ s, sz = some s → m.takesSize s = true) :
    decodeText (m.text ++ sizeText sz ++ field) = formInstr m (sz.getD .w) field := by
  have hm : ∀ c ∈ m.text, isSpace c = false ∧ c ≠ '.' := by
    intro ch hc; cases m <;> simp [Mnemonic.text] at hc <;> rcases hc with rfl | rfl | rfl | rfl <;> decide
  have hmn : mnemonicOf m.text = some m := by cases m <;> decide
  have e1 : splitAtFirst isSpace (m.text ++ sizeText sz ++ field) = (m.text ++ sizeText sz, field) := by
    apply splitAtFirst_append _ _ _ _ hf
    intro c hc; rcases List.mem_append.1 hc with hc | hc
    · exact (hm c hc).1
    · cases sz with
      | none => simp [sizeText] at hc
      | some s => cases s <;> simp [sizeText, Size.suffix] at hc <;> rcases hc with rfl | rfl <;> decide
  cases sz with
  | none =>
    have e2 := splitAtFirst_append (· == '.') m.text [] (fun c hc => by simpa using (hm c hc).2) (.inl rfl)
    simp at e2
    simp only [sizeText, List.append_nil] at e1 ⊢
    simp [decodeText, e1, splitMnemonic, e2, hmn, checkSize]; rfl
  | some s =>
    have e2 : splitAtFirst (· == '.') (m.text ++ s.suffix) = (m.text, s.suffix) := splitAtFirst_append (· == '.') m.text s.suffix (fun c hc => by simpa using (hm c hc).2) (by cases s <;> exact .inr ⟨_, _, rfl, rfl⟩)
    have hz := hs s rfl
    have hd : ∀ (u suf : Text), splitAtFirst isSpace (u ++ field) = (u, field) → splitMnemonic u = (m.text, some suf) → checkSize m (some suf) = .ok s → decodeText (u ++ field) = formInstr m s field := by
      intro u suf h1 h2 h3
      simp [decodeText, h1, h2, hmn, h3]; rfl
    have H : ∀ ch, s.suffix = ['.', ch] → checkSize m (some [ch]) = .ok s → decodeText (m.text ++ s.suffix ++ field) = formInstr m s field := fun ch h1 h2 =>
      hd _ [ch] e1 (by rw [h1] at e2 ⊢; simp only [splitMnemonic]; rw [e2]) h2
    cases s
    · exact H 'b' rfl (by simp [checkSize, suffixSize, lower, hz])
    · exact H 'w' rfl (by simp [checkSize, suffixSize, lower, hz])
    · exact H 'l' rfl (by simp [checkSize, suffixSize, lower, hz])

theorem formInstr_one (m sz k) (a : Operand) (hf : Mnemonic.format sz m = .f2 k) : formInstr m sz (' ' :: a.text) = .ok (k a) := by
  unfold formInstr; rw [hf, operandTexts_one]; show (parseOperand a.text >>= _) = _; rw [parseOperand_text]; rfl

theorem formInstr_two (m sz k) (a b : Operand) (hf : Mnemonic.format sz m = .f3 k) : formInstr m sz (' ' :: (a.text ++ ',' :: b.text)) = .ok (k a b) := by
  unfold formInstr; rw [hf, operandTexts_two]; show (parseOperand a.text >>= _) = _; rw [parseOperand_text]; show (parseOperand b.text >>= _) = _; rw [parseOperand_text]; rfl

end Sys2Proof
end

