-- ==== Sys2Proof/Laws/Memory.lean ====
section
/-! SUPPORT. The laws of memory: reading after writing, and that every write keeps the canonical form and the address
space (R46, R49 to R58). -/

namespace Sys2Proof.Machine

/-! ### One byte -/

theorem Memory.wf_cons (k : Nat) (v : Byte) (r : Memory) :
    Memory.wf ((k, v) :: r) = true ↔ v ≠ 0 ∧ (∀ c ∈ r, k < c.1) ∧ Memory.wf r = true := by
  simp [Memory.wf, and_assoc]

/-- An address below every listed one reads 0 (R34). -/
theorem Memory.getByte_below (m : Memory) (a : Nat) (h : ∀ c ∈ m, a < c.1) : Memory.getByte m a = 0 := by
  induction m with
  | nil => rfl
  | cons c r ih =>
    obtain ⟨k, v⟩ := c
    have hk : a < k := h (k, v) (by simp)
    have hne : k ≠ a := by omega
    simp only [Memory.getByte, if_neg hne]
    exact ih fun c hc => h c (by simp [hc])

/-- Every address `setByte` lists was listed before, or is the one written. -/
theorem Memory.mem_setByte (m : Memory) (a : Nat) (v : Byte) :
    ∀ c ∈ Memory.setByte m a v, c.1 = a ∨ c ∈ m := by
  induction m with
  | nil => intro c; simp only [Memory.setByte]; split <;> simp; rintro rfl; simp
  | cons d r ih =>
    obtain ⟨k, b⟩ := d
    intro c hc
    simp only [Memory.setByte] at hc
    split at hc
    · split at hc
      · exact .inr hc
      · rcases List.mem_cons.1 hc with rfl | h
        · exact .inl rfl
        · exact .inr h
    · split at hc
      · split at hc
        · exact .inr (List.mem_cons_of_mem _ hc)
        · rcases List.mem_cons.1 hc with rfl | h
          · exact .inl rfl
          · exact .inr (List.mem_cons_of_mem _ h)
      · rcases List.mem_cons.1 hc with rfl | h
        · exact .inr (by simp)
        · exact (ih c h).imp id (List.mem_cons_of_mem _)

/-- A write keeps the canonical form. -/
theorem Memory.wf_setByte (m : Memory) (a : Nat) (v : Byte) (h : Memory.wf m = true) :
    Memory.wf (Memory.setByte m a v) = true := by
  induction m with
  | nil =>
    simp only [Memory.setByte]
    split
    · rfl
    · rename_i hv; exact (Memory.wf_cons a v []).2 ⟨hv, by simp, rfl⟩
  | cons d r ih =>
    obtain ⟨k, b⟩ := d
    obtain ⟨hb, hk, hr⟩ := (Memory.wf_cons k b r).1 h
    simp only [Memory.setByte]
    split
    · rename_i hak
      split
      · exact h
      · rename_i hv
        refine (Memory.wf_cons _ _ _).2 ⟨hv, ?_, h⟩
        intro c hc
        rcases List.mem_cons.1 hc with rfl | hc
        · exact hak
        · exact hak.trans (hk c hc)
    · split
      · rename_i hak
        subst hak
        split
        · exact hr
        · rename_i hv; exact (Memory.wf_cons _ _ _).2 ⟨hv, hk, hr⟩
      · rename_i h1 h2
        refine (Memory.wf_cons _ _ _).2 ⟨hb, ?_, ih hr⟩
        intro c hc
        rcases Memory.mem_setByte r a v c hc with rfl | hc
        · omega
        · exact hk c hc

/-- A write inside the address space keeps every listed address inside it. -/
theorem Memory.inSpace_setByte (m : Memory) (a : Nat) (v : Byte) (h : Memory.inSpace m = true)
    (ha : a ≤ Config.maxAddress) : Memory.inSpace (Memory.setByte m a v) = true := by
  simp only [Memory.inSpace, List.all_eq_true, decide_eq_true_eq] at *
  intro c hc
  rcases Memory.mem_setByte m a v c hc with rfl | hc
  · exact ha
  · exact h c hc

/-- `setByte` then `getByte` elsewhere gives what was there, whatever the form of the list. -/
theorem Memory.getByte_setByte_other (m : Memory) {a b : Nat} (v : Byte) (h : a ≠ b) :
    Memory.getByte (Memory.setByte m a v) b = Memory.getByte m b := by
  induction m with
  | nil => simp only [Memory.setByte]; split <;> simp [Memory.getByte, h]
  | cons d r ih =>
    obtain ⟨k, w⟩ := d
    simp only [Memory.setByte]
    split
    · split
      · rfl
      · simp [Memory.getByte, h]
    · split
      · rename_i hak; subst hak
        split <;> simp [Memory.getByte, h]
      · simp only [Memory.getByte]; split
        · rfl
        · exact ih

/-- `setByte` then `getByte` at the same address gives the value written (R49, R52). -/
theorem Memory.getByte_setByte_self (m : Memory) (a : Nat) (v : Byte) (hm : Memory.wf m = true) :
    Memory.getByte (Memory.setByte m a v) a = v := by
  induction m with
  | nil => simp only [Memory.setByte]; split <;> simp_all [Memory.getByte]
  | cons d r ih =>
    obtain ⟨k, w⟩ := d
    obtain ⟨hw, hk, hr⟩ := (Memory.wf_cons k w r).1 hm
    simp only [Memory.setByte]
    split
    · rename_i hak
      split
      · rename_i hv
        rw [hv]
        refine Memory.getByte_below _ _ fun c hc => ?_
        rcases List.mem_cons.1 hc with rfl | hc
        · exact hak
        · exact hak.trans (hk c hc)
      · simp [Memory.getByte]
    · split
      · rename_i hak; subst hak
        split
        · rename_i hv
          rw [hv]
          exact Memory.getByte_below _ _ hk
        · simp [Memory.getByte]
      · rename_i h1 h2
        have hne : k ≠ a := by omega
        simp only [Memory.getByte, if_neg hne]
        exact ih hr

/-! ### Several bytes -/

theorem Memory.wf_write (n v : Nat) (m : Memory) (a : Nat) (h : Memory.wf m = true) :
    Memory.wf (Memory.write m a n v) = true := by
  induction n generalizing m a with
  | zero => exact h
  | succ n ih => exact ih _ _ (Memory.wf_setByte _ _ _ h)

theorem Memory.inSpace_write (n v : Nat) (m : Memory) (a : Nat) (h : Memory.inSpace m = true)
    (ha : a + n ≤ Config.maxAddress + 1) : Memory.inSpace (Memory.write m a n v) = true := by
  induction n generalizing m a with
  | zero => exact h
  | succ n ih => exact ih _ _ (Memory.inSpace_setByte _ _ _ h (by omega)) (by omega)

/-- A write leaves every byte outside it alone. -/
theorem Memory.getByte_write_outside (n v : Nat) (m : Memory) (a b : Nat) (h : b < a ∨ a + n ≤ b) :
    Memory.getByte (Memory.write m a n v) b = Memory.getByte m b := by
  induction n generalizing m a with
  | zero => rfl
  | succ n ih =>
    simp only [Memory.write]
    rw [ih _ _ (by omega), Memory.getByte_setByte_other _ _ (by omega)]

/-- Byte `k` of a write of `n` bytes is `v`'s byte `n - 1 - k` counted from the low end (R53, R54, R57). -/
theorem Memory.getByte_write_inside (n v : Nat) (m : Memory) (a k : Nat) (hm : Memory.wf m = true) (hk : k < n) :
    Memory.getByte (Memory.write m a n v) (a + k) = BitVec.ofNat 8 (v / 256 ^ (n - 1 - k)) := by
  induction n generalizing m a k with
  | zero => omega
  | succ n ih =>
    simp only [Memory.write]
    cases k with
    | zero =>
      rw [Memory.getByte_write_outside _ _ _ _ _ (by omega)]
      simpa using Memory.getByte_setByte_self m a _ hm
    | succ k =>
      rw [show a + (k + 1) = a + 1 + k by omega, ih _ _ _ (Memory.wf_setByte _ _ _ hm) (by omega)]
      congr 3
      omega

/-- A read is below 256 ^ n. -/
theorem Memory.read_lt (n : Nat) (m : Memory) (a : Nat) : Memory.read m a n < 256 ^ n := by
  induction n generalizing a with
  | zero => simp [Memory.read]
  | succ n ih =>
    have h1 := ih (a + 1)
    have h2 : (Memory.getByte m a).toNat < 256 := (Memory.getByte m a).isLt
    simp only [Memory.read, Nat.pow_succ]
    nlinarith [Nat.pos_of_ne_zero (show 256 ^ n ≠ 0 by positivity)]

/-- Two memories that agree on the bytes read give the same value. -/
theorem Memory.read_congr (n : Nat) (m m' : Memory) (a : Nat)
    (h : ∀ k < n, Memory.getByte m (a + k) = Memory.getByte m' (a + k)) : Memory.read m a n = Memory.read m' a n := by
  induction n generalizing a with
  | zero => rfl
  | succ n ih =>
    simp only [Memory.read]
    rw [show Memory.getByte m a = Memory.getByte m' a from h 0 (by omega), ih (a + 1) fun k hk => by
      simpa [Nat.add_assoc, Nat.add_comm 1 k] using h (k + 1) (by omega)]

/-- `MemWrite` then `MemRead` of the same bytes gives the low `n` bytes of the value (R50 to R54). -/
theorem Memory.read_write_self (n v : Nat) (m : Memory) (a : Nat) (hm : Memory.wf m = true) :
    Memory.read (Memory.write m a n v) a n = v % 256 ^ n := by
  induction n generalizing m a with
  | zero => simp [Memory.read, Nat.mod_one]
  | succ n ih =>
    have h0 := Memory.getByte_write_inside (n + 1) v m a 0 hm (by omega)
    simp only [Nat.add_zero, Nat.add_sub_cancel, Nat.sub_zero] at h0
    simp only [Memory.read, h0]
    rw [Memory.write, ih _ _ (Memory.wf_setByte _ _ _ hm)]
    have hsplit := Nat.mod_mul (x := v) (a := 256 ^ n) (b := 256)
    simp only [BitVec.toNat_ofNat, Nat.pow_succ, hsplit]
    ring

/-- `Valid(a, n)` (R48) in numbers. -/
theorem valid_iff (a : Int) (n : Nat) : valid a n = true ↔ 0 ≤ a ∧ a + n - 1 ≤ 0x7FFFFFFF := by
  simp [valid]

/-! ### The host's writes -/

theorem State.hostSet_mem_ok (s : State) (a : Int) (n : Nat) (v : Int) (hm : Memory.wf s.mem = true)
    (hs : Memory.inSpace s.mem = true) :
    Memory.wf (s.hostSet a n v).mem = true ∧ Memory.inSpace (s.hostSet a n v).mem = true := by
  unfold State.hostSet
  split
  · rename_i hv
    have := (valid_iff a n).1 hv
    exact ⟨Memory.wf_write _ _ _ _ hm, Memory.inSpace_write _ _ _ _ hs (by simp only [Config.maxAddress]; omega)⟩
  · exact ⟨hm, hs⟩

/-- Whatever bytes the host lists, `setMemory` leaves canonical memory inside the address space. -/
theorem State.setMemory_mem_ok (s : State) (bytes : List Host.Cell) :
    Memory.wf (s.setMemory bytes).mem = true ∧ Memory.inSpace (s.setMemory bytes).mem = true := by
  have fold : ∀ (l : List Host.Cell) (m : Memory), (∀ c ∈ l, c.1 ≤ Config.maxAddress) → Memory.wf m = true →
      Memory.inSpace m = true → Memory.wf (l.foldl (fun m c => Memory.setByte m c.1 c.2) m) = true ∧
        Memory.inSpace (l.foldl (fun m c => Memory.setByte m c.1 c.2) m) = true := by
    intro l
    induction l with
    | nil => exact fun m _ h h' => ⟨h, h'⟩
    | cons c r ih =>
      exact fun m hl h h' => ih _ (fun d hd => hl d (List.mem_cons_of_mem _ hd)) (Memory.wf_setByte _ _ _ h)
        (Memory.inSpace_setByte _ _ _ h' (hl c (by simp)))
  exact fold _ [] (fun c hc => by simpa using (List.mem_filter.1 hc).2) rfl rfl

end Sys2Proof.Machine
end

