-- ==== Sys2Proof/Laws/State.lean ====
section
/-! SUPPORT. One lemma per field per update of State, so that no proof unfolds a record update, and the laws of registers
and flags. -/

namespace Sys2Proof.Machine

/-! ### setReg -/

@[simp] theorem State.setReg_pc (s : State) (i : Fin 16) (v : Word) : (s.setReg i v).pc = s.pc := rfl
@[simp] theorem State.setReg_ccr (s : State) (i : Fin 16) (v : Word) : (s.setReg i v).ccr = s.ccr := rfl
@[simp] theorem State.setReg_mem (s : State) (i : Fin 16) (v : Word) : (s.setReg i v).mem = s.mem := rfl
@[simp] theorem State.setReg_exc (s : State) (i : Fin 16) (v : Word) : (s.setReg i v).exc = s.exc := rfl
@[simp] theorem State.setReg_errs (s : State) (i : Fin 16) (v : Word) : (s.setReg i v).errs = s.errs := rfl
@[simp] theorem State.setReg_lastInstr (s : State) (i : Fin 16) (v : Word) : (s.setReg i v).lastInstr = s.lastInstr := rfl
@[simp] theorem State.setReg_line (s : State) (i : Fin 16) (v : Word) : (s.setReg i v).line = s.line := rfl
@[simp] theorem State.setReg_undo (s : State) (i : Fin 16) (v : Word) : (s.setReg i v).undo = s.undo := rfl
@[simp] theorem State.setReg_params (s : State) (i : Fin 16) (v : Word) : (s.setReg i v).params = s.params := rfl

/-! ### writeReg -/

@[simp] theorem State.writeReg_pc (s : State) {w : Nat} (i : Fin 16) (v : BitVec w) : (s.writeReg i v).pc = s.pc := rfl
@[simp] theorem State.writeReg_ccr (s : State) {w : Nat} (i : Fin 16) (v : BitVec w) : (s.writeReg i v).ccr = s.ccr := rfl
@[simp] theorem State.writeReg_mem (s : State) {w : Nat} (i : Fin 16) (v : BitVec w) : (s.writeReg i v).mem = s.mem := rfl
@[simp] theorem State.writeReg_exc (s : State) {w : Nat} (i : Fin 16) (v : BitVec w) : (s.writeReg i v).exc = s.exc := rfl
@[simp] theorem State.writeReg_errs (s : State) {w : Nat} (i : Fin 16) (v : BitVec w) : (s.writeReg i v).errs = s.errs := rfl
@[simp] theorem State.writeReg_lastInstr (s : State) {w : Nat} (i : Fin 16) (v : BitVec w) : (s.writeReg i v).lastInstr = s.lastInstr := rfl
@[simp] theorem State.writeReg_line (s : State) {w : Nat} (i : Fin 16) (v : BitVec w) : (s.writeReg i v).line = s.line := rfl
@[simp] theorem State.writeReg_undo (s : State) {w : Nat} (i : Fin 16) (v : BitVec w) : (s.writeReg i v).undo = s.undo := rfl
@[simp] theorem State.writeReg_params (s : State) {w : Nat} (i : Fin 16) (v : BitVec w) : (s.writeReg i v).params = s.params := rfl

/-! ### setCcr -/

@[simp] theorem State.setCcr_x (s : State) (f : Ccr) : (s.setCcr f).x = s.x := rfl
@[simp] theorem State.setCcr_pc (s : State) (f : Ccr) : (s.setCcr f).pc = s.pc := rfl
@[simp] theorem State.setCcr_ccr (s : State) (f : Ccr) : (s.setCcr f).ccr = f := rfl
@[simp] theorem State.setCcr_mem (s : State) (f : Ccr) : (s.setCcr f).mem = s.mem := rfl
@[simp] theorem State.setCcr_exc (s : State) (f : Ccr) : (s.setCcr f).exc = s.exc := rfl
@[simp] theorem State.setCcr_errs (s : State) (f : Ccr) : (s.setCcr f).errs = s.errs := rfl
@[simp] theorem State.setCcr_lastInstr (s : State) (f : Ccr) : (s.setCcr f).lastInstr = s.lastInstr := rfl
@[simp] theorem State.setCcr_line (s : State) (f : Ccr) : (s.setCcr f).line = s.line := rfl
@[simp] theorem State.setCcr_undo (s : State) (f : Ccr) : (s.setCcr f).undo = s.undo := rfl
@[simp] theorem State.setCcr_params (s : State) (f : Ccr) : (s.setCcr f).params = s.params := rfl
@[simp] theorem State.setCcr_reg (s : State) (f : Ccr) (j : Fin 16) : (s.setCcr f).reg j = s.reg j := rfl

/-! ### setPc -/

@[simp] theorem State.setPc_x (s : State) (p : Int) : (s.setPc p).x = s.x := rfl
@[simp] theorem State.setPc_pc (s : State) (p : Int) : (s.setPc p).pc = p := rfl
@[simp] theorem State.setPc_ccr (s : State) (p : Int) : (s.setPc p).ccr = s.ccr := rfl
@[simp] theorem State.setPc_mem (s : State) (p : Int) : (s.setPc p).mem = s.mem := rfl
@[simp] theorem State.setPc_exc (s : State) (p : Int) : (s.setPc p).exc = s.exc := rfl
@[simp] theorem State.setPc_errs (s : State) (p : Int) : (s.setPc p).errs = s.errs := rfl
@[simp] theorem State.setPc_lastInstr (s : State) (p : Int) : (s.setPc p).lastInstr = s.lastInstr := rfl
@[simp] theorem State.setPc_line (s : State) (p : Int) : (s.setPc p).line = s.line := rfl
@[simp] theorem State.setPc_undo (s : State) (p : Int) : (s.setPc p).undo = s.undo := rfl
@[simp] theorem State.setPc_params (s : State) (p : Int) : (s.setPc p).params = s.params := rfl
@[simp] theorem State.setPc_reg (s : State) (p : Int) (j : Fin 16) : (s.setPc p).reg j = s.reg j := rfl

/-! ### setMem -/

@[simp] theorem State.setMem_x (s : State) (m : Memory) : (s.setMem m).x = s.x := rfl
@[simp] theorem State.setMem_pc (s : State) (m : Memory) : (s.setMem m).pc = s.pc := rfl
@[simp] theorem State.setMem_ccr (s : State) (m : Memory) : (s.setMem m).ccr = s.ccr := rfl
@[simp] theorem State.setMem_mem (s : State) (m : Memory) : (s.setMem m).mem = m := rfl
@[simp] theorem State.setMem_exc (s : State) (m : Memory) : (s.setMem m).exc = s.exc := rfl
@[simp] theorem State.setMem_errs (s : State) (m : Memory) : (s.setMem m).errs = s.errs := rfl
@[simp] theorem State.setMem_lastInstr (s : State) (m : Memory) : (s.setMem m).lastInstr = s.lastInstr := rfl
@[simp] theorem State.setMem_line (s : State) (m : Memory) : (s.setMem m).line = s.line := rfl
@[simp] theorem State.setMem_undo (s : State) (m : Memory) : (s.setMem m).undo = s.undo := rfl
@[simp] theorem State.setMem_params (s : State) (m : Memory) : (s.setMem m).params = s.params := rfl
@[simp] theorem State.setMem_reg (s : State) (m : Memory) (j : Fin 16) : (s.setMem m).reg j = s.reg j := rfl

/-! ### raiseFatal -/

@[simp] theorem State.raiseFatal_x (s : State) (k : FatalKind) : (s.raiseFatal k).x = s.x := rfl
@[simp] theorem State.raiseFatal_pc (s : State) (k : FatalKind) : (s.raiseFatal k).pc = s.pc := rfl
@[simp] theorem State.raiseFatal_ccr (s : State) (k : FatalKind) : (s.raiseFatal k).ccr = s.ccr := rfl
@[simp] theorem State.raiseFatal_mem (s : State) (k : FatalKind) : (s.raiseFatal k).mem = s.mem := rfl
@[simp] theorem State.raiseFatal_errs (s : State) (k : FatalKind) : (s.raiseFatal k).errs = s.errs := rfl
@[simp] theorem State.raiseFatal_lastInstr (s : State) (k : FatalKind) : (s.raiseFatal k).lastInstr = s.lastInstr := rfl
@[simp] theorem State.raiseFatal_line (s : State) (k : FatalKind) : (s.raiseFatal k).line = s.line := rfl
@[simp] theorem State.raiseFatal_undo (s : State) (k : FatalKind) : (s.raiseFatal k).undo = s.undo := rfl
@[simp] theorem State.raiseFatal_params (s : State) (k : FatalKind) : (s.raiseFatal k).params = s.params := rfl
@[simp] theorem State.raiseFatal_reg (s : State) (k : FatalKind) (j : Fin 16) : (s.raiseFatal k).reg j = s.reg j := rfl

/-! ### recordError -/

@[simp] theorem State.recordError_x (s : State) (k : NonFatalKind) : (s.recordError k).x = s.x := rfl
@[simp] theorem State.recordError_pc (s : State) (k : NonFatalKind) : (s.recordError k).pc = s.pc := rfl
@[simp] theorem State.recordError_ccr (s : State) (k : NonFatalKind) : (s.recordError k).ccr = s.ccr := rfl
@[simp] theorem State.recordError_mem (s : State) (k : NonFatalKind) : (s.recordError k).mem = s.mem := rfl
@[simp] theorem State.recordError_exc (s : State) (k : NonFatalKind) : (s.recordError k).exc = s.exc := rfl
@[simp] theorem State.recordError_errs (s : State) (k : NonFatalKind) : (s.recordError k).errs = s.errs ++ [⟨k, s.line⟩] := rfl
@[simp] theorem State.recordError_lastInstr (s : State) (k : NonFatalKind) : (s.recordError k).lastInstr = s.lastInstr := rfl
@[simp] theorem State.recordError_line (s : State) (k : NonFatalKind) : (s.recordError k).line = s.line := rfl
@[simp] theorem State.recordError_undo (s : State) (k : NonFatalKind) : (s.recordError k).undo = s.undo := rfl
@[simp] theorem State.recordError_params (s : State) (k : NonFatalKind) : (s.recordError k).params = s.params := rfl
@[simp] theorem State.recordError_reg (s : State) (k : NonFatalKind) (j : Fin 16) : (s.recordError k).reg j = s.reg j := rfl

/-! ### fetch -/

@[simp] theorem State.fetch_x (s : State) (c : InstrCell) : (s.fetch c).x = s.x := rfl
@[simp] theorem State.fetch_pc (s : State) (c : InstrCell) : (s.fetch c).pc = s.pc + Config.cellUnits := rfl
@[simp] theorem State.fetch_ccr (s : State) (c : InstrCell) : (s.fetch c).ccr = s.ccr := rfl
@[simp] theorem State.fetch_mem (s : State) (c : InstrCell) : (s.fetch c).mem = s.mem := rfl
@[simp] theorem State.fetch_exc (s : State) (c : InstrCell) : (s.fetch c).exc = s.exc := rfl
@[simp] theorem State.fetch_errs (s : State) (c : InstrCell) : (s.fetch c).errs = s.errs := rfl
@[simp] theorem State.fetch_lastInstr (s : State) (c : InstrCell) : (s.fetch c).lastInstr = some c.text := rfl
@[simp] theorem State.fetch_line (s : State) (c : InstrCell) : (s.fetch c).line = some c.line := rfl
@[simp] theorem State.fetch_undo (s : State) (c : InstrCell) : (s.fetch c).undo = s.undo := rfl
@[simp] theorem State.fetch_params (s : State) (c : InstrCell) : (s.fetch c).params = s.params := rfl
@[simp] theorem State.fetch_reg (s : State) (c : InstrCell) (j : Fin 16) : (s.fetch c).reg j = s.reg j := rfl

/-! ### jumpBy -/

@[simp] theorem State.jumpBy_x (s : State) (d : Int) : (s.jumpBy d).x = s.x := rfl
@[simp] theorem State.jumpBy_pc (s : State) (d : Int) : (s.jumpBy d).pc = s.pc + d := rfl
@[simp] theorem State.jumpBy_ccr (s : State) (d : Int) : (s.jumpBy d).ccr = s.ccr := rfl
@[simp] theorem State.jumpBy_mem (s : State) (d : Int) : (s.jumpBy d).mem = s.mem := rfl
@[simp] theorem State.jumpBy_exc (s : State) (d : Int) : (s.jumpBy d).exc = s.exc := rfl
@[simp] theorem State.jumpBy_errs (s : State) (d : Int) : (s.jumpBy d).errs = s.errs := rfl
@[simp] theorem State.jumpBy_lastInstr (s : State) (d : Int) : (s.jumpBy d).lastInstr = s.lastInstr := rfl
@[simp] theorem State.jumpBy_line (s : State) (d : Int) : (s.jumpBy d).line = s.line := rfl
@[simp] theorem State.jumpBy_undo (s : State) (d : Int) : (s.jumpBy d).undo = s.undo := rfl
@[simp] theorem State.jumpBy_params (s : State) (d : Int) : (s.jumpBy d).params = s.params := rfl
@[simp] theorem State.jumpBy_reg (s : State) (d : Int) (j : Fin 16) : (s.jumpBy d).reg j = s.reg j := rfl

/-! ### pushFrame -/

@[simp] theorem State.pushFrame_x (s : State) : s.pushFrame.x = s.x := by
  unfold State.pushFrame; split <;> rfl
@[simp] theorem State.pushFrame_pc (s : State) : s.pushFrame.pc = s.pc := by
  unfold State.pushFrame; split <;> rfl
@[simp] theorem State.pushFrame_ccr (s : State) : s.pushFrame.ccr = s.ccr := by
  unfold State.pushFrame; split <;> rfl
@[simp] theorem State.pushFrame_mem (s : State) : s.pushFrame.mem = s.mem := by
  unfold State.pushFrame; split <;> rfl
@[simp] theorem State.pushFrame_exc (s : State) : s.pushFrame.exc = s.exc := by
  unfold State.pushFrame; split <;> rfl
@[simp] theorem State.pushFrame_errs (s : State) : s.pushFrame.errs = s.errs := by
  unfold State.pushFrame; split <;> rfl
@[simp] theorem State.pushFrame_lastInstr (s : State) : s.pushFrame.lastInstr = s.lastInstr := by
  unfold State.pushFrame; split <;> rfl
@[simp] theorem State.pushFrame_line (s : State) : s.pushFrame.line = s.line := by
  unfold State.pushFrame; split <;> rfl
@[simp] theorem State.pushFrame_params (s : State) : s.pushFrame.params = s.params := by
  unfold State.pushFrame; split <;> rfl

/-! ### Registers -/

theorem State.setReg_reg (s : State) (i j : Fin 16) (v : Word) :
    (s.setReg i v).reg j = if i = j then v else s.reg j := by
  simp only [State.reg, State.setReg, Vector.getElem_set, Fin.ext_iff]

@[simp] theorem State.setReg_reg_self (s : State) (i : Fin 16) (v : Word) : (s.setReg i v).reg i = v := by
  simp [State.setReg_reg]

theorem State.setReg_reg_other (s : State) {i j : Fin 16} (v : Word) (h : i ≠ j) : (s.setReg i v).reg j = s.reg j := by
  simp [State.setReg_reg, h]

theorem State.writeReg_reg_other {w : Nat} (s : State) {i j : Fin 16} (v : BitVec w) (h : i ≠ j) :
    (s.writeReg i v).reg j = s.reg j := s.setReg_reg_other _ h

/-- Bit by bit: the low `w` bits come from the written value, the others stay (R25). -/
theorem getLsbD_replaceLow {w : Nat} (old : Word) (v : BitVec w) (hw : w ≤ 32) (j : Nat) :
    (replaceLow old v).getLsbD j = if j < w then v.getLsbD j else old.getLsbD j := by
  unfold replaceLow
  by_cases h : j < w
  · have h32 : j < 32 := by omega
    simp [h, h32]
  · have hv : v.getLsbD j = false := BitVec.getLsbD_of_ge v j (by omega)
    by_cases h32 : j < 32
    · have hj : w + (j - w) = j := by omega
      simp [h, h32, hv, hj]
    · simp [h, h32, hv, BitVec.getLsbD_of_ge old j (by omega)]

@[simp] theorem State.writeReg_reg_self {w : Nat} (s : State) (i : Fin 16) (v : BitVec w) :
    (s.writeReg i v).reg i = replaceLow (s.reg i) v := by
  simp [State.writeReg]

/-- Reading the low bits of a slot just written at the same width gives the value written (R25). -/
theorem State.readReg_writeReg_self {w : Nat} (s : State) (i : Fin 16) (v : BitVec w) (hw : w ≤ 32) :
    (s.writeReg i v).readReg i w = v := by
  apply BitVec.eq_of_getLsbD_eq
  intro j hj
  simp [State.readReg, getLsbD_replaceLow _ _ hw, hj]

/-- The bits above the width stay (R25). -/
theorem replaceLow_shiftRight {w : Nat} (old : Word) (v : BitVec w) (hw : w ≤ 32) :
    replaceLow old v >>> w = old >>> w := by
  apply BitVec.eq_of_getLsbD_eq
  intro j hj
  simp [BitVec.getLsbD_ushiftRight, getLsbD_replaceLow _ _ hw]

theorem Size.bits_le (sz : Size) : sz.bits ≤ 32 := by cases sz <;> decide

theorem Size.bits_eq (sz : Size) : sz.bits = 8 * sz.bytes := by cases sz <;> rfl

theorem Size.bits_pos (sz : Size) : 0 < sz.bits := by cases sz <;> decide

theorem addressSlot_ne_dataSlot (n m : Fin 8) : addressSlot n ≠ dataSlot m := by
  simp [addressSlot, dataSlot, Fin.ext_iff]; omega

/-! ### Flags -/

@[simp] theorem Ccr.pack_x (x n z v c : Bool) : Ccr.x (Ccr.pack x n z v c) = x := by
  revert x n z v c; decide
@[simp] theorem Ccr.pack_n (x n z v c : Bool) : Ccr.n (Ccr.pack x n z v c) = n := by
  revert x n z v c; decide
@[simp] theorem Ccr.pack_z (x n z v c : Bool) : Ccr.z (Ccr.pack x n z v c) = z := by
  revert x n z v c; decide
@[simp] theorem Ccr.pack_v (x n z v c : Bool) : Ccr.v (Ccr.pack x n z v c) = v := by
  revert x n z v c; decide
@[simp] theorem Ccr.pack_c (x n z v c : Bool) : Ccr.c (Ccr.pack x n z v c) = c := by
  revert x n z v c; decide

/-- The register is its five bits (R26). -/
theorem Ccr.pack_bits (f : Ccr) : Ccr.pack f.x f.n f.z f.v f.c = f := by
  revert f; decide

end Sys2Proof.Machine
end

