-- ==== Sys2Proof/Laws/Operands.lean ====
section
/-! SUPPORT. What reading and writing an operand can do, said once (R97, R98). -/

namespace Sys2Proof.Machine

open Sys2Proof (Operand Size)

/-! ### Reading -/

theorem readOp_of_accessible {op : Operand} {sz : Size} {s : State} (h : accessible op sz s = true) :
    readOp op sz s = .ok (operandValue op sz s) := by simp [readOp, h]

theorem readOp_of_not_accessible {op : Operand} {sz : Size} {s : State} (h : accessible op sz s = false) :
    readOp op sz s = .error (.nonFatal .invalidAddress) := by simp [readOp, h]

theorem readWord_of_accessible {op : Operand} {s : State} (h : accessible op .w s = true) :
    readWord op s = .ok (operandWord op s) := by simp [readWord, h]

theorem readWord_of_not_accessible {op : Operand} {s : State} (h : accessible op .w s = false) :
    readWord op s = .error (.nonFatal .invalidAddress) := by simp [readWord, h]

/-- An operand's address and value depend on registers and memory only. -/
theorem operandValue_congr (op : Operand) (sz : Size) {s t : State} (hx : t.x = s.x) (hm : t.mem = s.mem) :
    operandValue op sz t = operandValue op sz s := by
  cases op <;> simp [operandValue, State.readReg, State.reg, hx, hm]

@[simp] theorem operandValue_setCcr (op : Operand) (sz : Size) (s : State) (f : Ccr) :
    operandValue op sz (s.setCcr f) = operandValue op sz s := operandValue_congr op sz rfl rfl

/-! ### Writing -/

theorem writeOp_of_accessible {op : Operand} {sz : Size} {s : State} (v : BitVec sz.bits)
    (h : accessible op sz s = true) : writeOp op sz v s = .ok (storeOperand op sz v s) := by simp [writeOp, h]

theorem writeOp_of_not_accessible {op : Operand} {sz : Size} {s : State} (v : BitVec sz.bits)
    (h : accessible op sz s = false) : writeOp op sz v s = .error (.nonFatal .invalidAddress) := by simp [writeOp, h]

section store
variable (op : Operand) (sz : Size) (v : BitVec sz.bits) (s : State)

@[simp] theorem storeOperand_pc : (storeOperand op sz v s).pc = s.pc := by cases op <;> rfl
@[simp] theorem storeOperand_ccr : (storeOperand op sz v s).ccr = s.ccr := by cases op <;> rfl
@[simp] theorem storeOperand_exc : (storeOperand op sz v s).exc = s.exc := by cases op <;> rfl
@[simp] theorem storeOperand_errs : (storeOperand op sz v s).errs = s.errs := by cases op <;> rfl
@[simp] theorem storeOperand_lastInstr : (storeOperand op sz v s).lastInstr = s.lastInstr := by cases op <;> rfl
@[simp] theorem storeOperand_line : (storeOperand op sz v s).line = s.line := by cases op <;> rfl
@[simp] theorem storeOperand_undo : (storeOperand op sz v s).undo = s.undo := by cases op <;> rfl
@[simp] theorem storeOperand_params : (storeOperand op sz v s).params = s.params := by cases op <;> rfl

/-- Only the destination register changes. -/
theorem storeOperand_reg_other {i : Fin 16} (h : slotOf op ≠ some i) :
    (storeOperand op sz v s).reg i = s.reg i := by
  cases op <;> simp_all [storeOperand, slotOf, State.writeReg_reg_other]

/-- The destination register keeps its bits above the size (R25). -/
theorem storeOperand_reg_high {i : Fin 16} (h : slotOf op = some i) :
    (storeOperand op sz v s).reg i >>> sz.bits = s.reg i >>> sz.bits := by
  cases op <;> simp_all [storeOperand, slotOf] <;>
    (subst h; simp [replaceLow_shiftRight _ _ (Size.bits_le sz)])

/-- Only the destination's bytes change. -/
theorem storeOperand_getByte_other {b : Nat}
    (h : ∀ a, effectiveAddress op s = some a → b < a.toNat ∨ a.toNat + sz.bytes ≤ b) :
    Memory.getByte (storeOperand op sz v s).mem b = Memory.getByte s.mem b := by
  cases op <;> simp_all [storeOperand, effectiveAddress, State.writeReg, State.setReg, State.setMem,
    Memory.getByte_write_outside]

/-- A write keeps memory canonical. -/
theorem storeOperand_wf (h : Memory.wf s.mem = true) : Memory.wf (storeOperand op sz v s).mem = true := by
  cases op <;> simp_all [storeOperand, State.writeReg, State.setReg, State.setMem, Memory.wf_write]

/-- A write at a valid address keeps memory in the address space (R56). -/
theorem storeOperand_inSpace (h : Memory.inSpace s.mem = true) (ha : accessible op sz s = true) :
    Memory.inSpace (storeOperand op sz v s).mem = true := by
  cases op with
  | absoluteOffset a =>
    simp only [accessible, effectiveAddress, valid_iff] at ha
    exact Memory.inSpace_write _ _ _ _ h (by simp only [Config.maxAddress]; omega)
  | offsetAddress d n =>
    simp only [accessible, effectiveAddress, valid_iff] at ha
    exact Memory.inSpace_write _ _ _ _ h (by simp only [Config.maxAddress]; omega)
  | immediate _ | addressRegister _ | dataRegister _ => exact h

/-- Reading back the operand just written gives the value (R97, R98). -/
theorem operandValue_storeOperand (hi : isImmediate op = false) (hm : Memory.wf s.mem = true) :
    operandValue op sz (storeOperand op sz v s) = v := by
  have hv : v.toNat % 256 ^ sz.bytes = v.toNat := by
    apply Nat.mod_eq_of_lt
    have := v.isLt
    cases sz <;> exact this
  cases op with
  | immediate _ => simp [isImmediate] at hi
  | addressRegister n => exact State.readReg_writeReg_self _ _ _ (Size.bits_le sz)
  | dataRegister n => exact State.readReg_writeReg_self _ _ _ (Size.bits_le sz)
  | absoluteOffset a => simp [operandValue, storeOperand, Memory.read_write_self _ _ _ _ hm, hv]
  | offsetAddress d n => simp [operandValue, storeOperand, Memory.read_write_self _ _ _ _ hm, hv]

end store

end Sys2Proof.Machine
end

