-- ==== Sys2Proof/Laws/Meanings.lean ====
section
/-! SUPPORT. One lemma for each shape of meaning that says when it succeeds and with which state, and one that says what
any success looks like. `exec` of an instruction unfolds to `conclude` of its shape. -/

namespace Sys2Proof.Machine

open Sys2Proof (Operand Size Instr)

/-! ### Concluding -/

@[simp] theorem conclude_ok (s t : State) : conclude s (.ok t) = .next t := rfl
@[simp] theorem conclude_nonFatal (s : State) (k : NonFatalKind) :
    conclude s (.error (.nonFatal k)) = .next (s.recordError k) := rfl
@[simp] theorem conclude_fatal (s : State) (k : FatalKind) :
    conclude s (.error (.fatal k)) = .next (s.raiseFatal k) := rfl
@[simp] theorem conclude_refuse (s : State) (r : Refusal) : conclude s (.error (.refuse r)) = .refused r := rfl

/-- Everything a next state of `conclude` can be. -/
theorem conclude_eq_next {s t : State} {e : Except Event State} (h : conclude s e = .next t) :
    e = .ok t ∨ (∃ k, e = .error (.nonFatal k) ∧ t = s.recordError k) ∨
      (∃ k, e = .error (.fatal k) ∧ t = s.raiseFatal k) := by
  match e, h with
  | .ok _, h => cases h; exact .inl rfl
  | .error (.nonFatal k), h => cases h; exact .inr (.inl ⟨k, rfl, rfl⟩)
  | .error (.fatal k), h => cases h; exact .inr (.inr ⟨k, rfl, rfl⟩)
  | .error (.refuse _), h => cases h

/-- A bind that succeeds has both parts succeed. -/
theorem bind_eq_ok {α β : Type} {x : Except Event α} {f : α → Except Event β} {b : β}
    (h : (x >>= f) = .ok b) : ∃ a, x = .ok a ∧ f a = .ok b := by
  match x, h with
  | .ok a, h => exact ⟨a, rfl, h⟩

/-- A bind fails where its first part fails, or its second after the first succeeded. -/
theorem bind_eq_error {α β : Type} {x : Except Event α} {f : α → Except Event β} {e : Event}
    (h : (x >>= f) = .error e) : x = .error e ∨ ∃ a, x = .ok a ∧ f a = .error e := by
  match x, h with
  | .error _, h => cases h; exact .inl rfl
  | .ok a, h => exact .inr ⟨a, rfl, h⟩

@[simp] theorem ok_bind_except {α β : Type} (a : α) (f : α → Except Event β) :
    ((.ok a : Except Event α) >>= f) = f a := rfl

@[simp] theorem error_bind_except {α β : Type} (e : Event) (f : α → Except Event β) :
    ((.error e : Except Event α) >>= f) = .error e := rfl

/-! ### Reads, writes and legality that succeed -/

theorem readOp_eq_ok {op : Operand} {sz : Size} {s : State} {v : BitVec sz.bits} (h : readOp op sz s = .ok v) :
    accessible op sz s = true ∧ v = operandValue op sz s := by
  unfold readOp at h
  split at h
  · rename_i ha; cases h; exact ⟨ha, rfl⟩
  · cases h

theorem readWord_eq_ok {op : Operand} {s : State} {v : BitVec 16} (h : readWord op s = .ok v) :
    accessible op .w s = true ∧ v = operandWord op s := by
  unfold readWord at h
  split at h
  · rename_i ha; cases h; exact ⟨ha, rfl⟩
  · cases h

theorem writeOp_eq_ok {op : Operand} {sz : Size} {v : BitVec sz.bits} {s t : State} (h : writeOp op sz v s = .ok t) :
    accessible op sz s = true ∧ t = storeOperand op sz v s := by
  unfold writeOp at h
  split at h
  · rename_i ha; cases h; exact ⟨ha, rfl⟩
  · cases h

theorem legalAlu_eq_ok {src dst : Operand} :
    legalAlu src dst = .ok () ↔ isImmediate dst = false ∧ ¬ (isMem src = true ∧ isMem dst = true) := by
  cases src <;> cases dst <;> simp [legalAlu, illegalOperand, isImmediate, isMem]

theorem legalMove_eq_ok {dst : Operand} : legalMove dst = .ok () ↔ isImmediate dst = false := by
  cases dst <;> simp [legalMove, illegalOperand, isImmediate]

theorem legalUnary_eq_ok {dst : Operand} :
    legalUnary dst = .ok () ↔ isImmediate dst = false ∧ isAddressRegister dst = false := by
  cases dst <;> simp [legalUnary, illegalOperand, isImmediate, isAddressRegister]

theorem dataRegisterOnly_eq_ok {op : Operand} {i : Fin 16} (h : dataRegisterOnly op = .ok i) :
    ∃ n, op = .dataRegister n ∧ i = dataSlot n := by
  cases op <;> simp [dataRegisterOnly] at h
  exact ⟨_, rfl, h.symm⟩

theorem registerOnly_eq_ok {op : Operand} {i : Fin 16} (h : registerOnly op = .ok i) : slotOf op = some i := by
  unfold registerOnly at h
  split at h
  · rename_i j hj; cases h; exact hj
  · cases h

theorem legalMulDiv_eq_ok {src dst : Operand} {i : Fin 16} (h : legalMulDiv src dst = .ok i) :
    slotOf dst = some i := by
  cases dst <;> simp [legalMulDiv, slotOf] at h ⊢
  · split at h <;> cases h
  · exact h
  · exact h
  · split at h <;> cases h

theorem displacementOf_eq_ok {op : Operand} {d : Int} (h : displacementOf op = .ok d) : op = .absoluteOffset d := by
  cases op <;> simp [displacementOf] at h
  rw [h]

/-! ### The shapes: when they succeed -/

theorem aluTwo_of_legal (op : {w : Nat} → BitVec w → BitVec w → Ccr → BitVec w × Ccr) {sz : Size} {src dst : Operand}
    {s : State} (hl : legalAlu src dst = .ok ()) (hs : accessible src sz s = true) (hd : accessible dst sz s = true) :
    aluTwo op sz src dst s =
      .ok ((storeOperand dst sz (op (operandValue src sz s) (operandValue dst sz s) s.ccr).1 s).setCcr
        (op (operandValue src sz s) (operandValue dst sz s) s.ccr).2) := by
  simp [aluTwo, hl, readOp_of_accessible hs, readOp_of_accessible hd, writeOp_of_accessible _ hd]

theorem aluOne_of_legal (op : {w : Nat} → BitVec w → Ccr → BitVec w × Ccr) {sz : Size} {dst : Operand}
    {s : State} (hl : legalUnary dst = .ok ()) (hd : accessible dst sz s = true) :
    aluOne op sz dst s =
      .ok ((storeOperand dst sz (op (operandValue dst sz s) s.ccr).1 s).setCcr (op (operandValue dst sz s) s.ccr).2) := by
  simp [aluOne, hl, readOp_of_accessible hd, writeOp_of_accessible _ hd]

theorem shiftInstr_of_legal (op : {w : Nat} → BitVec w → Nat → Ccr → BitVec w × Ccr) {sz : Size} {count dst : Operand}
    {s : State} (hl : legalShift sz count dst = .ok ()) (hd : accessible dst sz s = true) :
    shiftInstr op sz count dst s =
      .ok ((storeOperand dst sz (op (operandValue dst sz s) (shiftCount count s) s.ccr).1 s).setCcr
        (op (operandValue dst sz s) (shiftCount count s) s.ccr).2) := by
  simp [shiftInstr, hl, readOp_of_accessible hd, writeOp_of_accessible _ hd]

theorem multiplyInstr_of_legal (op : BitVec 16 → BitVec 16 → Ccr → Word × Ccr) {src dst : Operand} {s : State}
    {i : Fin 16} (hl : legalMulDiv src dst = .ok i) (hs : accessible src .w s = true) :
    multiplyInstr op src dst s =
      .ok ((s.setReg i (op (operandWord src s) (s.readReg i 16) s.ccr).1).setCcr
        (op (operandWord src s) (s.readReg i 16) s.ccr).2) := by
  simp [multiplyInstr, hl, readWord_of_accessible hs]

theorem divideInstr_of_legal (op : BitVec 16 → Word → Ccr → Option Word × Ccr) {src dst : Operand} {s : State}
    {i : Fin 16} (hl : legalMulDiv src dst = .ok i) (hs : accessible src .w s = true) :
    divideInstr op src dst s =
      if operandWord src s = 0#16 then .error (.fatal .divisionByZero)
      else .ok (divideWrite i (op (operandWord src s) (s.reg i) s.ccr) s) := by
  simp [divideInstr, hl, readWord_of_accessible hs]

/-! ### The shapes: what a success is -/

theorem aluTwo_eq_ok {op : {w : Nat} → BitVec w → BitVec w → Ccr → BitVec w × Ccr} {sz : Size} {src dst : Operand}
    {s t : State} (h : aluTwo op sz src dst s = .ok t) :
    ∃ v f, t = (storeOperand dst sz v s).setCcr f ∧ accessible dst sz s = true ∧
      (v, f) = op (operandValue src sz s) (operandValue dst sz s) s.ccr := by
  obtain ⟨_, _, h⟩ := bind_eq_ok h
  obtain ⟨S, hS, h⟩ := bind_eq_ok h
  obtain ⟨D, hD, h⟩ := bind_eq_ok h
  obtain ⟨u, hu, h⟩ := bind_eq_ok h
  obtain ⟨-, rfl⟩ := readOp_eq_ok hS
  obtain ⟨-, rfl⟩ := readOp_eq_ok hD
  obtain ⟨ha, rfl⟩ := writeOp_eq_ok hu
  cases h
  exact ⟨_, _, rfl, ha, rfl⟩

theorem aluOne_eq_ok {op : {w : Nat} → BitVec w → Ccr → BitVec w × Ccr} {sz : Size} {dst : Operand}
    {s t : State} (h : aluOne op sz dst s = .ok t) :
    ∃ v f, t = (storeOperand dst sz v s).setCcr f ∧ accessible dst sz s = true ∧
      (v, f) = op (operandValue dst sz s) s.ccr := by
  obtain ⟨_, _, h⟩ := bind_eq_ok h
  obtain ⟨D, hD, h⟩ := bind_eq_ok h
  obtain ⟨u, hu, h⟩ := bind_eq_ok h
  obtain ⟨-, rfl⟩ := readOp_eq_ok hD
  obtain ⟨ha, rfl⟩ := writeOp_eq_ok hu
  cases h
  exact ⟨_, _, rfl, ha, rfl⟩

theorem shiftInstr_eq_ok {op : {w : Nat} → BitVec w → Nat → Ccr → BitVec w × Ccr} {sz : Size} {count dst : Operand}
    {s t : State} (h : shiftInstr op sz count dst s = .ok t) :
    ∃ v f, t = (storeOperand dst sz v s).setCcr f ∧ accessible dst sz s = true ∧
      (v, f) = op (operandValue dst sz s) (shiftCount count s) s.ccr := by
  obtain ⟨_, _, h⟩ := bind_eq_ok h
  obtain ⟨D, hD, h⟩ := bind_eq_ok h
  obtain ⟨u, hu, h⟩ := bind_eq_ok h
  obtain ⟨-, rfl⟩ := readOp_eq_ok hD
  obtain ⟨ha, rfl⟩ := writeOp_eq_ok hu
  cases h
  exact ⟨_, _, rfl, ha, rfl⟩

theorem multiplyInstr_eq_ok {op : BitVec 16 → BitVec 16 → Ccr → Word × Ccr} {src dst : Operand} {s t : State}
    (h : multiplyInstr op src dst s = .ok t) :
    ∃ i, slotOf dst = some i ∧ t = (s.setReg i (op (operandWord src s) (s.readReg i 16) s.ccr).1).setCcr
      (op (operandWord src s) (s.readReg i 16) s.ccr).2 := by
  obtain ⟨i, hi, h⟩ := bind_eq_ok h
  obtain ⟨S, hS, h⟩ := bind_eq_ok h
  obtain ⟨-, rfl⟩ := readWord_eq_ok hS
  cases h
  exact ⟨i, legalMulDiv_eq_ok hi, rfl⟩

theorem divideInstr_eq_ok {op : BitVec 16 → Word → Ccr → Option Word × Ccr} {src dst : Operand} {s t : State}
    (h : divideInstr op src dst s = .ok t) :
    ∃ i, slotOf dst = some i ∧ operandWord src s ≠ 0#16 ∧ t = divideWrite i (op (operandWord src s) (s.reg i) s.ccr) s := by
  obtain ⟨i, hi, h⟩ := bind_eq_ok h
  obtain ⟨d, hd, h⟩ := bind_eq_ok h
  obtain ⟨-, rfl⟩ := readWord_eq_ok hd
  split at h
  · cases h
  · rename_i hz; cases h; exact ⟨i, legalMulDiv_eq_ok hi, hz, rfl⟩

theorem branchInstr_eq_ok {taken : Bool} {sz : Size} {target : Operand} {s t : State}
    (h : branchInstr taken sz target s = .ok t) :
    ∃ d, target = .absoluteOffset d ∧ ((taken = false ∧ t = s) ∨ (taken = true ∧ inRange sz d = true ∧ t = s.jumpBy d)) := by
  obtain ⟨d, hd, h⟩ := bind_eq_ok h
  refine ⟨d, displacementOf_eq_ok hd, ?_⟩
  split at h
  · rename_i ht; cases h; exact .inl ⟨by simpa using ht, rfl⟩
  · rename_i ht
    split at h
    · rename_i hr; cases h; exact .inr ⟨by simpa using ht, hr, rfl⟩
    · cases h

theorem pushPc_eq_ok {s t : State} (h : pushPc s = .ok t) :
    valid ((s.reg spSlot + 4).toNat : Int) 4 = true ∧
      t = (s.setReg spSlot (s.reg spSlot + 4)).setMem
        (Memory.write s.mem (s.reg spSlot + 4).toNat 4 (BitVec.ofInt 32 s.pc).toNat) := by
  simp only [pushPc] at h
  split at h
  · rename_i hv; cases h; exact ⟨hv, rfl⟩
  · cases h

/-- No meaning of a shape but the divides raises a fatal exception. -/
theorem not_fatal_of_readOp {op : Operand} {sz : Size} {s : State} {k : FatalKind} :
    readOp op sz s ≠ .error (.fatal k) := by
  unfold readOp; split <;> simp

theorem not_fatal_of_readWord {op : Operand} {s : State} {k : FatalKind} : readWord op s ≠ .error (.fatal k) := by
  unfold readWord; split <;> simp

theorem not_fatal_of_writeOp {op : Operand} {sz : Size} {v : BitVec sz.bits} {s : State} {k : FatalKind} :
    writeOp op sz v s ≠ .error (.fatal k) := by
  unfold writeOp; split <;> simp

theorem not_fatal_of_pushPc {s : State} {k : FatalKind} : pushPc s ≠ .error (.fatal k) := by
  unfold pushPc; simp only []; split <;> simp

end Sys2Proof.Machine
end

