-- ==== Sys2Proof/Laws/Exec.lean ====
section
/-! SUPPORT. What an instruction can do, said once for all of them: a next state of `exec` is an error record, the
division-by-zero exception of a divide, or the instruction's effect. -/

namespace Sys2Proof.Machine

open Sys2Proof (Operand Size Instr)

/-- A store to the destination with new flags, at an address that is valid. -/
def Stores (sz : Size) (dst : Operand) (s t : State) (f : Ccr) : Prop :=
  accessible dst sz s = true ∧ ∃ v, t = (storeOperand dst sz v s).setCcr f

/-- The shape of an instruction's own effect. -/
def Effect (i : Instr) (s t : State) : Prop :=
  match i with
  | .add sz _ dst | .sub sz _ dst | .neg sz dst => ∃ f, Stores sz dst s t f
  | .asl sz _ dst | .asr sz _ dst | .lsl sz _ dst | .lsr sz _ dst | .rol sz _ dst | .ror sz _ dst => ∃ f, Stores sz dst s t f
  | .cmp _ _ _ => ∃ f : Ccr, f.x = s.ccr.x ∧ t = s.setCcr f
  | .move sz _ dst | .and sz _ dst | .or sz _ dst | .eor sz _ dst | .not sz dst | .clr sz dst | .ext sz dst =>
    ∃ f : Ccr, f.x = s.ccr.x ∧ Stores sz dst s t f
  | .swap dst | .mulu _ dst | .muls _ dst =>
    ∃ (f : Ccr) (i : Fin 16) (v : Word), f.x = s.ccr.x ∧ slotOf dst = some i ∧ t = (s.setReg i v).setCcr f
  | .divu src dst | .divs src dst =>
    operandWord src s ≠ 0#16 ∧ ∃ (f : Ccr) (i : Fin 16), f.x = s.ccr.x ∧ slotOf dst = some i ∧
      (t = s.setCcr f ∨ ∃ v, t = (s.setReg i v).setCcr f)
  | .exg op1 op2 =>
    ∃ i j, slotOf op1 = some i ∧ slotOf op2 = some j ∧ t = (s.setReg i (s.reg j)).setReg j (s.reg i)
  | .bra _ op | .beq _ op | .bne _ op | .bge _ op | .bgt _ op | .ble _ op | .blt _ op | .jmp op =>
    ∃ d, op = .absoluteOffset d ∧ (t = s ∨ t = s.jumpBy d)
  | .bsr _ op | .jsr op => ∃ d u, op = .absoluteOffset d ∧ pushPc s = .ok u ∧ t = u.jumpBy d
  | .rts => valid ((s.reg spSlot).toNat : Int) 4 = true ∧
      t = (s.setPc (Memory.read s.mem (s.reg spSlot).toNat 4 : Int)).setReg spSlot (s.reg spSlot - 4)
  | .nonExecutable => t = s

/-- The fatal exception of a divide. -/
def DividesByZero (i : Instr) (s : State) : Prop :=
  ∃ src dst, (i = .divu src dst ∨ i = .divs src dst) ∧ operandWord src s = 0#16

section shapes
variable {s t : State}

/-- A meaning that raises no fatal exception ends in an error record or its effect. -/
theorem conclude_cases {e : Except Event State} {P : Prop} (h : conclude s e = .next t)
    (hf : ∀ k, e ≠ .error (.fatal k)) (hok : e = .ok t → P) : (∃ k, t = s.recordError k) ∨ P := by
  rcases conclude_eq_next h with h | ⟨k, -, rfl⟩ | ⟨k, hk, -⟩
  · exact .inr (hok h)
  · exact .inl ⟨k, rfl⟩
  · exact absurd hk (hf k)

theorem legalAlu_not_fatal {src dst : Operand} {k : FatalKind} : legalAlu src dst ≠ .error (.fatal k) := by
  unfold legalAlu illegalOperand; repeat' split
  all_goals simp

theorem legalMove_not_fatal {dst : Operand} {k : FatalKind} : legalMove dst ≠ .error (.fatal k) := by
  unfold legalMove illegalOperand; split <;> simp

theorem legalUnary_not_fatal {dst : Operand} {k : FatalKind} : legalUnary dst ≠ .error (.fatal k) := by
  unfold legalUnary illegalOperand; split <;> simp

theorem legalShift_not_fatal {sz : Size} {count dst : Operand} {k : FatalKind} :
    legalShift sz count dst ≠ .error (.fatal k) := by
  unfold legalShift illegalOperand; repeat' split
  all_goals simp

theorem legalMulDiv_not_fatal {src dst : Operand} {k : FatalKind} : legalMulDiv src dst ≠ .error (.fatal k) := by
  unfold legalMulDiv; repeat' split
  all_goals simp

theorem displacementOf_not_fatal {op : Operand} {k : FatalKind} : displacementOf op ≠ .error (.fatal k) := by
  cases op <;> simp [displacementOf]

theorem dataRegisterOnly_not_fatal {op : Operand} {k : FatalKind} : dataRegisterOnly op ≠ .error (.fatal k) := by
  cases op <;> simp [dataRegisterOnly]

theorem registerOnly_not_fatal {op : Operand} {k : FatalKind} : registerOnly op ≠ .error (.fatal k) := by
  cases op <;> simp [registerOnly, slotOf]

theorem bind_not_fatal {α β : Type} {x : Except Event α} {f : α → Except Event β}
    (hx : ∀ k, x ≠ .error (.fatal k)) (hf : ∀ a, x = .ok a → ∀ k, f a ≠ .error (.fatal k)) (k : FatalKind) :
    (x >>= f) ≠ .error (.fatal k) := by
  intro h
  rcases bind_eq_error h with h | ⟨a, ha, h⟩
  · exact hx k h
  · exact hf a ha k h

theorem extendRegister_not_fatal {src dst : Nat} {op : Operand} {s : State} {k : FatalKind} :
    extendRegister src dst op s ≠ .error (.fatal k) :=
  bind_not_fatal (fun _ => dataRegisterOnly_not_fatal) (fun _ _ _ h => by cases h) k

/-- What `ext` does when it succeeds: the destination is a data register, its low bits and the flags are written. -/
theorem extendRegister_eq_ok {src dst : Nat} {op : Operand} {s t : State} (h : extendRegister src dst op s = .ok t) :
    ∃ n, op = .dataRegister n ∧
      t = (s.writeReg (dataSlot n) (extOP src dst (s.reg (dataSlot n)) s.ccr).1).setCcr
        (extOP src dst (s.reg (dataSlot n)) s.ccr).2 := by
  obtain ⟨i, hi, h⟩ := bind_eq_ok h
  obtain ⟨n, rfl, rfl⟩ := dataRegisterOnly_eq_ok hi
  cases h
  exact ⟨n, rfl, rfl⟩

theorem aluTwo_not_fatal (op : {w : Nat} → BitVec w → BitVec w → Ccr → BitVec w × Ccr) (sz : Size) (src dst : Operand)
    (k : FatalKind) : aluTwo op sz src dst s ≠ .error (.fatal k) :=
  bind_not_fatal (fun _ => legalAlu_not_fatal) (fun _ _ => bind_not_fatal (fun _ => not_fatal_of_readOp)
    (fun _ _ => bind_not_fatal (fun _ => not_fatal_of_readOp) (fun _ _ => bind_not_fatal
      (fun _ => not_fatal_of_writeOp) (fun _ _ _ h => by cases h)))) k

theorem aluOne_not_fatal (op : {w : Nat} → BitVec w → Ccr → BitVec w × Ccr) (sz : Size) (dst : Operand)
    (k : FatalKind) : aluOne op sz dst s ≠ .error (.fatal k) :=
  bind_not_fatal (fun _ => legalUnary_not_fatal) (fun _ _ => bind_not_fatal (fun _ => not_fatal_of_readOp)
    (fun _ _ => bind_not_fatal (fun _ => not_fatal_of_writeOp) (fun _ _ _ h => by cases h))) k

theorem shiftInstr_not_fatal (op : {w : Nat} → BitVec w → Nat → Ccr → BitVec w × Ccr) (sz : Size) (count dst : Operand)
    (k : FatalKind) : shiftInstr op sz count dst s ≠ .error (.fatal k) :=
  bind_not_fatal (fun _ => legalShift_not_fatal) (fun _ _ => bind_not_fatal (fun _ => not_fatal_of_readOp)
    (fun _ _ => bind_not_fatal (fun _ => not_fatal_of_writeOp) (fun _ _ _ h => by cases h))) k

theorem multiplyInstr_not_fatal (op : BitVec 16 → BitVec 16 → Ccr → Word × Ccr) (src dst : Operand)
    (k : FatalKind) : multiplyInstr op src dst s ≠ .error (.fatal k) :=
  bind_not_fatal (fun _ => legalMulDiv_not_fatal) (fun _ _ => bind_not_fatal (fun _ => not_fatal_of_readWord)
    (fun _ _ _ h => by cases h)) k

theorem branchInstr_not_fatal (taken : Bool) (sz : Size) (op : Operand) (k : FatalKind) :
    branchInstr taken sz op s ≠ .error (.fatal k) :=
  bind_not_fatal (fun _ => displacementOf_not_fatal) (fun _ _ _ h => by
    split at h
    · cases h
    · split at h <;> cases h) k

theorem aluTwo_cases {op : {w : Nat} → BitVec w → BitVec w → Ccr → BitVec w × Ccr} {sz : Size} {src dst : Operand}
    (h : conclude s (aluTwo op sz src dst s) = .next t) :
    (∃ k, t = s.recordError k) ∨
      Stores sz dst s t (op (operandValue src sz s) (operandValue dst sz s) s.ccr).2 :=
  conclude_cases h (aluTwo_not_fatal op sz src dst) fun h => by
    obtain ⟨v, f, rfl, ha, hv⟩ := aluTwo_eq_ok h
    exact ⟨ha, v, by rw [← hv]⟩

theorem aluOne_cases {op : {w : Nat} → BitVec w → Ccr → BitVec w × Ccr} {sz : Size} {dst : Operand}
    (h : conclude s (aluOne op sz dst s) = .next t) :
    (∃ k, t = s.recordError k) ∨ Stores sz dst s t (op (operandValue dst sz s) s.ccr).2 :=
  conclude_cases h (aluOne_not_fatal op sz dst) fun h => by
    obtain ⟨v, f, rfl, ha, hv⟩ := aluOne_eq_ok h
    exact ⟨ha, v, by rw [← hv]⟩

theorem shiftInstr_cases {op : {w : Nat} → BitVec w → Nat → Ccr → BitVec w × Ccr} {sz : Size} {count dst : Operand}
    (h : conclude s (shiftInstr op sz count dst s) = .next t) :
    (∃ k, t = s.recordError k) ∨ ∃ f, Stores sz dst s t f :=
  conclude_cases h (shiftInstr_not_fatal op sz count dst) fun h => by
    obtain ⟨v, f, rfl, ha, -⟩ := shiftInstr_eq_ok h
    exact ⟨f, ha, v, rfl⟩

theorem multiplyInstr_cases {op : BitVec 16 → BitVec 16 → Ccr → Word × Ccr} {src dst : Operand}
    (hx : ∀ a b f, (op a b f).2.x = f.x) (h : conclude s (multiplyInstr op src dst s) = .next t) :
    (∃ k, t = s.recordError k) ∨
      ∃ (f : Ccr) (i : Fin 16) (v : Word), f.x = s.ccr.x ∧ slotOf dst = some i ∧ t = (s.setReg i v).setCcr f :=
  conclude_cases h (multiplyInstr_not_fatal op src dst) fun h => by
    obtain ⟨i, hi, rfl⟩ := multiplyInstr_eq_ok h
    exact ⟨_, i, _, hx _ _ _, hi, rfl⟩

theorem divideInstr_cases {op : BitVec 16 → Word → Ccr → Option Word × Ccr} {src dst : Operand}
    (hx : ∀ a b f, (op a b f).2.x = f.x) (h : conclude s (divideInstr op src dst s) = .next t) :
    (∃ k, t = s.recordError k) ∨ (operandWord src s = 0#16 ∧ t = s.raiseFatal .divisionByZero) ∨
      (operandWord src s ≠ 0#16 ∧ ∃ (f : Ccr) (i : Fin 16), f.x = s.ccr.x ∧ slotOf dst = some i ∧
        (t = s.setCcr f ∨ ∃ v, t = (s.setReg i v).setCcr f)) := by
  rcases conclude_eq_next h with h | ⟨k, -, rfl⟩ | ⟨k, hk, rfl⟩
  · obtain ⟨i, hi, hz, rfl⟩ := divideInstr_eq_ok h
    refine .inr (.inr ⟨hz, (op (operandWord src s) (s.reg i) s.ccr).2, i, hx _ _ _, hi, ?_⟩)
    unfold divideWrite
    split
    · exact .inr ⟨_, rfl⟩
    · exact .inl rfl
  · exact .inl ⟨k, rfl⟩
  · rcases bind_eq_error hk with hk | ⟨i, -, hk⟩
    · exact absurd hk legalMulDiv_not_fatal
    · rcases bind_eq_error hk with hk | ⟨d, hd, hk⟩
      · exact absurd hk not_fatal_of_readWord
      · obtain ⟨-, rfl⟩ := readWord_eq_ok hd
        split at hk
        · rename_i hz; cases hk; exact .inr (.inl ⟨hz, rfl⟩)
        · cases hk

theorem branchInstr_cases {taken : Bool} {sz : Size} {op : Operand}
    (h : conclude s (branchInstr taken sz op s) = .next t) :
    (∃ k, t = s.recordError k) ∨ ∃ d, op = .absoluteOffset d ∧ (t = s ∨ t = s.jumpBy d) :=
  conclude_cases h (branchInstr_not_fatal taken sz op) fun h => by
    obtain ⟨d, rfl, ⟨-, rfl⟩ | ⟨-, -, rfl⟩⟩ := branchInstr_eq_ok h
    · exact ⟨d, rfl, .inl rfl⟩
    · exact ⟨d, rfl, .inr rfl⟩

end shapes

@[simp] theorem cmpOP_x {w : Nat} (S D : BitVec w) (f : Ccr) : Ccr.x (cmpOP S D f) = f.x := by simp [cmpOP]

@[simp] theorem moveFlags_x {w : Nat} (r : BitVec w) (f : Ccr) : Ccr.x (moveFlags r f) = f.x := by simp [moveFlags]

theorem divuOP_x (p : DivOvfPolicy) (a : BitVec 16) (b : Word) (f : Ccr) : Ccr.x (divuOP p a b f).2 = f.x := by
  simp only [divuOP]; split <;> simp [divideOverflowFlags, quotientFlags]

theorem divsOP_x (p : DivOvfPolicy) (a : BitVec 16) (b : Word) (f : Ccr) : Ccr.x (divsOP p a b f).2 = f.x := by
  simp only [divsOP]; split <;> simp [divideOverflowFlags, quotientFlags]

/-- Everything a next state of an instruction can be. -/
theorem exec_cases {i : Instr} {s t : State} (h : exec i s = .next t) :
    (∃ k, t = s.recordError k) ∨ (DividesByZero i s ∧ t = s.raiseFatal .divisionByZero) ∨ Effect i s t := by
  have lift : ∀ {P : Prop}, (∃ k, t = s.recordError k) ∨ P → (P → Effect i s t) →
      (∃ k, t = s.recordError k) ∨ (DividesByZero i s ∧ t = s.raiseFatal .divisionByZero) ∨ Effect i s t :=
    fun h hp => h.imp id fun h => .inr (hp h)
  cases i with
  | add sz src dst => exact lift (aluTwo_cases h) fun h => ⟨_, h⟩
  | sub sz src dst => exact lift (aluTwo_cases h) fun h => ⟨_, h⟩
  | neg sz dst => exact lift (aluOne_cases h) fun h => ⟨_, h⟩
  | and sz src dst => exact lift (aluTwo_cases h) fun h => ⟨_, by simp [andOP, moveOP], h⟩
  | or sz src dst => exact lift (aluTwo_cases h) fun h => ⟨_, by simp [orOP, moveOP], h⟩
  | eor sz src dst => exact lift (aluTwo_cases h) fun h => ⟨_, by simp [eorOP, moveOP], h⟩
  | not sz dst => exact lift (aluOne_cases h) fun h => ⟨_, by simp [notOP, moveOP], h⟩
  | cmp sz src dst =>
    refine lift (conclude_cases h (fun k => bind_not_fatal (fun _ => legalMove_not_fatal) (fun _ _ => bind_not_fatal
      (fun _ => not_fatal_of_readOp) (fun _ _ => bind_not_fatal (fun _ => not_fatal_of_readOp)
        (fun _ _ _ h => by cases h))) k) (P := Effect (.cmp sz src dst) s t) fun h => ?_) id
    obtain ⟨_, -, h⟩ := bind_eq_ok h
    obtain ⟨_, -, h⟩ := bind_eq_ok h
    obtain ⟨_, -, h⟩ := bind_eq_ok h
    cases h
    exact ⟨_, cmpOP_x _ _ _, rfl⟩
  | move sz src dst =>
    refine lift (conclude_cases h (fun k => bind_not_fatal (fun _ => legalMove_not_fatal) (fun _ _ => bind_not_fatal
      (fun _ => not_fatal_of_readOp) (fun _ _ => bind_not_fatal (fun _ => not_fatal_of_writeOp)
        (fun _ _ _ h => by cases h))) k) (P := Effect (.move sz src dst) s t) fun h => ?_) id
    obtain ⟨_, -, h⟩ := bind_eq_ok h
    obtain ⟨_, -, h⟩ := bind_eq_ok h
    obtain ⟨_, hw, h⟩ := bind_eq_ok h
    obtain ⟨ha, rfl⟩ := writeOp_eq_ok hw
    cases h
    exact ⟨_, by simp [moveOP], ha, _, rfl⟩
  | clr sz dst =>
    refine lift (conclude_cases h (fun k => bind_not_fatal (fun _ => legalUnary_not_fatal) (fun _ _ => bind_not_fatal
      (fun _ => not_fatal_of_writeOp) (fun _ _ _ h => by cases h)) k) (P := Effect (.clr sz dst) s t) fun h => ?_) id
    obtain ⟨_, -, h⟩ := bind_eq_ok h
    obtain ⟨_, hw, h⟩ := bind_eq_ok h
    obtain ⟨ha, rfl⟩ := writeOp_eq_ok hw
    cases h
    exact ⟨_, by simp [clrOP, moveOP], ha, _, rfl⟩
  | ext sz op =>
    refine lift (conclude_cases h (fun k => by
      cases sz
      · intro h; cases h
      · exact extendRegister_not_fatal
      · exact extendRegister_not_fatal) (P := Effect (.ext sz op) s t) fun h => ?_) id
    cases sz
    · cases h
    · obtain ⟨n, rfl, rfl⟩ := extendRegister_eq_ok h
      exact ⟨_, by simp [extOP, moveOP], rfl, _, rfl⟩
    · obtain ⟨n, rfl, rfl⟩ := extendRegister_eq_ok h
      exact ⟨_, by simp [extOP, moveOP], rfl, _, rfl⟩
  | swap op =>
    refine lift (conclude_cases h (fun k => bind_not_fatal (fun _ => dataRegisterOnly_not_fatal)
      (fun _ _ _ h => by cases h) k) (P := Effect (.swap op) s t) fun h => ?_) id
    obtain ⟨i, hi, h⟩ := bind_eq_ok h
    obtain ⟨n, rfl, rfl⟩ := dataRegisterOnly_eq_ok hi
    cases h
    exact ⟨_, _, _, by simp [swapOP, moveOP], rfl, rfl⟩
  | exg op1 op2 =>
    refine lift (conclude_cases h (fun k => bind_not_fatal (fun _ => registerOnly_not_fatal) (fun _ _ => bind_not_fatal
      (fun _ => registerOnly_not_fatal) (fun _ _ _ h => by cases h)) k) (P := Effect (.exg op1 op2) s t) fun h => ?_) id
    obtain ⟨i, hi, h⟩ := bind_eq_ok h
    obtain ⟨j, hj, h⟩ := bind_eq_ok h
    cases h
    exact ⟨i, j, registerOnly_eq_ok hi, registerOnly_eq_ok hj, rfl⟩
  | asl sz count dst => exact lift (shiftInstr_cases h) id
  | asr sz count dst => exact lift (shiftInstr_cases h) id
  | lsl sz count dst => exact lift (shiftInstr_cases h) id
  | lsr sz count dst => exact lift (shiftInstr_cases h) id
  | rol sz count dst => exact lift (shiftInstr_cases h) id
  | ror sz count dst => exact lift (shiftInstr_cases h) id
  | mulu src dst => exact lift (multiplyInstr_cases (fun _ _ _ => by simp [muluOP, moveOP]) h) id
  | muls src dst => exact lift (multiplyInstr_cases (fun _ _ _ => by simp [mulsOP, moveOP]) h) id
  | divu src dst =>
    rcases divideInstr_cases (divuOP_x _) h with h | ⟨hz, rfl⟩ | h
    · exact .inl h
    · exact .inr (.inl ⟨⟨src, dst, .inl rfl, hz⟩, rfl⟩)
    · exact .inr (.inr h)
  | divs src dst =>
    rcases divideInstr_cases (divsOP_x _) h with h | ⟨hz, rfl⟩ | h
    · exact .inl h
    · exact .inr (.inl ⟨⟨src, dst, .inr rfl, hz⟩, rfl⟩)
    · exact .inr (.inr h)
  | bra sz op => exact lift (branchInstr_cases h) id
  | beq sz op => exact lift (branchInstr_cases h) id
  | bne sz op => exact lift (branchInstr_cases h) id
  | bge sz op => exact lift (branchInstr_cases h) id
  | bgt sz op => exact lift (branchInstr_cases h) id
  | ble sz op => exact lift (branchInstr_cases h) id
  | blt sz op => exact lift (branchInstr_cases h) id
  | jmp op =>
    refine lift (conclude_cases h (fun k => bind_not_fatal (fun _ => displacementOf_not_fatal)
      (fun _ _ _ h => by cases h) k) (P := Effect (.jmp op) s t) fun h => ?_) id
    obtain ⟨d, hd, h⟩ := bind_eq_ok h
    cases h
    exact ⟨d, displacementOf_eq_ok hd, .inr rfl⟩
  | bsr sz op =>
    refine lift (conclude_cases h (fun k => bind_not_fatal (fun _ => displacementOf_not_fatal) (fun _ _ k h => ?_) k)
      (P := Effect (.bsr sz op) s t) fun h => ?_) id
    · split at h
      · exact bind_not_fatal (fun _ => not_fatal_of_pushPc) (fun _ _ _ h => by cases h) k h
      · cases h
    · obtain ⟨d, hd, h⟩ := bind_eq_ok h
      split at h
      · obtain ⟨u, hu, h⟩ := bind_eq_ok h
        cases h
        exact ⟨d, u, displacementOf_eq_ok hd, hu, rfl⟩
      · cases h
  | jsr op =>
    refine lift (conclude_cases h (fun k => bind_not_fatal (fun _ => displacementOf_not_fatal) (fun _ _ => bind_not_fatal
      (fun _ => not_fatal_of_pushPc) (fun _ _ _ h => by cases h)) k) (P := Effect (.jsr op) s t) fun h => ?_) id
    obtain ⟨d, hd, h⟩ := bind_eq_ok h
    obtain ⟨u, hu, h⟩ := bind_eq_ok h
    cases h
    exact ⟨d, u, displacementOf_eq_ok hd, hu, rfl⟩
  | rts =>
    simp only [exec, execRts] at h
    split at h
    · rename_i hv; cases h; exact .inr (.inr ⟨hv, rfl⟩)
    · cases h; exact .inl ⟨_, rfl⟩
  | nonExecutable => cases h; exact .inr (.inr rfl)

end Sys2Proof.Machine
end

