-- ==== Sys2Proof/Laws/Frames.lean ====
section
/-! SUPPORT. The shared operations in the terms of Safety: what a store frames, the flags of a logical or shifted result,
the legal forms, the branch range, and the push of a call. -/

namespace Sys2Proof.Machine

open Sys2Proof (Operand Size Instr)

theorem beq_zero_eq_decide {w : Nat} (r : BitVec w) : (r == 0#w) = decide (r = 0#w) := by
  rw [Bool.eq_iff_iff]; simp

/-- R122. -/
theorem logicalFlags_moveFlags {w : Nat} (r : BitVec w) (f : Ccr) : LogicalFlags r f (moveFlags r f) := by
  simp [LogicalFlags, moveFlags, BitVec.msb_eq_getLsbD_last, beq_zero_eq_decide]

/-- R125. -/
theorem shiftFlags_spec {w : Nat} (r : BitVec w) (c : Nat) (out v : Bool) (f : Ccr) :
    ShiftFlags r c out f (shiftFlags r c out v f) ∧ Ccr.v (shiftFlags r c out v f) = v := by
  unfold shiftFlags ShiftFlags
  split <;> rename_i h <;> simp [BitVec.msb_eq_getLsbD_last, h, beq_zero_eq_decide]

/-- A store and new flags leave the frame of the destination (R25, R98). -/
theorem dataFrame_store {sz : Size} {dst : Operand} (s : State) (v : BitVec sz.bits) (f : Ccr) :
    DataFrame sz dst s ((storeOperand dst sz v s).setCcr f) := by
  refine ⟨fun i h => ?_, fun i h => ?_, fun b h => ?_, ?_, ?_⟩
  · simpa using storeOperand_reg_other _ _ _ _ h
  · simpa using storeOperand_reg_high _ _ _ _ h
  · simpa using storeOperand_getByte_other _ _ _ _ h
  · simp
  · simp [SameRecords]

theorem Stores.dataFrame {sz : Size} {dst : Operand} {s t : State} {f : Ccr} (h : Stores sz dst s t f) :
    DataFrame sz dst s t ∧ t.ccr = f := by
  obtain ⟨-, v, rfl⟩ := h
  exact ⟨dataFrame_store s v f, rfl⟩

/-- A whole register written and new flags leave the frame of a long register destination. -/
theorem dataFrame_setReg {dst : Operand} {i : Fin 16} (s : State) (v : Word) (f : Ccr) (hi : slotOf dst = some i) :
    DataFrame .l dst s ((s.setReg i v).setCcr f) := by
  refine ⟨fun j h => ?_, fun j _ => ?_, fun b h => rfl, rfl, ⟨rfl, rfl, rfl, rfl, rfl, rfl⟩⟩
  · have : i ≠ j := by rintro rfl; exact h hi
    simp [State.setReg_reg_other _ _ this]
  · apply BitVec.eq_of_getLsbD_eq
    intro k hk
    simp [Size.bits, BitVec.getLsbD_ushiftRight]

/-- The forms R107 calls legal pass its test. -/
theorem legalShift_of_form {sz : Size} {count dst : Operand} (h : ShiftForm sz count dst) :
    legalShift sz count dst = .ok () ∧ isImmediate dst = false := by
  rcases h with ⟨n, rfl, ⟨c, rfl, h0, h8⟩ | ⟨k, rfl⟩⟩ | ⟨hm, rfl, rfl⟩
  · simp [legalShift, h0, h8, Config.maxRegisterCount, isImmediate]
  · simp [legalShift, isImmediate]
  · cases dst <;> simp [isMem] at hm <;> simp [legalShift, isImmediate]

theorem shiftCount_of_countIs {count : Operand} {s : State} {c : Nat} (h : CountIs count s c) : shiftCount count s = c := by
  rcases h with rfl | ⟨k, rfl, rfl⟩ <;> simp [shiftCount]

theorem legalMulDiv_of_slot {src dst : Operand} {i : Fin 16} (h : slotOf dst = some i) :
    legalMulDiv src dst = .ok i := by
  cases dst <;> simp [slotOf] at h <;> simp [legalMulDiv, h]

/-- R191. -/
theorem inRange_iff (sz : Size) (d : Int) : inRange sz d = true ↔ DisplacementFits sz d := by
  cases sz <;> simp [inRange, DisplacementFits, Size.bits] <;> omega

/-- The push of a call where the incremented stack pointer is valid (R194, R202). -/
theorem pushPc_of_valid {s : State} (h : (s.reg spSlot + 4).toNat ≤ 0x7FFFFFFC) :
    pushPc s = .ok ((s.setReg spSlot (s.reg spSlot + 4)).setMem
      (Memory.write s.mem (s.reg spSlot + 4).toNat 4 (BitVec.ofInt 32 s.pc).toNat)) := by
  have : valid ((s.reg spSlot + 4).toNat : Int) 4 = true := by rw [valid_iff]; omega
  simp only [pushPc, this, if_true]

theorem pushPc_of_not_valid {s : State} (h : 0x7FFFFFFC < (s.reg spSlot + 4).toNat) :
    pushPc s = .error (.nonFatal .invalidAddress) := by
  have : valid ((s.reg spSlot + 4).toNat : Int) 4 = false := by
    rw [Bool.eq_false_iff]; intro h; rw [valid_iff] at h; omega
  simp only [pushPc, this]
  rfl

/-- The state after a call. -/
theorem called_of_push {s : State} (d : Int) (hm : Memory.wf s.mem = true) :
    Called d s (((s.setReg spSlot (s.reg spSlot + 4)).setMem
      (Memory.write s.mem (s.reg spSlot + 4).toNat 4 (BitVec.ofInt 32 s.pc).toNat)).jumpBy d) := by
  refine ⟨by simp, fun i hi => by simp [State.setReg_reg_other _ _ hi.symm], ?_, ?_, rfl, rfl, ⟨rfl, rfl, rfl, rfl, rfl, rfl⟩⟩
  · simp only [State.jumpBy_mem, State.setMem_mem]
    rw [Memory.read_write_self _ _ _ _ hm]
    simp only [BitVec.toNat_ofInt]
    omega
  · intro b hb
    exact Memory.getByte_write_outside _ _ _ _ _ hb

/-- The fetch's bookkeeping, the undo stack and the parameters are no instruction's to write. -/
theorem exec_bookkeeping {i : Instr} {s t : State} (h : exec i s = .next t) :
    t.lastInstr = s.lastInstr ∧ t.line = s.line ∧ t.undo = s.undo ∧ t.params = s.params := by
  rcases exec_cases h with ⟨k, rfl⟩ | ⟨-, rfl⟩ | h
  · exact ⟨rfl, rfl, rfl, rfl⟩
  · exact ⟨rfl, rfl, rfl, rfl⟩
  · cases i <;> simp only [Effect] at h
    case cmp => obtain ⟨_, -, rfl⟩ := h; exact ⟨rfl, rfl, rfl, rfl⟩
    case exg => obtain ⟨_, _, -, -, rfl⟩ := h; exact ⟨rfl, rfl, rfl, rfl⟩
    case rts => obtain ⟨_, rfl⟩ := h; exact ⟨rfl, rfl, rfl, rfl⟩
    case nonExecutable => subst h; exact ⟨rfl, rfl, rfl, rfl⟩
    case bsr | jsr =>
      obtain ⟨_, u, -, hu, rfl⟩ := h
      obtain ⟨-, rfl⟩ := pushPc_eq_ok hu
      exact ⟨rfl, rfl, rfl, rfl⟩
    case bra | beq | bne | bge | bgt | ble | blt | jmp =>
      obtain ⟨_, -, h | h⟩ := h <;> rw [h] <;> exact ⟨rfl, rfl, rfl, rfl⟩
    case swap | mulu | muls => obtain ⟨_, _, _, -, -, rfl⟩ := h; exact ⟨rfl, rfl, rfl, rfl⟩
    case divu | divs => obtain ⟨_, _, _, -, -, rfl | ⟨_, rfl⟩⟩ := h <;> exact ⟨rfl, rfl, rfl, rfl⟩
    case add | sub | neg | asl | asr | lsl | lsr | rol | ror => obtain ⟨_, -, _, rfl⟩ := h; simp
    case move | and | or | eor | not | clr | ext => obtain ⟨_, -, -, _, rfl⟩ := h; simp

/-- What a run of a cell can do: its instruction's next state, or its decode error recorded (R73 steps 5 to 7). -/
theorem runCell_cases {s t : State} {c : InstrCell} (h : runCell s c = .next t) :
    (∃ i, decodeCell c = .ok i ∧ exec i s = .next t) ∨ ∃ k, decodeCell c = .error (.error k) ∧ t = s.recordError k := by
  unfold runCell at h
  split at h
  · exact .inl ⟨_, by assumption, h⟩
  · rename_i e he
    cases e <;> simp [stopEvent] at h
    exact .inr ⟨_, he, h.symm⟩

end Sys2Proof.Machine
end

