-- ==== Sys2Proof/Laws/PerInstr.lean ====
section
/-! SUPPORT. Per-instruction laws about the syntax: an instruction is what its mnemonic's format makes of its operands
(30_encoding R83, R85). -/

namespace Sys2Proof

/-- What a format makes of a list of operands, if their number is right. -/
def Format.apply : Format → List Operand → Option Instr
  | .f1 i, [] => some i
  | .f2 make, [a] => some (make a)
  | .f3 make, [a, b] => some (make a b)
  | _, _ => none

end Sys2Proof

/-- The instruction is rebuilt from its mnemonic, its size and its operands; its arity is the format's. -/
def Sys2Proof.Laws.FormatLaw.Statement (i : Sys2Proof.Instr) : Prop :=
  ∀ m, i.mnemonic = some m →
    Sys2Proof.Format.apply (m.format (i.size.getD .w)) i.operands = some i ∧
      i.operands.length = (m.format (i.size.getD .w)).arity

theorem Sys2Proof.Laws.FormatLaw.add (sz : Sys2Proof.Size) (src : Sys2Proof.Operand) (dst : Sys2Proof.Operand) : Sys2Proof.Laws.FormatLaw.Statement (.add sz src dst) := by
  intro m h; cases h; exact ⟨rfl, rfl⟩

theorem Sys2Proof.Laws.FormatLaw.sub (sz : Sys2Proof.Size) (src : Sys2Proof.Operand) (dst : Sys2Proof.Operand) : Sys2Proof.Laws.FormatLaw.Statement (.sub sz src dst) := by
  intro m h; cases h; exact ⟨rfl, rfl⟩

theorem Sys2Proof.Laws.FormatLaw.cmp (sz : Sys2Proof.Size) (src : Sys2Proof.Operand) (dst : Sys2Proof.Operand) : Sys2Proof.Laws.FormatLaw.Statement (.cmp sz src dst) := by
  intro m h; cases h; exact ⟨rfl, rfl⟩

theorem Sys2Proof.Laws.FormatLaw.neg (sz : Sys2Proof.Size) (dst : Sys2Proof.Operand) : Sys2Proof.Laws.FormatLaw.Statement (.neg sz dst) := by
  intro m h; cases h; exact ⟨rfl, rfl⟩

theorem Sys2Proof.Laws.FormatLaw.move (sz : Sys2Proof.Size) (src : Sys2Proof.Operand) (dst : Sys2Proof.Operand) : Sys2Proof.Laws.FormatLaw.Statement (.move sz src dst) := by
  intro m h; cases h; exact ⟨rfl, rfl⟩

theorem Sys2Proof.Laws.FormatLaw.and (sz : Sys2Proof.Size) (src : Sys2Proof.Operand) (dst : Sys2Proof.Operand) : Sys2Proof.Laws.FormatLaw.Statement (.and sz src dst) := by
  intro m h; cases h; exact ⟨rfl, rfl⟩

theorem Sys2Proof.Laws.FormatLaw.or (sz : Sys2Proof.Size) (src : Sys2Proof.Operand) (dst : Sys2Proof.Operand) : Sys2Proof.Laws.FormatLaw.Statement (.or sz src dst) := by
  intro m h; cases h; exact ⟨rfl, rfl⟩

theorem Sys2Proof.Laws.FormatLaw.eor (sz : Sys2Proof.Size) (src : Sys2Proof.Operand) (dst : Sys2Proof.Operand) : Sys2Proof.Laws.FormatLaw.Statement (.eor sz src dst) := by
  intro m h; cases h; exact ⟨rfl, rfl⟩

theorem Sys2Proof.Laws.FormatLaw.not (sz : Sys2Proof.Size) (dst : Sys2Proof.Operand) : Sys2Proof.Laws.FormatLaw.Statement (.not sz dst) := by
  intro m h; cases h; exact ⟨rfl, rfl⟩

theorem Sys2Proof.Laws.FormatLaw.clr (sz : Sys2Proof.Size) (dst : Sys2Proof.Operand) : Sys2Proof.Laws.FormatLaw.Statement (.clr sz dst) := by
  intro m h; cases h; exact ⟨rfl, rfl⟩

theorem Sys2Proof.Laws.FormatLaw.ext (sz : Sys2Proof.Size) (op : Sys2Proof.Operand) : Sys2Proof.Laws.FormatLaw.Statement (.ext sz op) := by
  intro m h; cases h; exact ⟨rfl, rfl⟩

theorem Sys2Proof.Laws.FormatLaw.swap (op : Sys2Proof.Operand) : Sys2Proof.Laws.FormatLaw.Statement (.swap op) := by
  intro m h; cases h; exact ⟨rfl, rfl⟩

theorem Sys2Proof.Laws.FormatLaw.exg (op1 : Sys2Proof.Operand) (op2 : Sys2Proof.Operand) : Sys2Proof.Laws.FormatLaw.Statement (.exg op1 op2) := by
  intro m h; cases h; exact ⟨rfl, rfl⟩

theorem Sys2Proof.Laws.FormatLaw.asl (sz : Sys2Proof.Size) (count : Sys2Proof.Operand) (dst : Sys2Proof.Operand) : Sys2Proof.Laws.FormatLaw.Statement (.asl sz count dst) := by
  intro m h; cases h; exact ⟨rfl, rfl⟩

theorem Sys2Proof.Laws.FormatLaw.asr (sz : Sys2Proof.Size) (count : Sys2Proof.Operand) (dst : Sys2Proof.Operand) : Sys2Proof.Laws.FormatLaw.Statement (.asr sz count dst) := by
  intro m h; cases h; exact ⟨rfl, rfl⟩

theorem Sys2Proof.Laws.FormatLaw.lsl (sz : Sys2Proof.Size) (count : Sys2Proof.Operand) (dst : Sys2Proof.Operand) : Sys2Proof.Laws.FormatLaw.Statement (.lsl sz count dst) := by
  intro m h; cases h; exact ⟨rfl, rfl⟩

theorem Sys2Proof.Laws.FormatLaw.lsr (sz : Sys2Proof.Size) (count : Sys2Proof.Operand) (dst : Sys2Proof.Operand) : Sys2Proof.Laws.FormatLaw.Statement (.lsr sz count dst) := by
  intro m h; cases h; exact ⟨rfl, rfl⟩

theorem Sys2Proof.Laws.FormatLaw.rol (sz : Sys2Proof.Size) (count : Sys2Proof.Operand) (dst : Sys2Proof.Operand) : Sys2Proof.Laws.FormatLaw.Statement (.rol sz count dst) := by
  intro m h; cases h; exact ⟨rfl, rfl⟩

theorem Sys2Proof.Laws.FormatLaw.ror (sz : Sys2Proof.Size) (count : Sys2Proof.Operand) (dst : Sys2Proof.Operand) : Sys2Proof.Laws.FormatLaw.Statement (.ror sz count dst) := by
  intro m h; cases h; exact ⟨rfl, rfl⟩

theorem Sys2Proof.Laws.FormatLaw.mulu (src : Sys2Proof.Operand) (dst : Sys2Proof.Operand) : Sys2Proof.Laws.FormatLaw.Statement (.mulu src dst) := by
  intro m h; cases h; exact ⟨rfl, rfl⟩

theorem Sys2Proof.Laws.FormatLaw.muls (src : Sys2Proof.Operand) (dst : Sys2Proof.Operand) : Sys2Proof.Laws.FormatLaw.Statement (.muls src dst) := by
  intro m h; cases h; exact ⟨rfl, rfl⟩

theorem Sys2Proof.Laws.FormatLaw.divu (src : Sys2Proof.Operand) (dst : Sys2Proof.Operand) : Sys2Proof.Laws.FormatLaw.Statement (.divu src dst) := by
  intro m h; cases h; exact ⟨rfl, rfl⟩

theorem Sys2Proof.Laws.FormatLaw.divs (src : Sys2Proof.Operand) (dst : Sys2Proof.Operand) : Sys2Proof.Laws.FormatLaw.Statement (.divs src dst) := by
  intro m h; cases h; exact ⟨rfl, rfl⟩

theorem Sys2Proof.Laws.FormatLaw.bra (sz : Sys2Proof.Size) (target : Sys2Proof.Operand) : Sys2Proof.Laws.FormatLaw.Statement (.bra sz target) := by
  intro m h; cases h; exact ⟨rfl, rfl⟩

theorem Sys2Proof.Laws.FormatLaw.bsr (sz : Sys2Proof.Size) (target : Sys2Proof.Operand) : Sys2Proof.Laws.FormatLaw.Statement (.bsr sz target) := by
  intro m h; cases h; exact ⟨rfl, rfl⟩

theorem Sys2Proof.Laws.FormatLaw.beq (sz : Sys2Proof.Size) (target : Sys2Proof.Operand) : Sys2Proof.Laws.FormatLaw.Statement (.beq sz target) := by
  intro m h; cases h; exact ⟨rfl, rfl⟩

theorem Sys2Proof.Laws.FormatLaw.bne (sz : Sys2Proof.Size) (target : Sys2Proof.Operand) : Sys2Proof.Laws.FormatLaw.Statement (.bne sz target) := by
  intro m h; cases h; exact ⟨rfl, rfl⟩

theorem Sys2Proof.Laws.FormatLaw.bge (sz : Sys2Proof.Size) (target : Sys2Proof.Operand) : Sys2Proof.Laws.FormatLaw.Statement (.bge sz target) := by
  intro m h; cases h; exact ⟨rfl, rfl⟩

theorem Sys2Proof.Laws.FormatLaw.bgt (sz : Sys2Proof.Size) (target : Sys2Proof.Operand) : Sys2Proof.Laws.FormatLaw.Statement (.bgt sz target) := by
  intro m h; cases h; exact ⟨rfl, rfl⟩

theorem Sys2Proof.Laws.FormatLaw.ble (sz : Sys2Proof.Size) (target : Sys2Proof.Operand) : Sys2Proof.Laws.FormatLaw.Statement (.ble sz target) := by
  intro m h; cases h; exact ⟨rfl, rfl⟩

theorem Sys2Proof.Laws.FormatLaw.blt (sz : Sys2Proof.Size) (target : Sys2Proof.Operand) : Sys2Proof.Laws.FormatLaw.Statement (.blt sz target) := by
  intro m h; cases h; exact ⟨rfl, rfl⟩

theorem Sys2Proof.Laws.FormatLaw.jmp (target : Sys2Proof.Operand) : Sys2Proof.Laws.FormatLaw.Statement (.jmp target) := by
  intro m h; cases h; exact ⟨rfl, rfl⟩

theorem Sys2Proof.Laws.FormatLaw.jsr (target : Sys2Proof.Operand) : Sys2Proof.Laws.FormatLaw.Statement (.jsr target) := by
  intro m h; cases h; exact ⟨rfl, rfl⟩

theorem Sys2Proof.Laws.FormatLaw.rts : Sys2Proof.Laws.FormatLaw.Statement .rts := by
  intro m h; cases h; exact ⟨rfl, rfl⟩

theorem Sys2Proof.Laws.FormatLaw.nonExecutable : Sys2Proof.Laws.FormatLaw.Statement .nonExecutable := by
  intro m h; cases h
end

