-- ==== Sys2Proof/Laws/Step.lean ====
section
/-! SUPPORT. What the first half of a step can do, said once (R73 steps 1 to 4). -/

namespace Sys2Proof.Machine

theorem State.halted_iff (s : State) :
    s.halted = true ↔ s.exc ≠ none ∨ 4 * (s.params.program.length : Int) ≤ s.pc := by
  unfold State.halted
  rw [Bool.or_eq_true, decide_eq_true_iff, Option.isSome_iff_ne_none]
  rfl

theorem State.pcAligned_iff (s : State) : s.pcAligned = true ↔ 0 ≤ s.pc ∧ s.pc % 4 = 0 := by
  simp [State.pcAligned, Config.cellUnits]

/-- A state whose next step executes a cell is not halted. -/
theorem Ready.pc_lt {s : State} {c : InstrCell} (h : Ready s c) : s.pc < 4 * (s.params.program.length : Int) := by
  obtain ⟨-, h0, h4, hc⟩ := h
  have := (List.getElem?_eq_some_iff.1 hc).1
  omega

/-- The frame pushed and the cell fetched (R78, R79). -/
theorem pushFrame_fetch_eq (s : State) (c : InstrCell) : s.pushFrame.fetch c = fetchedState s c := by
  unfold State.pushFrame State.fetch fetchedState State.frame
  split <;> rfl

/-- A ready state is fetched from. -/
theorem beginStep_of_ready {s : State} {c : InstrCell} (h : Ready s c) :
    s.beginStep = .cell (fetchedState s c) c := by
  have hlt := h.pc_lt
  obtain ⟨he, h0, h4, hc⟩ := h
  have hh : s.halted = false := by
    rw [Bool.eq_false_iff]; intro hh
    rcases (State.halted_iff s).1 hh with h | h
    · exact h he
    · omega
  have ha : s.pcAligned = true := (State.pcAligned_iff s).2 ⟨h0, h4⟩
  have hcell : s.currentCell = some c := hc
  simp [State.beginStep, hh, ha, hcell, pushFrame_fetch_eq]

/-- A halted state is left as it is (R75). -/
theorem beginStep_of_halted {s : State} (h : s.halted = true) : s.beginStep = .stop s := by
  simp [State.beginStep, h]

/-- A pc that cannot be fetched at raises the fatal exception (R77). -/
theorem beginStep_of_bad_pc {s : State} (h : s.halted = false) (hp : s.pcAligned = false) :
    s.beginStep = .stop (s.raiseFatal .invalidPC) := by
  simp [State.beginStep, h, hp]

/-- Everything the first half of a step can do. -/
theorem beginStep_cases (s : State) :
    (s.halted = true ∧ s.beginStep = .stop s) ∨
    (s.halted = false ∧ s.pcAligned = false ∧ s.beginStep = .stop (s.raiseFatal .invalidPC)) ∨
    (∃ c, Ready s c ∧ s.beginStep = .cell (fetchedState s c) c) := by
  by_cases hh : s.halted = true
  · exact .inl ⟨hh, beginStep_of_halted hh⟩
  · have hh' : s.halted = false := by simpa using hh
    by_cases ha : s.pcAligned = true
    · obtain ⟨h0, h4⟩ := (State.pcAligned_iff s).1 ha
      have hne : s.exc = none ∧ s.pc < 4 * (s.params.program.length : Int) := by
        constructor
        · by_contra hx; exact hh ((State.halted_iff s).2 (.inl hx))
        · by_contra hx; exact hh ((State.halted_iff s).2 (.inr (by omega)))
      have hlen : (s.pc / 4).toNat < s.params.program.length := by omega
      have hr : Ready s (s.params.program[(s.pc / 4).toNat]) :=
        ⟨hne.1, h0, h4, List.getElem?_eq_getElem hlen⟩
      exact .inr (.inr ⟨_, hr, beginStep_of_ready hr⟩)
    · have ha' : s.pcAligned = false := by simpa using ha
      exact .inr (.inl ⟨hh', ha', beginStep_of_bad_pc hh' ha'⟩)

/-- A step from a ready state runs the cell. -/
theorem step_of_ready {s : State} {c : InstrCell} (h : Ready s c) : step s = runCell (fetchedState s c) c := by
  simp [step, beginStep_of_ready h]

end Sys2Proof.Machine
end

