-- ==== Sys2Proof/Tests/Slice0.lean ====
section
/-! SUPPORT. The model's own tests. Expected results come from the spec: the tables of 95_test_vectors (their ids stand
above the tests) and the encodings of opcode_table.json. A witness shows a state and operands that meet all the hypotheses
of a statement of Certificates/Slice0/Obligations, one for each of its clauses, at a boundary where there is one. -/

namespace Sys2Proof.Tests

open Sys2Proof Sys2Proof.Machine

/-! ### Helpers -/

def textCell (t : String) (line : Int) : InstrCell := ⟨t.toList, line, false⟩

/-- Launched with the cells, empty memory and the default parameters. -/
def load (cells : List InstrCell) : State := State.launch ⟨cells, [], none, Config.default⟩

/-- One cell at index 0, source line 1. -/
def one (t : String) : State := load [textCell t 1]

def underConfig (c : Config) (s : State) : State := { s with params := { s.params with config := c } }

/-- The step answers a next state with the property. -/
def after (s : State) (p : State → Bool) : Bool :=
  match step s with
  | .next t => p t
  | _ => false

/-- The step records the error, leaves everything else and moves to the next cell. -/
def records (s : State) (k : NonFatalKind) : Bool :=
  after s fun t => t.errs == [⟨k, some 1⟩] && t.x == s.x && t.ccr == s.ccr && t.mem == s.mem && t.exc == none && t.pc == 4

def refuses (s : State) (r : Refusal) : Bool :=
  match step s with
  | .refused q => q == r
  | _ => false

/-! ### Well-formedness (R110) -/

theorem test_wf_ext_byte_refused : (Instr.ext .b (.dataRegister 0)).wf = false := by decide
theorem test_wf_ext_word : (Instr.ext .w (.dataRegister 0)).wf = true := by decide
theorem test_wf_ext_long : (Instr.ext .l (.dataRegister 0)).wf = true := by decide
theorem test_wf_sizes_of_the_text :
    [Mnemonic.swap, .mulu, .muls, .divu, .divs].all (fun m => !m.takesSize .b && m.takesSize .w && !m.takesSize .l) ∧
    (!Mnemonic.takesSize .exg .b && !Mnemonic.takesSize .exg .w && Mnemonic.takesSize .exg .l) ∧
    [Mnemonic.jmp, .jsr, .rts].all (fun m => !m.takesSize .b && !m.takesSize .w && !m.takesSize .l) := by decide

/-! ### Decoding: a text of each row of the table, from its encoding (opcode_table.json) -/

theorem test_decode_add : decodeText "add.l d0,a1".toList = .ok (.add .l (.dataRegister 0) (.addressRegister 1)) := by decide
theorem test_decode_sub : decodeText "sub.b $10,d1".toList = .ok (.sub .b (.absoluteOffset 16) (.dataRegister 1)) := by decide
theorem test_decode_cmp : decodeText "cmp #%101,d2".toList = .ok (.cmp .w (.immediate 5) (.dataRegister 2)) := by decide
theorem test_decode_neg : decodeText "neg.w -4(sp)".toList = .ok (.neg .w (.offsetAddress (-4) 7)) := by decide
theorem test_decode_move : decodeText "move.l #-1,$FFF(a3)".toList = .ok (.move .l (.immediate (-1)) (.offsetAddress 0xFFF 3)) := by decide
theorem test_decode_and : decodeText "and.b d7,a0".toList = .ok (.and .b (.dataRegister 7) (.addressRegister 0)) := by decide
theorem test_decode_or : decodeText "or.l 12,d3".toList = .ok (.or .l (.absoluteOffset 12) (.dataRegister 3)) := by decide
theorem test_decode_eor : decodeText "eor.w #$ff,d4".toList = .ok (.eor .w (.immediate 255) (.dataRegister 4)) := by decide
theorem test_decode_not : decodeText "not.l d5".toList = .ok (.not .l (.dataRegister 5)) := by decide
theorem test_decode_clr : decodeText "clr.b $2000".toList = .ok (.clr .b (.absoluteOffset 0x2000)) := by decide
theorem test_decode_ext : decodeText "ext.l d6".toList = .ok (.ext .l (.dataRegister 6)) := by decide
theorem test_decode_swap : decodeText "swap.w d0".toList = .ok (.swap (.dataRegister 0)) := by decide
theorem test_decode_exg : decodeText "exg.l d0,a7".toList = .ok (.exg (.dataRegister 0) (.addressRegister 7)) := by decide
theorem test_decode_asl : decodeText "asl.b #8,d0".toList = .ok (.asl .b (.immediate 8) (.dataRegister 0)) := by decide
theorem test_decode_asr : decodeText "asr.w d1,d0".toList = .ok (.asr .w (.dataRegister 1) (.dataRegister 0)) := by decide
theorem test_decode_lsl : decodeText "lsl.l #0,d2".toList = .ok (.lsl .l (.immediate 0) (.dataRegister 2)) := by decide
theorem test_decode_lsr : decodeText "lsr #1,6(a1)".toList = .ok (.lsr .w (.immediate 1) (.offsetAddress 6 1)) := by decide
theorem test_decode_rol : decodeText "rol.b d3,d4".toList = .ok (.rol .b (.dataRegister 3) (.dataRegister 4)) := by decide
theorem test_decode_ror : decodeText "ror.w #1,$100".toList = .ok (.ror .w (.immediate 1) (.absoluteOffset 0x100)) := by decide
theorem test_decode_mulu : decodeText "mulu.w d0,d1".toList = .ok (.mulu (.dataRegister 0) (.dataRegister 1)) := by decide
theorem test_decode_muls : decodeText "muls #-2,a2".toList = .ok (.muls (.immediate (-2)) (.addressRegister 2)) := by decide
theorem test_decode_divu : decodeText "divu $7FFFFFFE,d0".toList = .ok (.divu (.absoluteOffset 0x7FFFFFFE) (.dataRegister 0)) := by decide
theorem test_decode_divs : decodeText "divs.w d1,d0".toList = .ok (.divs (.dataRegister 1) (.dataRegister 0)) := by decide
theorem test_decode_bra : decodeText "bra.b -128".toList = .ok (.bra .b (.absoluteOffset (-128))) := by decide
theorem test_decode_bsr : decodeText "bsr 8".toList = .ok (.bsr .w (.absoluteOffset 8)) := by decide
theorem test_decode_beq : decodeText "beq.l 32768".toList = .ok (.beq .l (.absoluteOffset 32768)) := by decide
theorem test_decode_bne : decodeText "bne.w -12".toList = .ok (.bne .w (.absoluteOffset (-12))) := by decide
theorem test_decode_bge : decodeText "bge 4".toList = .ok (.bge .w (.absoluteOffset 4)) := by decide
theorem test_decode_bgt : decodeText "bgt.b 4".toList = .ok (.bgt .b (.absoluteOffset 4)) := by decide
theorem test_decode_ble : decodeText "ble.w 4".toList = .ok (.ble .w (.absoluteOffset 4)) := by decide
theorem test_decode_blt : decodeText "blt.l 4".toList = .ok (.blt .l (.absoluteOffset 4)) := by decide
theorem test_decode_jmp : decodeText "jmp 40".toList = .ok (.jmp (.absoluteOffset 40)) := by decide
theorem test_decode_jsr : decodeText "jsr -8".toList = .ok (.jsr (.absoluteOffset (-8))) := by decide
theorem test_decode_rts : decodeText "rts".toList = .ok (.rts) := by decide

/-- V-DEC-37: the text of a non-executable slot is not decoded. -/
theorem test_decode_nonExecutable : decodeCell ⟨"LOOP:".toList, 1, true⟩ = .ok .nonExecutable := by decide

/-- R72: white space around the operands is dropped, letters are of either case. -/
theorem test_decode_spaces_and_case :
    decodeText "MOVE.L   SP ,  $Ff( A0 ) ".toList = .error (.refuse .operandForm) ∧
    decodeText "MOVE.L   SP ,  $Ff(A0) ".toList = .ok (.move .l (.addressRegister 7) (.offsetAddress 255 0)) := by decide

/-! Decode errors (V-DEC-3 to V-DEC-8, V-DEC-35, V-DEC-36): recorded, nothing else changes. -/

theorem test_error_bad_suffix : records (one "add.x d0,d1") .invalidSize = true := by decide
theorem test_error_short_branch_suffix : records (one "bra.s 4") .invalidSize = true := by decide
theorem test_error_too_few_operands : records (one "add.l d0") .wrongArity = true := by decide
theorem test_error_too_many_operands : records (one "rts d0") .wrongArity = true := by decide
theorem test_error_register_number : records (one "add.l d8,d0") .invalidRegister = true := by decide
theorem test_error_base_register_number : records (one "move.l 4(a9),d0") .invalidRegister = true := by decide
theorem test_error_suffix_before_operand : records (one "ext.x a0") .invalidSize = true := by decide
theorem test_error_arity_before_operand : records (one "add.l d9") .wrongArity = true := by decide
/-- R83, R99(d): every comma separates, so an indexed operand makes two parts, before any operand is read. -/
theorem test_error_arity_of_indexed_operand :
    records (one "move.l 4(a0,d1),d0") .wrongArity = true ∧ records (one "move.l d9,4(a0,d1)") .wrongArity = true ∧
    records (one "clr.l 4(a0,d1)") .wrongArity = true ∧ records (one "swap (d0,d1") .wrongArity = true := by decide

/-! Decode refusals (V-DEC-23, V-DEC-27 to V-DEC-34). -/

theorem test_refuse_unknown_mnemonic : refuses (one "lea 4(a0),a1") .unknownMnemonic = true := by decide
theorem test_refuse_mnemonic_before_suffix : refuses (one "foo.x d0") .unknownMnemonic = true := by decide
theorem test_refuse_size_not_taken : refuses (one "mulu.l d0,d1") .sizeNotShown = true := by decide
/-- R99(c): the size is checked before the operands. -/
theorem test_refuse_size_before_operand :
    refuses (one "ext.b a9") .sizeNotShown = true ∧ refuses (one "jmp.l") .sizeNotShown = true ∧
    refuses (one "exg.w #1,#2") .sizeNotShown = true ∧ refuses (one "swap.b d0,d0") .sizeNotShown = true := by decide
theorem test_refuse_indirect_without_displacement : refuses (one "move.l (a0),d0") .operandForm = true := by decide
/-- R99(e): where the parts' count is right, an indexed operand is refused by its spelling (R96). -/
theorem test_refuse_indexed_operand :
    refuses (one "move.l 4(a0,d1)") .operandForm = true ∧ refuses (one "asl.w 4(a0,d1)") .operandForm = true := by decide
theorem test_refuse_foreign_hexadecimal : refuses (one "move.l #0x10,d0") .operandForm = true := by decide
theorem test_refuse_one_operand_shift : refuses (one "lsl.w $100") .formNotShown = true := by decide
theorem test_refuse_branch_to_a_register : refuses (one "bra d0") .formNotShown = true := by decide

/-! ### The table's words (log entry 4): the first character in bits 7..0 -/

theorem test_word_rts : decodeTableWord 24 0x737472 = some .rts := by decide
theorem test_word_bra_4 : decodeTableWord 40 0x3420617262 = some (.bra .w (.absoluteOffset 4)) := by decide
theorem test_word_label : decodeTableWord 16 0x3A4C = some .nonExecutable := by decide
theorem test_word_not_an_instruction : decodeTableWord 8 0x41 = none := by decide

/-- The placed instruction is the next one to run. -/
theorem test_withFetchWord_runs_it :
    after (State.reset.withFetchWord 40 0x3420617262) (fun t => t.pc == 8 && t.exc == none && t.errs == []) = true := by decide

/-- A state that cannot fetch is made able to; nothing else changes. -/
theorem test_withFetchWord_makes_ready :
    let s := { State.reset with pc := 6, exc := some .invalidPC, ccr := 3 }
    (s.withFetchWord 24 0x737472).pc = 0 ∧ (s.withFetchWord 24 0x737472).exc = none ∧
    (s.withFetchWord 24 0x737472).ccr = 3 ∧ (s.withFetchWord 24 0x737472).params.program = [⟨"rts".toList, 1, false⟩] := by decide

/-! ### One step of each instruction (95_test_vectors) -/

/-- V-AR-1 -/
theorem test_add_carry :
    after (one "add.b #1,d0" |>.setReg (dataSlot 0) 0xFF) (fun t => t.reg (dataSlot 0) == 0 && t.ccr == 0x15) = true := by decide

/-- V-AR-3 -/
theorem test_add_overflow :
    after (one "add.l #1,d0" |>.setReg (dataSlot 0) 0x7FFFFFFF) (fun t => t.reg (dataSlot 0) == 0x80000000 && t.ccr == 0x0A) = true := by decide

/-- V-AR-5 -/
theorem test_sub_borrow_keeps_v_clear :
    after (one "sub.b #$80,d0") (fun t => t.reg (dataSlot 0) == 0x80 && t.ccr == 0x19) = true := by decide

/-- V-AR-4 -/
theorem test_sub_overflow :
    after (one "sub.b #1,d0" |>.setReg (dataSlot 0) 0x80) (fun t => t.reg (dataSlot 0) == 0x7F && t.ccr == 0x02) = true := by decide

/-- V-AR-6 -/
theorem test_cmp_keeps_x :
    after (one "cmp.w #2,d0" |>.setReg (dataSlot 0) 1 |>.setCcr 0x10) (fun t => t.reg (dataSlot 0) == 1 && t.ccr == 0x19) = true := by decide

/-- V-DEC-10 -/
theorem test_cmp_memory_to_memory :
    after (one "cmp.l $10,$20") (fun t => t.ccr == 0x04 && t.errs == []) = true := by decide

/-- V-AR-7 -/
theorem test_neg_most_negative :
    after (one "neg.b d0" |>.setReg (dataSlot 0) 0x80) (fun t => t.reg (dataSlot 0) == 0x80 && t.ccr == 0x19) = true := by decide

/-- V-AR-8 -/
theorem test_neg_zero :
    after (one "neg.l d0" |>.setCcr 0x1F) (fun t => t.reg (dataSlot 0) == 0 && t.ccr == 0x04) = true := by decide

/-- V-ML-1 -/
theorem test_move_partial_register :
    after (one "move.b #$80,d0" |>.setReg (dataSlot 0) 0x12345678) (fun t => t.reg (dataSlot 0) == 0x12345680 && t.ccr == 0x08) = true := by decide

/-- V-MEM-6 -/
theorem test_move_unaligned_offset_address :
    after (one "move.l #$01020304,$FFF(a0)" |>.setReg (addressSlot 0) 0x1000) (fun t => t.mem == [(0x1FFF, 1), (0x2000, 2), (0x2001, 3), (0x2002, 4)]) = true := by decide

/-- V-ML-3 -/
theorem test_and_masks :
    after (one "and.b #$0F,d0" |>.setReg (dataSlot 0) 0xF0) (fun t => t.reg (dataSlot 0) == 0 && t.ccr == 0x04) = true := by decide

/-- V-ML-4 -/
theorem test_or_sets :
    after (one "or.w #$8000,d0") (fun t => t.reg (dataSlot 0) == 0x8000 && t.ccr == 0x08) = true := by decide

/-- V-ML-5 -/
theorem test_eor_flips :
    after (one "eor.w #$00FF,d0" |>.setReg (dataSlot 0) 0xFFFF) (fun t => t.reg (dataSlot 0) == 0xFF00 && t.ccr == 0x08) = true := by decide

/-- V-ML-6 -/
theorem test_eor_with_itself :
    after (one "eor.l d0,d0" |>.setReg (dataSlot 0) 0x12345678) (fun t => t.reg (dataSlot 0) == 0 && t.ccr == 0x04) = true := by decide

/-- V-ML-7 -/
theorem test_not_byte :
    after (one "not.b d0" |>.setReg (dataSlot 0) 0xFFFFFF00) (fun t => t.reg (dataSlot 0) == 0xFFFFFFFF && t.ccr == 0x08) = true := by decide

/-- V-ML-8 -/
theorem test_clr_word :
    after (one "clr.w d0" |>.setReg (dataSlot 0) 0xFFFFFFFF) (fun t => t.reg (dataSlot 0) == 0xFFFF0000 && t.ccr == 0x04) = true := by decide

/-- V-DEC-13 -/
theorem test_clr_address_register :
    after (one "clr.l a0") (fun t => t.errs == [⟨.illegalOperand, some 1⟩] && t.ccr == 0 && t.pc == 4) = true := by decide

/-- V-ML-10 -/
theorem test_ext_byte_to_word :
    after (one "ext.w d0" |>.setReg (dataSlot 0) 0x80) (fun t => t.reg (dataSlot 0) == 0xFF80 && t.ccr == 0x08) = true := by decide

/-- V-ML-11 -/
theorem test_ext_word_to_long :
    after (one "ext.l d0" |>.setReg (dataSlot 0) 0x12348000) (fun t => t.reg (dataSlot 0) == 0xFFFF8000 && t.ccr == 0x08) = true := by decide

/-- V-ML-13 -/
theorem test_swap_halves :
    after (one "swap d0" |>.setReg (dataSlot 0) 0x12345678) (fun t => t.reg (dataSlot 0) == 0x56781234 && t.ccr == 0x00) = true := by decide

/-- V-ML-14 -/
theorem test_swap_negative :
    after (one "swap d0" |>.setReg (dataSlot 0) 0x8000) (fun t => t.reg (dataSlot 0) == 0x80000000 && t.ccr == 0x08) = true := by decide

/-- V-ML-15 -/
theorem test_exg_two_kinds :
    after (one "exg d0,a0" |>.setReg (dataSlot 0) 1 |>.setReg (addressSlot 0) 2 |>.setCcr 0x1F) (fun t => t.reg (dataSlot 0) == 2 && t.reg (addressSlot 0) == 1 && t.ccr == 0x1F) = true := by decide

/-- V-SH-1 -/
theorem test_asl_overflow :
    after (one "asl.b #1,d0" |>.setReg (dataSlot 0) 0x40) (fun t => t.reg (dataSlot 0) == 0x80 && t.ccr == 0x0A) = true := by decide

/-- V-SH-2 -/
theorem test_asr_keeps_sign :
    after (one "asr.b #1,d0" |>.setReg (dataSlot 0) 0x81) (fun t => t.reg (dataSlot 0) == 0xC0 && t.ccr == 0x19) = true := by decide

/-- V-SH-11 -/
theorem test_asr_past_the_width :
    after (one "asr.b d1,d0" |>.setReg (dataSlot 0) 0x80 |>.setReg (dataSlot 1) 9) (fun t => t.reg (dataSlot 0) == 0xFF && t.ccr == 0x19) = true := by decide

/-- V-SH-8 -/
theorem test_lsl_count_zero :
    after (one "lsl.b #0,d0" |>.setReg (dataSlot 0) 0x55 |>.setCcr 0x13) (fun t => t.reg (dataSlot 0) == 0x55 && t.ccr == 0x11) = true := by decide

/-- V-SH-14 -/
theorem test_lsl_count_is_destination :
    after (one "lsl.l d0,d0" |>.setReg (dataSlot 0) 2) (fun t => t.reg (dataSlot 0) == 8) = true := by decide

/-- V-SH-4 -/
theorem test_lsr_to_zero :
    after (one "lsr.b #1,d0" |>.setReg (dataSlot 0) 1) (fun t => t.reg (dataSlot 0) == 0 && t.ccr == 0x15) = true := by decide

/-- V-SH-5 -/
theorem test_rol_wraps :
    after (one "rol.b #1,d0" |>.setReg (dataSlot 0) 0x81) (fun t => t.reg (dataSlot 0) == 3 && t.ccr == 0x11) = true := by decide

/-- V-SH-12 -/
theorem test_rol_whole_width :
    after (one "rol.b #8,d0" |>.setReg (dataSlot 0) 0x81) (fun t => t.reg (dataSlot 0) == 0x81 && t.ccr == 0x19) = true := by decide

/-- V-SH-6 -/
theorem test_ror_wraps :
    after (one "ror.b #1,d0" |>.setReg (dataSlot 0) 1) (fun t => t.reg (dataSlot 0) == 0x80 && t.ccr == 0x19) = true := by decide

/-- V-SH-16 -/
theorem test_ror_memory :
    after (one "ror.w #1,$100" |>.setMem [(0x101, 1)]) (fun t => t.mem == [(0x100, 0x80)] && t.ccr == 0x19) = true := by decide

/-- V-MD-1 -/
theorem test_mulu_low_word :
    after (one "mulu #3,d0" |>.setReg (dataSlot 0) 0xFFFF0002) (fun t => t.reg (dataSlot 0) == 6 && t.ccr == 0x00) = true := by decide

/-- V-MD-3 -/
theorem test_mulu_largest :
    after (one "mulu #$FFFF,d0" |>.setReg (dataSlot 0) 0xFFFF) (fun t => t.reg (dataSlot 0) == 0xFFFE0001 && t.ccr == 0x08) = true := by decide

/-- V-MD-2 -/
theorem test_muls_negative :
    after (one "muls #-2,d0" |>.setReg (dataSlot 0) 3) (fun t => t.reg (dataSlot 0) == 0xFFFFFFFA && t.ccr == 0x08) = true := by decide

/-- V-MD-4 -/
theorem test_muls_most_negative :
    after (one "muls #$8000,d0" |>.setReg (dataSlot 0) 0x8000) (fun t => t.reg (dataSlot 0) == 0x40000000 && t.ccr == 0x00) = true := by decide

/-- V-MD-13 -/
theorem test_divu_by_zero :
    after (one "divu #$10000,d0" |>.setReg (dataSlot 0) 100) (fun t => t.reg (dataSlot 0) == 100 && t.exc == some .divisionByZero && t.pc == 4) = true := by decide

/-- V-MD-9 -/
theorem test_divs_rounds_toward_zero :
    after (one "divs #-3,d0" |>.setReg (dataSlot 0) 100) (fun t => t.reg (dataSlot 0) == 0x0001FFDF && t.ccr == 0x08) = true := by decide

/-- V-MD-10 -/
theorem test_divs_overflow :
    after (one "divs #3,d0" |>.setReg (dataSlot 0) 0xFFFFFF9C) (fun t => t.reg (dataSlot 0) == 0xFFFFFF9C && t.ccr == 0x02) = true := by decide

/-- V-CF-4 -/
theorem test_bra_byte_limit :
    after (one "bra.b 128") (fun t => t.errs == [⟨.offsetTooLong, some 1⟩] && t.pc == 4) = true := by decide

/-- V-CF-3 -/
theorem test_bra_goes_to_a_displaced_pc :
    after (one "bra.b 124") (fun t => t.errs == [] && t.pc == 128) = true := by decide

/-- V-CF-8 -/
theorem test_beq_not_taken_is_not_ranged :
    after (one "beq.b 200") (fun t => t.errs == [] && t.pc == 4) = true := by decide

/-- V-CF-9 -/
theorem test_beq_taken_too_long :
    after (one "beq.b 200" |>.setCcr 0x04) (fun t => t.errs == [⟨.offsetTooLong, some 1⟩] && t.pc == 4) = true := by decide

/-- V-CF-11 -/
theorem test_bge_n_and_v :
    after (one "bge 4" |>.setCcr 0x0A) (fun t => t.pc == 8) = true := by decide

/-- V-CF-12 -/
theorem test_bge_n_alone :
    after (one "bge 4" |>.setCcr 0x08) (fun t => t.pc == 4) = true := by decide

/-- V-CF-13 -/
theorem test_bgt_zero :
    after (one "bgt 4" |>.setCcr 0x04) (fun t => t.pc == 4) = true := by decide

/-- V-CF-14 -/
theorem test_ble_negative :
    after (one "ble 4" |>.setCcr 0x08) (fun t => t.pc == 8) = true := by decide

/-- V-CF-15 -/
theorem test_blt_overflow :
    after (one "blt 4" |>.setCcr 0x02) (fun t => t.pc == 8) = true := by decide

/-- V-CF-23 -/
theorem test_bsr_range_first :
    after (one "bsr.b 200") (fun t => t.errs == [⟨.offsetTooLong, some 1⟩] && t.reg spSlot == 0 && t.pc == 4) = true := by decide

/-- V-CF-21 -/
theorem test_bsr_stack_outside_memory :
    after (one "bsr 8" |>.setReg spSlot 0x7FFFFFFC) (fun t => t.errs == [⟨.invalidAddress, some 1⟩] && t.reg spSlot == 0x7FFFFFFC && t.mem == [] && t.pc == 4) = true := by decide

/-- V-CF-18 -/
theorem test_jmp_to_an_odd_pc :
    after (one "jmp 2") (fun t => t.pc == 6) = true := by decide

/-- V-CF-22 -/
theorem test_jsr_stack_wraps :
    after (one "jsr 8" |>.setReg spSlot 0xFFFFFFFC) (fun t => t.reg spSlot == 0 && t.mem == [(3, 4)] && t.pc == 12) = true := by decide

/-- V-CF-24 -/
theorem test_jsr_pushes :
    after (one "jsr 12") (fun t => t.reg spSlot == 4 && t.mem == [(7, 4)] && t.pc == 16) = true := by decide

/-- V-CF-25 -/
theorem test_rts_pops :
    after (one "rts" |>.setReg spSlot 4 |>.setMem [(7, 12)]) (fun t => t.reg spSlot == 0 && t.pc == 12) = true := by decide

/-- V-CF-27 -/
theorem test_rts_stack_outside_memory :
    after (one "rts" |>.setReg spSlot 0x7FFFFFFD) (fun t => t.errs == [⟨.invalidAddress, some 1⟩] && t.reg spSlot == 0x7FFFFFFD && t.pc == 4) = true := by decide

/-- V-CF-10: the cell is at index 5. -/
theorem test_bne_backwards :
    after { load (List.replicate 6 (textCell "bne -12" 1)) with pc := 20 } (fun t => t.pc == 12) = true := by decide

/-- V-SH-9 under ANY_POINT: the sign differs at one point and not at the end. -/
theorem test_asl_any_point :
    after (underConfig ⟨.prose, .anyPoint⟩ (one "asl.b #2,d0" |>.setReg (dataSlot 0) 0x50))
      (fun t => t.reg (dataSlot 0) == 0x40 && t.ccr == 0x13) = true := by decide

/-- V-MD-8 under PROSE: a quotient of 17 bits is stored truncated. -/
theorem test_divu_large_quotient :
    after (one "divu #3,d0" |>.setReg (dataSlot 0) 0x30000) (fun t => t.reg (dataSlot 0) == 0 && t.ccr == 0x04) = true := by decide

/-- V-DEC-37. -/
theorem test_non_executable_slot :
    after (load [⟨"LOOP:".toList, 1, true⟩]) (fun t => t.lastInstr == some "LOOP:".toList && t.pc == 4 && t.ccr == 0) = true := by decide

/-- V-EX-1, V-EX-2: the end of the table is tested before the alignment. -/
theorem test_bad_pc :
    after { load (List.replicate 4 (textCell "rts" 1)) with pc := 2 }
      (fun t => t == { load (List.replicate 4 (textCell "rts" 1)) with pc := 2, exc := some .invalidPC }) ∧
    after { one "rts" with pc := 6 } (fun t => t == { one "rts" with pc := 6 }) := by decide

/-- V-RS-2: a step at pc 4 pushes a frame, and undo restores the state before it. -/
theorem test_undo_after_a_step :
    after { one "move.l #1,d0" with pc := 4, params := ⟨List.replicate 2 (textCell "move.l #2,d0" 2), [], none, Config.default⟩ }
      (fun t => t.undo.length == 1 && t.reg (dataSlot 0) == 2 && t.undoFromStack.pc == 4 &&
        t.undoFromStack.reg (dataSlot 0) == 0 && t.undoFromStack.undo == []) = true := by decide

/-- W1, W2: what the host sets it gets, big-endian, and no byte above the address space is written (R48). -/
theorem test_host_memory :
    (State.reset.hostSet 0x100 1 0x1FF).hostGet 0x100 1 = some 0xFF ∧
    (State.reset.hostSet 0x100 4 0x12345678).hostGet 0x102 2 = some 0x5678 ∧
    (State.reset.hostSet 0x7FFFFFFD 4 1) = State.reset := by decide

/-- W12. -/
theorem test_label_displacement : labelDisplacement 2 5 = -12 := by decide

/-! ### Witnesses: states and operands that meet the hypotheses of the statements together -/

abbrev d0 : Operand := .dataRegister 0
abbrev d1 : Operand := .dataRegister 1
abbrev a0 : Operand := .addressRegister 0
/-- The last byte, word and long of the address space. -/
abbrev lastByte : Operand := .absoluteOffset 0x7FFFFFFF
abbrev lastWord : Operand := .absoluteOffset 0x7FFFFFFE
abbrev lastLong : Operand := .absoluteOffset 0x7FFFFFFC

/-- Two cells, pc at the second: a step pushes a frame. -/
def second (t : String) : State := { load (List.replicate 2 (textCell t 2)) with pc := 4 }

theorem one_ready (t : String) : Ready (one t) (textCell t 1) := ⟨rfl, Int.le_refl 0, rfl, rfl⟩
theorem second_ready (t : String) : Ready (second t) (textCell t 2) :=
  ⟨rfl, show (0 : Int) ≤ 4 by decide, show (4 : Int) % 4 = 0 by decide, rfl⟩

theorem witness_LaunchMeetsInvariant :
    Memory.wf [(0, 1), (0x7FFFFFFF, 0xFF)] = true ∧ Memory.inSpace [(0, 1), (0x7FFFFFFF, 0xFF)] = true := by decide

theorem witness_StepKeepsInvariant : ∃ t, (second "move.b #1,$7FFFFFFF").Inv ∧ step (second "move.b #1,$7FFFFFFF") = .next t ∧
    t.undo.length = 1 ∧ t.mem = [(0x7FFFFFFF, 1)] :=
  ⟨_, ⟨rfl, rfl, rfl, nofun⟩, rfl, by decide, by decide⟩

/-- A state with a frame that meets the invariant, for the clause about undo. -/
theorem witness_StepKeepsInvariant_undo :
    ({ second "rts" with undo := [⟨4, 0, none, none, State.reset.x, [(0, 1)], []⟩] } : State).Inv :=
  ⟨rfl, rfl, rfl, fun f hf => by
    rw [List.mem_singleton.1 hf]
    exact ⟨rfl, rfl, by decide, by decide, by decide, rfl⟩⟩

theorem witness_ProgramIsNeverWritten : ∃ t, step (one "move.b #1,0") = .next t := ⟨_, rfl⟩

theorem witness_HaltedStepChangesNothing :
    ({ one "rts" with exc := some .divisionByZero } : State).exc ≠ none ∧
    ({ one "rts" with pc := 4 } : State).pc ≥ ((one "rts").params.program.length : Int) * 4 := by decide

/-- The pc just below the end, and the one just below 0. -/
theorem witness_BadPcRaisesInvalidPC :
    (let s := { one "rts" with pc := 3 }; s.exc = none ∧ s.pc < 4 * (s.params.program.length : Int) ∧ s.pc % 4 ≠ 0) ∧
    (let s := { one "rts" with pc := -4 }; s.exc = none ∧ s.pc < 4 * (s.params.program.length : Int) ∧ s.pc < 0) := by decide

theorem witness_NonExecutableSlotIsNoOp :
    Ready { load (List.replicate 2 ⟨"L:".toList, 1, true⟩) with pc := 4 } ⟨"L:".toList, 1, true⟩ :=
  ⟨rfl, by decide, by decide, rfl⟩

theorem witness_StepRunsDecodedInstruction :
    Ready (second "rts") (textCell "rts" 2) ∧ decodeCell (textCell "rts" 2) = .ok .rts := ⟨second_ready _, by decide⟩

theorem witness_StepStopsOnUndecodableCell :
    (Ready (one "rts d0") (textCell "rts d0" 1) ∧ decodeCell (textCell "rts d0" 1) = .error (.error .wrongArity)) ∧
    (Ready (one "lea") (textCell "lea" 1) ∧ decodeCell (textCell "lea" 1) = .error (.refuse .unknownMnemonic)) :=
  ⟨⟨one_ready _, by decide⟩, ⟨one_ready _, by decide⟩⟩

/-- One step of each kind: no event, an error, a fatal exception. -/
theorem witness_OneEventPerStep :
    (∃ t, step (one "bra 4") = .next t ∧ t.errs = [] ∧ t.exc = none) ∧
    (∃ t, step (one "swap a0") = .next t ∧ t.errs = [⟨.illegalOperand, some 1⟩]) ∧
    (∃ t, step (one "divu #0,d0") = .next t ∧ t.exc = some .divisionByZero) :=
  ⟨⟨_, rfl, by decide, by decide⟩, ⟨_, rfl, by decide⟩, ⟨_, rfl, by decide⟩⟩

/-- Operands at the ends of their ranges. -/
theorem witness_DecodeOfEncodeIsTheInstruction :
    (Instr.move .b (.immediate (-18446744073709551616)) (.offsetAddress (-1) 7)).wf = true ∧
    (Instr.ext .l (.dataRegister 7)).wf = true ∧ Instr.nonExecutable.wf = true ∧
    decodeCell (encode (.move .b (.immediate (-18446744073709551616)) (.offsetAddress (-1) 7)) 1) =
      .ok (.move .b (.immediate (-18446744073709551616)) (.offsetAddress (-1) 7)) := by decide

theorem witness_DecodedInstructionsAreWellFormed :
    decodeCell (textCell "ext.l d7" 1) = .ok (.ext .l (.dataRegister 7)) := by decide

/-- A suffix not taken, with a field and with none. -/
theorem witness_DecodedInstructionsAreWellFormed_sizes :
    (Ready (one "MULU.L d0") (textCell "MULU.L d0" 1) ∧ (textCell "MULU.L d0" 1).nonExec = false ∧
      (textCell "MULU.L d0" 1).text = ['M', 'U', 'L', 'U'] ++ '.' :: (['L'] ++ " d0".toList) ∧
      lower ['M', 'U', 'L', 'U'] = Mnemonic.mulu.text ∧ (∃ ch r, " d0".toList = ch :: r ∧ isSpace ch = true) ∧
      lower ['L'] = ['l'] ∧ Mnemonic.mulu.takesSize .l = false) ∧
    (Ready (one "jmp.b") (textCell "jmp.b" 1) ∧ (textCell "jmp.b" 1).text = ['j', 'm', 'p'] ++ '.' :: (['b'] ++ []) ∧
      lower ['b'] = ['b'] ∧ Mnemonic.jmp.takesSize .b = false) ∧
    (lower ['w'] = ['w'] ∧ Mnemonic.exg.takesSize .w = false) :=
  ⟨⟨one_ready _, rfl, by decide, by decide, ⟨_, _, rfl, by decide⟩, by decide, by decide⟩,
    ⟨one_ready _, by decide, by decide, by decide⟩, by decide, by decide⟩

theorem witness_UnknownMnemonicIsRefused :
    Ready (one "ad.b d0") (textCell "ad.b d0" 1) ∧ (textCell "ad.b d0" 1).nonExec = false ∧
    (textCell "ad.b d0" 1).text = ['a', 'd'] ++ ".b d0".toList ∧
    (∀ ch ∈ ['a', 'd'], ch ≠ '.' ∧ isSpace ch = false) ∧
    (∃ ch r, ".b d0".toList = ch :: r ∧ (ch = '.' ∨ isSpace ch = true)) ∧
    ∀ m : Mnemonic, m.text ≠ lower ['a', 'd'] :=
  ⟨one_ready _, rfl, by decide, by simp [isSpace], ⟨_, _, rfl, .inl rfl⟩, fun m => by cases m <;> decide⟩

/-- The other two ways a base ends: at a space, and at the end of the text. -/
theorem witness_UnknownMnemonicIsRefused_ends :
    (∃ ch r, " d0".toList = ch :: r ∧ isSpace ch = true) ∧ (textCell "ad" 1).text = ['a', 'd'] ++ [] ∧
    Ready (one "ad d0") (textCell "ad d0" 1) ∧ Ready (one "ad") (textCell "ad" 1) :=
  ⟨⟨_, _, rfl, by decide⟩, by decide, one_ready _, one_ready _⟩

theorem witness_InvalidSuffixIsRecorded :
    Ready (one "EXT.bw a0") (textCell "EXT.bw a0" 1) ∧ (textCell "EXT.bw a0" 1).nonExec = false ∧
    (textCell "EXT.bw a0" 1).text = ['E', 'X', 'T'] ++ '.' :: (['b', 'w'] ++ " a0".toList) ∧
    lower ['E', 'X', 'T'] = Mnemonic.ext.text ∧ (∀ ch ∈ ['b', 'w'], isSpace ch = false) ∧
    (∃ ch r, " a0".toList = ch :: r ∧ isSpace ch = true) ∧
    lower ['b', 'w'] ≠ ['b'] ∧ lower ['b', 'w'] ≠ ['w'] ∧ lower ['b', 'w'] ≠ ['l'] :=
  ⟨one_ready _, rfl, by decide, by decide, by simp [isSpace], ⟨_, _, rfl, by decide⟩, by decide, by decide, by decide⟩

/-- The empty suffix, which log entry 9 takes in, and the empty field. -/
theorem witness_InvalidSuffixIsRecorded_empty :
    (Ready (one "add. d0") (textCell "add. d0" 1) ∧
      (textCell "add. d0" 1).text = ['a', 'd', 'd'] ++ '.' :: ([] ++ " d0".toList) ∧ lower [] ≠ ['b']) ∧
    (Ready (one "rts.s") (textCell "rts.s" 1) ∧
      (textCell "rts.s" 1).text = ['r', 't', 's'] ++ '.' :: (['s'] ++ []) ∧ lower ['s'] ≠ ['b']) :=
  ⟨⟨one_ready _, by decide, by decide⟩, one_ready _, by decide, by decide⟩

theorem witness_BigEndianComposition : Memory.wf [(0, 1), (3, 0xFF)] = true := by decide

theorem witness_RegisterWritesArePartial :
    ((State.reset.setReg (dataSlot 7) 0xFFFFFFFF).writeReg (dataSlot 7) (0#8)).reg (dataSlot 7) = 0xFFFFFF00 ∧
    dataSlot 7 ≠ addressSlot 0 := by decide

theorem witness_HostSetThenGet :
    valid 0x7FFFFFFF 1 = true ∧ valid 0x7FFFFFFE 2 = true ∧ valid 0x7FFFFFFC 4 = true ∧ valid 0x7FFFFFFD 4 = false ∧
    valid (-1) 1 = false ∧ Memory.wf State.reset.mem = true := by decide

/-- `AddResult`, `SubResult`, `LogicalResults`: the last byte, word and long of memory as the source or the destination. -/
theorem witness_two_operand_results :
    Memory.wf State.reset.mem = true ∧ isImmediate d0 = false ∧ isImmediate lastLong = false ∧
    ¬ (isMem lastByte = true ∧ isMem d0 = true) ∧ ¬ (isMem d0 = true ∧ isMem lastLong = true) ∧
    accessible lastByte .b State.reset = true ∧ accessible lastWord .w State.reset = true ∧
    accessible lastLong .l State.reset = true ∧ accessible d0 .l State.reset = true := by decide

/-- `AddResult` and `SubResult` at a carry and at a borrow. -/
theorem witness_AddResult_SubResult :
    let s := State.reset.setReg (dataSlot 0) 0xFF
    (Memory.wf s.mem = true ∧ accessible (.immediate 1) .b s = true ∧ accessible d0 .b s = true ∧
      operandValue d0 .b s = 0xFF) ∧
    operandValue (.immediate (-1)) .b s = 0xFF := by decide

/-- Both sides of each overflow: an add and a sub that set V, and that clear it. -/
theorem witness_AddAndSubtractOverflow :
    (∃ t, exec (.add .b (.immediate 1) d0) (State.reset.setReg (dataSlot 0) 0x7F) = .next t ∧ t.errs = [] ∧ t.ccr.v = true) ∧
    (∃ t, exec (.add .b (.immediate 0x80) d0) (State.reset.setReg (dataSlot 0) 0x80) = .next t ∧ t.errs = [] ∧ t.ccr.v = true) ∧
    (∃ t, exec (.add .b (.immediate 1) d0) State.reset = .next t ∧ t.errs = [] ∧ t.ccr.v = false) ∧
    (∃ t, exec (.sub .b (.immediate 1) d0) (State.reset.setReg (dataSlot 0) 0x80) = .next t ∧ t.errs = [] ∧ t.ccr.v = true) ∧
    (∃ t, exec (.sub .b (.immediate 0x80) d0) State.reset = .next t ∧ t.errs = [] ∧ t.ccr.v = false) :=
  ⟨⟨_, rfl, by decide, by decide⟩, ⟨_, rfl, by decide, by decide⟩, ⟨_, rfl, by decide, by decide⟩,
    ⟨_, rfl, by decide, by decide⟩, ⟨_, rfl, by decide, by decide⟩⟩

/-- Memory to memory. -/
theorem witness_CmpResult_MoveResult :
    isImmediate lastLong = false ∧ accessible lastWord .w State.reset = true ∧
    accessible lastLong .l State.reset = true ∧ accessible (.absoluteOffset 0) .l State.reset = true := by decide

theorem witness_NegResult_NotAndClrResults :
    (isImmediate lastByte = false ∧ isAddressRegister lastByte = false ∧ accessible lastByte .b State.reset = true) ∧
    (isImmediate d0 = false ∧ isAddressRegister d0 = false ∧ accessible d0 .l State.reset = true) := by decide

/-- Both ends of the frame of add, sub, neg and of cmp: the effect and the error. -/
theorem witness_ArithmeticFrame :
    (∃ t, exec (.add .b (.immediate 1) lastByte) State.reset = .next t ∧ t.mem = [(0x7FFFFFFF, 1)]) ∧
    (∃ t, exec (.sub .l a0 d0) State.reset = .next t ∧ t.errs = []) ∧ (∃ t, exec (.neg .w d0) State.reset = .next t ∧ t.errs = []) ∧
    (∃ t, exec (.neg .w a0) State.reset = .next t ∧ t.errs = [⟨.illegalOperand, none⟩]) ∧
    (∃ t, exec (.cmp .l d0 (.immediate 1)) State.reset = .next t ∧ t.errs = [⟨.illegalOperand, none⟩]) ∧
    (∃ t, exec (.cmp .l (.immediate 1) d0) State.reset = .next t ∧ t.errs = []) :=
  ⟨⟨_, rfl, by decide⟩, ⟨_, rfl, by decide⟩, ⟨_, rfl, by decide⟩, ⟨_, rfl, by decide⟩, ⟨_, rfl, by decide⟩, ⟨_, rfl, by decide⟩⟩

theorem witness_MoveAndLogicalFlags_MoveAndLogicalFrame :
    (∃ t, exec (.move .w lastWord a0) State.reset = .next t ∧ t.errs = []) ∧
    (∃ t, exec (.not .b lastByte) State.reset = .next t ∧ t.errs = []) ∧
    (∃ t, exec (.and .l d0 d1) State.reset = .next t ∧ t.errs = []) ∧
    (∃ t, exec (.or .l d0 lastLong) State.reset = .next t ∧ t.errs = []) ∧
    (∃ t, exec (.eor .b (.immediate 1) d0) State.reset = .next t ∧ t.errs = []) ∧
    (∃ t, exec (.clr .l lastLong) State.reset = .next t ∧ t.errs = []) ∧
    (∃ t, exec (.ext .l d0) State.reset = .next t ∧ t.errs = []) ∧
    (∃ t, exec (.move .l d0 (.absoluteOffset 0x7FFFFFFD)) State.reset = .next t ∧ t.errs = [⟨.invalidAddress, none⟩]) :=
  ⟨⟨_, rfl, by decide⟩, ⟨_, rfl, by decide⟩, ⟨_, rfl, by decide⟩, ⟨_, rfl, by decide⟩, ⟨_, rfl, by decide⟩,
    ⟨_, rfl, by decide⟩, ⟨_, rfl, by decide⟩, ⟨_, rfl, by decide⟩⟩

theorem witness_ExgResult :
    (slotOf d0 = some (dataSlot 0) ∧ slotOf a0 = some (addressSlot 0)) ∧ slotOf (.addressRegister 7) = some spSlot := by decide

/-- `LeftShiftResults`, `AslOverflowByRule`, `RightShiftResults`, `RotateResults`: both ends of an immediate count, a
register count of 63, and the memory form. -/
theorem witness_shift_results :
    (ShiftForm .b (.immediate 0) d0 ∧ CountIs (.immediate 0) State.reset 0 ∧ accessible d0 .b State.reset = true) ∧
    (ShiftForm .l (.immediate 8) d0 ∧ CountIs (.immediate 8) State.reset 8 ∧ accessible d0 .l State.reset = true) ∧
    (ShiftForm .b d1 d0 ∧ CountIs d1 (State.reset.setReg (dataSlot 1) 0xFFFFFFFF) 63 ∧ accessible d0 .b State.reset = true ∧
      Memory.wf State.reset.mem = true) ∧
    (ShiftForm .w (.immediate 1) lastWord ∧ CountIs (.immediate 1) State.reset 1 ∧ accessible lastWord .w State.reset = true) :=
  ⟨⟨.inl ⟨0, rfl, .inl ⟨0, rfl, by decide, by decide⟩⟩, .inl rfl, rfl⟩,
    ⟨.inl ⟨0, rfl, .inl ⟨8, rfl, by decide, by decide⟩⟩, .inl rfl, rfl⟩,
    ⟨.inl ⟨0, rfl, .inr ⟨1, rfl⟩⟩, .inr ⟨1, rfl, by decide⟩, rfl, rfl⟩,
    ⟨.inr ⟨rfl, rfl, rfl⟩, .inl rfl, rfl⟩⟩

/-- Each value of the parameter, the second with a sign that differs at one point. -/
theorem witness_AslOverflowByRule :
    State.reset.params.config.aslVRule = .beforeAfter ∧
    (underConfig ⟨.prose, .anyPoint⟩ State.reset).params.config.aslVRule = .anyPoint ∧
    ∃ k, k ≤ 2 ∧ (decide (k < 8) && (0x50#8).getLsbD (8 - 1 - k)) ≠ (0x50#8).getLsbD (8 - 1) :=
  ⟨rfl, rfl, 1, by decide, by decide⟩

theorem witness_ShiftFrame :
    ∀ mk ∈ [Instr.asl, Instr.asr, Instr.lsl, Instr.lsr, Instr.rol, Instr.ror],
      ∃ t, exec (mk .w (.immediate 1) lastWord) State.reset = .next t ∧ t.errs = [] := by
  intro mk h
  simp only [List.mem_cons, List.not_mem_nil, or_false] at h
  rcases h with rfl | rfl | rfl | rfl | rfl | rfl <;> exact ⟨_, rfl, by decide⟩

/-- The counts just outside 0 to 8, and every other clause. -/
theorem witness_ShiftsRejectOtherForms :
    isImmediate (.immediate 1) = true ∧ isAddressRegister a0 = true ∧ ((-1 : Int) < 0 ∨ 8 < (-1 : Int)) ∧
    ((9 : Int) < 0 ∨ 8 < (9 : Int)) ∧ isMem lastWord = true ∧ isAddressRegister a0 = true ∧ (0 : Int) ≠ 1 ∧ (2 : Int) ≠ 1 ∧
    Size.b ≠ .w ∧ Size.l ≠ .w ∧ isImmediate d0 = false := by decide

theorem witness_MultiplyResults :
    (slotOf d0 = some (dataSlot 0) ∧ accessible lastWord .w State.reset = true) ∧ slotOf a0 = some (addressSlot 0) := by decide

/-- A dividend and a divisor that overflow under no policy. -/
theorem witness_DivuResult :
    slotOf d0 = some (dataSlot 0) ∧ accessible (.immediate 7) .w (State.reset.setReg (dataSlot 0) 100) = true ∧
    ((State.reset.setReg (dataSlot 0) 100).reg (dataSlot 0)).toNat = 100 ∧
    (operandWord (.immediate 7) (State.reset.setReg (dataSlot 0) 100)).toNat = 7 ∧
    ¬ DivuOverflows .prose 100 7 ∧ ¬ DivuOverflows .codeAsEvaluated 100 7 ∧ ¬ DivuOverflows .mc68000 100 7 := by
  unfold DivuOverflows; decide

theorem witness_DivsResult :
    slotOf d0 = some (dataSlot 0) ∧ accessible (.immediate (-7)) .w (State.reset.setReg (dataSlot 0) 100) = true ∧
    ((State.reset.setReg (dataSlot 0) 100).reg (dataSlot 0)).toInt = 100 ∧
    (operandWord (.immediate (-7)) (State.reset.setReg (dataSlot 0) 100)).toInt = -7 ∧
    ¬ DivsOverflows .prose 100 (-7) ∧ ¬ DivsOverflows .codeAsEvaluated 100 (-7) ∧ ¬ DivsOverflows .mc68000 100 (-7) := by
  unfold DivsOverflows; decide

/-- Each policy's overflow at its boundary: equal magnitudes, a low word of 0, a quotient of 65536 and of 32768. -/
theorem witness_DivideOverflow :
    operandWord (.immediate 10) State.reset ≠ 0 ∧
    DivuOverflows .prose 10 10 ∧ DivuOverflows .codeAsEvaluated 65536 10 ∧ DivuOverflows .mc68000 65536 1 ∧
    DivsOverflows .prose 10 (-10) ∧ DivsOverflows .codeAsEvaluated (-65536) 10 ∧ DivsOverflows .mc68000 32768 1 ∧
    DivsOverflows .mc68000 (-32769) 1 := by
  unfold DivuOverflows DivsOverflows; decide

/-- The low 16 bits of the source are 0 though the operand is not. -/
theorem witness_OnlyDividesRaiseDivisionByZero :
    (slotOf d0 = some (dataSlot 0) ∧ accessible (.immediate 0x10000) .w State.reset = true ∧ State.reset.exc = none ∧
      operandWord (.immediate 0x10000) State.reset = 0) ∧
    ∃ t, exec (.divs (.immediate 0x10000) d0) State.reset = .next t ∧ t.exc ≠ State.reset.exc :=
  ⟨by decide, _, rfl, by decide⟩

theorem witness_MultiplyDivideFrame :
    ∀ mk ∈ [Instr.mulu, Instr.muls, Instr.divu, Instr.divs],
      (∃ t, exec (mk (.immediate 3) d0) (State.reset.setReg (dataSlot 0) 100) = .next t ∧ t.errs = []) ∧
      (∃ t, exec (mk (.absoluteOffset 0x7FFFFFFF) d0) State.reset = .next t ∧ t.errs = [⟨.invalidAddress, none⟩]) := by
  intro mk h
  simp only [List.mem_cons, List.not_mem_nil, or_false] at h
  rcases h with rfl | rfl | rfl | rfl <;> exact ⟨⟨_, rfl, by decide⟩, ⟨_, rfl, by decide⟩⟩

theorem witness_MultiplyDivideRejectOtherForms :
    isImmediate (.immediate 2) = true ∧ (isMem lastWord = true ∧ isMem lastByte = true) ∧ isMem d0 = false := by decide

/-- `BranchResults`, `CallResults`: both ends of each size's range, and the displacements just outside them. -/
theorem witness_displacements :
    (DisplacementFits .b (-128) ∧ DisplacementFits .b 127 ∧ ¬ DisplacementFits .b (-129) ∧ ¬ DisplacementFits .b 128) ∧
    (DisplacementFits .w (-32768) ∧ DisplacementFits .w 32767 ∧ ¬ DisplacementFits .w (-32769) ∧ ¬ DisplacementFits .w 32768) ∧
    (DisplacementFits .l (-2147483648) ∧ DisplacementFits .l 2147483647 ∧ ¬ DisplacementFits .l (-2147483649) ∧
      ¬ DisplacementFits .l 2147483648) := by
  unfold DisplacementFits; decide

/-- For each condition of `BranchResults` a ccr that meets it and one that does not. -/
theorem witness_BranchResults :
    (Ccr.z 0x04 = true ∧ Ccr.z 0x00 = false) ∧ (Ccr.n 0x0A = Ccr.v 0x0A ∧ Ccr.n 0x08 ≠ Ccr.v 0x08) ∧
    (Ccr.z 0x00 = false ∧ Ccr.n 0x00 = Ccr.v 0x00) ∧ (Ccr.z 0x04 = true ∧ Ccr.n 0x02 ≠ Ccr.v 0x02) := by decide

theorem witness_JmpResult : ({ State.reset with pc := 24 } : State).pc = 4 * ((5 : Nat) : Int) + 4 := by decide

/-- The highest stack pointer a call takes, the lowest it refuses, and one that wraps to 0. -/
theorem witness_CallResults :
    Memory.wf State.reset.mem = true ∧
    ((State.reset.setReg spSlot 0x7FFFFFF8).reg spSlot + 4).toNat ≤ 0x7FFFFFFC ∧
    ((State.reset.setReg spSlot 0xFFFFFFFC).reg spSlot + 4).toNat ≤ 0x7FFFFFFC ∧
    0x7FFFFFFC < ((State.reset.setReg spSlot 0x7FFFFFF9).reg spSlot + 4).toNat := by decide

theorem witness_ReturnResult :
    ((State.reset.setReg spSlot 0x7FFFFFFC).reg spSlot).toNat ≤ 0x7FFFFFFC ∧
    0x7FFFFFFC < ((State.reset.setReg spSlot 0x7FFFFFFD).reg spSlot).toNat := by decide

theorem witness_CallThenReturnIsBalanced :
    ∃ t, exec (.jsr (.absoluteOffset 8)) State.reset = .next t ∧ Memory.wf State.reset.mem = true ∧ 0 ≤ State.reset.pc ∧
      State.reset.pc < 2 ^ 32 ∧ t.errs = State.reset.errs ∧ (t.setCcr 3).reg spSlot = t.reg spSlot ∧
      ∀ k, k < 4 → Memory.getByte (t.setCcr 3).mem ((t.reg spSlot).toNat + k) =
        Memory.getByte t.mem ((t.reg spSlot).toNat + k) :=
  ⟨_, rfl, rfl, by decide, by decide, rfl, rfl, fun _ _ => rfl⟩

/-- The same for a bsr, at the highest stack pointer a call takes. -/
theorem witness_CallThenReturnIsBalanced_bsr :
    ∃ t, exec (.bsr .b (.absoluteOffset 127)) (State.reset.setReg spSlot 0x7FFFFFF8) = .next t ∧ t.errs = [] :=
  ⟨_, rfl, by decide⟩

theorem witness_ControlFlowRejectsOtherTargets : ∀ d, d0 ≠ .absoluteOffset d := nofun

theorem witness_IllegalOperandsAreRecorded :
    isImmediate (.immediate 1) = true ∧ (isMem lastByte = true ∧ isMem lastLong = true) ∧ isAddressRegister a0 = true ∧
    (∀ n, a0 ≠ .dataRegister n) ∧ Size.w ≠ .b ∧ slotOf (.immediate 1) = none :=
  ⟨rfl, ⟨rfl, rfl⟩, rfl, nofun, by decide, rfl⟩

/-- One byte past the last long, word and byte. -/
theorem witness_InvalidAddressesAreRecorded :
    isImmediate (.absoluteOffset 0x7FFFFFFD) = false ∧ accessible (.absoluteOffset 0x7FFFFFFD) .l State.reset = false ∧
    accessible (.absoluteOffset 0x7FFFFFFF) .w State.reset = false ∧ accessible (.absoluteOffset (-1)) .b State.reset = false ∧
    ¬ (isMem d0 = true ∧ isMem (.absoluteOffset 0x7FFFFFFD) = true) ∧
    ShiftForm .w (.immediate 1) (.absoluteOffset 0x7FFFFFFF) ∧ slotOf d0 = some (dataSlot 0) :=
  ⟨rfl, rfl, rfl, rfl, by decide, .inr ⟨rfl, rfl, rfl⟩, rfl⟩

/-- An instruction that records an error, and one that raises the exception. -/
theorem witness_EveryInstructionIsAllOrNothing :
    (∃ t, exec (.swap a0) State.reset = .next t ∧ t.errs ≠ State.reset.errs) ∧
    (∃ t, exec (.divu (.immediate 0) d0) State.reset = .next t ∧ t.exc ≠ State.reset.exc) :=
  ⟨⟨_, rfl, by decide⟩, ⟨_, rfl, by decide⟩⟩

theorem witness_PcAndBookkeepingWriters : ∃ t, exec (.swap d0) State.reset = .next t ∧ isControlFlow (.swap d0) = false := ⟨_, rfl, rfl⟩

theorem witness_FlagWriters :
    (∃ t, exec (.swap d0) State.reset = .next t ∧ writesExtend (.swap d0) = false) ∧
    (∃ t, exec .rts State.reset = .next t ∧ isControlFlow .rts = true) ∧
    (∃ t, exec .nonExecutable State.reset = .next t) ∧ ∃ t, exec (.exg d0 a0) State.reset = .next t :=
  ⟨⟨_, rfl, rfl⟩, ⟨_, rfl, rfl⟩, ⟨_, rfl⟩, _, rfl⟩

theorem witness_RegisterWriters :
    (∃ t, exec (.exg d0 a0) State.reset = .next t) ∧ dataSlot 1 ∉ writtenSlots (.exg d0 a0) ∧
    dataSlot 0 ∉ writtenSlots .rts ∧ spSlot ∉ writtenSlots (.cmp .l d0 (.addressRegister 7)) :=
  ⟨⟨_, rfl⟩, by decide, by decide, by decide⟩

theorem witness_UndoRestoresTheLastFrame :
    State.reset.undo = [] ∧
    ({ State.reset with undo := [⟨4, 3, none, none, State.reset.x, [], []⟩] } : State).undo =
      [] ++ [⟨4, 3, none, none, State.reset.x, [], []⟩] := ⟨rfl, rfl⟩

/-- A run of two steps, each of which pushes a frame. -/
theorem witness_UndosReverseAPushingRun :
    let s := { load (List.replicate 3 (textCell "swap d0" 1)) with pc := 4 }
    ∃ t, PushingRun 2 s t ∧ t.undo.length = 2 :=
  ⟨_, ⟨by decide, ⟨_, rfl, by decide, by decide, rfl⟩, _, rfl, by decide, ⟨_, rfl, by decide, by decide, rfl⟩, _, rfl, rfl⟩, rfl⟩

end Sys2Proof.Tests
end

section
/-! The statements about registers (10_state): what a sized access to a register slot does bit by bit (R25). -/

namespace Sys2Proof.Machine

open Sys2Proof (Size)

/-- A read of `w` bits takes the slot's bits below `w` and is 0 above them. -/
theorem State.getLsbD_readReg (s : State) (i : Fin 16) (w b : Nat) :
    (s.readReg i w).getLsbD b = (decide (b < w) && (s.reg i).getLsbD b) :=
  BitVec.getLsbD_setWidth w (s.reg i) b

theorem State.getLsbD_writeReg_self (s : State) (i : Fin 16) (sz : Size) (v : BitVec sz.bits) (b : Nat) :
    ((s.writeReg i v).reg i).getLsbD b = if b < sz.bits then v.getLsbD b else (s.reg i).getLsbD b := by
  rw [State.writeReg_reg_self, getLsbD_replaceLow _ _ (Size.bits_le sz)]

/-- Settles O18: the written slot bit by bit, the other slots, and the read, each by its own rule. -/
theorem registerWritesArePartial : Obligations.RegisterWritesArePartial := by
  intro s i sz v
  refine ⟨fun b _ => ?written, fun j hj => ?other, fun b hb => ?read⟩
  case written => exact s.getLsbD_writeReg_self i sz v b
  case other => exact s.writeReg_reg_other v hj.symm
  case read => rw [State.getLsbD_readReg, decide_eq_true hb, Bool.true_and]

end Sys2Proof.Machine
end

section
/-! The statements about memory (20_memory): how words and longs are composed of bytes and stored as bytes (R50 to R54). -/

namespace Sys2Proof.Machine

/-- The word read (R50). -/
theorem Memory.read_two (m : Memory) (a : Nat) :
    Memory.read m a 2 = (Memory.getByte m a).toNat * 2 ^ 8 + (Memory.getByte m (a + 1)).toNat := by
  simp [Memory.read]

/-- The long read (R51). -/
theorem Memory.read_four (m : Memory) (a : Nat) :
    Memory.read m a 4 = (Memory.getByte m a).toNat * 2 ^ 24 + (Memory.getByte m (a + 1)).toNat * 2 ^ 16 +
      (Memory.getByte m (a + 2)).toNat * 2 ^ 8 + (Memory.getByte m (a + 3)).toNat := by
  simp [Memory.read, Nat.add_assoc]

/-- Byte `j` of a number, counted from the low end, is byte `j` of its truncation to `n` bytes when `j < n`. -/
theorem ofNat_div_pow_eq_extractLsb' (v : Nat) {n j : Nat} (hj : j < n) :
    BitVec.ofNat 8 (v / 256 ^ j) = (BitVec.ofNat (8 * n) v).extractLsb' (8 * j) 8 := by
  have hshift : v / 256 ^ j = v >>> (8 * j) := by rw [Nat.shiftRight_eq_div_pow, Nat.pow_mul]
  ext b hb
  have hlow : 8 * j + b < 8 * n := by omega
  rw [hshift, BitVec.getElem_extractLsb', ← BitVec.getLsbD_eq_getElem, BitVec.getLsbD_ofNat, BitVec.getLsbD_ofNat,
    Nat.testBit_shiftRight, decide_eq_true hb, decide_eq_true hlow]

/-- Byte `k` of a write of `n` bytes, cut out of the value's truncation to `n` bytes: the most significant byte stands at
the lowest address (R53, R54). -/
theorem Memory.getByte_write_eq_extractLsb' (v : Nat) {m : Memory} (a : Nat) {n k : Nat} (hm : Memory.wf m = true)
    (hk : k < n) :
    Memory.getByte (Memory.write m a n v) (a + k) = (BitVec.ofNat (8 * n) v).extractLsb' (8 * (n - 1 - k)) 8 := by
  rw [Memory.getByte_write_inside n v m a k hm hk, ofNat_div_pow_eq_extractLsb' v (show n - 1 - k < n by omega)]

/-- Settles O17: the two compositions, and each stored byte by the one rule for byte `k` of a write. -/
theorem bigEndianComposition : Obligations.BigEndianComposition := by
  intro m a hm
  have stored (v : Nat) {n k : Nat} (hk : k < n) := Memory.getByte_write_eq_extractLsb' v a hm hk
  refine ⟨Memory.read_two m a, Memory.read_four m a, fun v => ?word, fun v => ?long⟩
  case word =>
    exact ⟨stored v (k := 0) (by decide), stored v (k := 1) (by decide)⟩
  case long =>
    exact ⟨stored v (k := 0) (by decide), stored v (k := 1) (by decide), stored v (k := 2) (by decide),
      stored v (k := 3) (by decide)⟩

end Sys2Proof.Machine
end

section
/-! The statements about the step (30_encoding section 2): a halted machine's step (R75) and the step at a non-executable
slot (R80). -/

namespace Sys2Proof.Machine

/-- A step of a halted machine answers the same state (R75). -/
theorem step_of_halted {s : State} (h : s.halted = true) : step s = .next s := by
  simp [step, beginStep_of_halted h]

/-- Settles O5: both causes are the halt test, and `finished` is that test on the state after. -/
theorem haltedStepChangesNothing : Obligations.HaltedStepChangesNothing := by
  intro s hcause
  have hhalted : s.halted = true := s.halted_iff.2 (hcause.imp_right fun hend => by omega)
  exact ⟨step_of_halted hhalted, hhalted⟩

/-- The non-executable slot's instruction answers the state it is executed in (R80). -/
@[simp] theorem exec_nonExecutable (s : State) : exec .nonExecutable s = .next s := rfl

/-- A slot flagged non-executable decodes to the no-op whatever its text. -/
theorem decodeCell_of_nonExec {c : InstrCell} (h : c.nonExec = true) : decodeCell c = .ok .nonExecutable := by
  simp [decodeCell, h]

/-- A non-executable slot leaves the state it is run in. -/
theorem runCell_of_nonExec (s : State) {c : InstrCell} (h : c.nonExec = true) : runCell s c = .next s := by
  simp [runCell, decodeCell_of_nonExec h]

/-- A step at a non-executable slot does the fetch and nothing else (R78, R79, R80). -/
theorem step_of_ready_nonExec {s : State} {c : InstrCell} (hr : Ready s c) (h : c.nonExec = true) :
    step s = .next (fetchedState s c) := by
  rw [step_of_ready hr, runCell_of_nonExec _ h]

/-- Away from pc 0 the fetched state has the snapshot pushed (R78). -/
theorem fetchedState_undo_of_pc_ne_zero {s : State} (c : InstrCell) (h : s.pc ≠ 0) :
    (fetchedState s c).undo = s.undo ++ [s.frame] :=
  if_neg h

/-- Settles O7: the step ends in the fetched state, which differs from the first in pc, text, line and undo stack only. -/
theorem nonExecutableSlotIsNoOp : Obligations.NonExecutableSlotIsNoOp := by
  refine ⟨exec_nonExecutable, fun s c hr hslot => ?_⟩
  exact ⟨fetchedState s c, step_of_ready_nonExec hr hslot, rfl, rfl, rfl, rfl, rfl, fetchedState_undo_of_pc_ne_zero c⟩

end Sys2Proof.Machine
end

section
/-! The statements about the operand-arithmetic library (40_alu_library section 2): the overflow flag of add and sub (R117,
R119) and the flags of the move and logical family (R122), on every next state that records no error. -/

namespace Sys2Proof.Machine

open Sys2Proof (Operand Size)

section noError
variable {s t : State}

/-- Recording an error lengthens the list, so a state with the list of `s` is none that recorded one (R216). -/
theorem not_recordError_of_errs_eq (he : t.errs = s.errs) : ¬ ∃ k, t = s.recordError k := by
  rintro ⟨k, rfl⟩
  simp at he

/-- A meaning that raises no fatal exception and ends without an error record has succeeded. -/
theorem eq_ok_of_conclude {e : Except Event State} (h : conclude s e = .next t) (he : t.errs = s.errs)
    (hf : ∀ k, e ≠ .error (.fatal k)) : e = .ok t :=
  (conclude_cases h hf id).resolve_left (not_recordError_of_errs_eq he)

/-- The first part of a meaning that ends without an error record has succeeded, and the rest concludes alike. -/
theorem conclude_bind_eq_next {α : Type} {x : Except Event α} {f : α → Except Event State}
    (h : conclude s (x >>= f) = .next t) (he : t.errs = s.errs) (hx : ∀ k, x ≠ .error (.fatal k)) :
    ∃ a, x = .ok a ∧ conclude s (f a) = .next t := by
  match x, h with
  | .ok a, h => exact ⟨a, rfl, h⟩
  | .error (.nonFatal k), h => cases h; exact absurd ⟨k, rfl⟩ (not_recordError_of_errs_eq he)
  | .error (.fatal k), _ => exact absurd rfl (hx k)
  | .error (.refuse _), h => cases h

end noError

/-! ### What a success leaves: the library's result in the destination, its flags in the ccr -/

/-- In `t` the destination reads as the result of a library function and the ccr holds its flags. -/
def Yields (sz : Size) (dst : Operand) (t : State) (r : BitVec sz.bits × Ccr) : Prop :=
  operandValue dst sz t = r.1 ∧ t.ccr = r.2

section yields
variable {sz : Size} {src dst : Operand} {s t : State}

theorem yields_storeOperand (hi : isImmediate dst = false) (hm : Memory.wf s.mem = true) (r : BitVec sz.bits × Ccr) :
    Yields sz dst ((storeOperand dst sz r.1 s).setCcr r.2) r :=
  ⟨by rw [operandValue_setCcr, operandValue_storeOperand _ _ _ _ hi hm], rfl⟩

theorem aluTwo_yields {op : {w : Nat} → BitVec w → BitVec w → Ccr → BitVec w × Ccr} (hm : Memory.wf s.mem = true)
    (he : t.errs = s.errs) (h : conclude s (aluTwo op sz src dst s) = .next t) :
    Yields sz dst t (op (operandValue src sz s) (operandValue dst sz s) s.ccr) := by
  have hok := eq_ok_of_conclude h he (aluTwo_not_fatal op sz src dst)
  obtain ⟨_, hl, -⟩ := bind_eq_ok hok
  obtain ⟨v, f, rfl, -, hr⟩ := aluTwo_eq_ok hok
  rw [← hr]
  exact yields_storeOperand (legalAlu_eq_ok.1 hl).1 hm (v, f)

theorem aluOne_yields {op : {w : Nat} → BitVec w → Ccr → BitVec w × Ccr} (hm : Memory.wf s.mem = true)
    (he : t.errs = s.errs) (h : conclude s (aluOne op sz dst s) = .next t) :
    Yields sz dst t (op (operandValue dst sz s) s.ccr) := by
  have hok := eq_ok_of_conclude h he (aluOne_not_fatal op sz dst)
  obtain ⟨_, hl, -⟩ := bind_eq_ok hok
  obtain ⟨v, f, rfl, -, hr⟩ := aluOne_eq_ok hok
  rw [← hr]
  exact yields_storeOperand (legalUnary_eq_ok.1 hl).1 hm (v, f)

/-- R151. -/
theorem execMove_yields (hm : Memory.wf s.mem = true) (he : t.errs = s.errs) (h : execMove sz src dst s = .next t) :
    Yields sz dst t (moveOP (operandValue src sz s) s.ccr) := by
  obtain ⟨_, hl, h⟩ := conclude_bind_eq_next h he fun _ => legalMove_not_fatal
  obtain ⟨_, hr, h⟩ := conclude_bind_eq_next h he fun _ => not_fatal_of_readOp
  obtain ⟨_, hw, h⟩ := conclude_bind_eq_next h he fun _ => not_fatal_of_writeOp
  obtain ⟨-, rfl⟩ := readOp_eq_ok hr
  obtain ⟨-, rfl⟩ := writeOp_eq_ok hw
  cases h
  exact yields_storeOperand (legalMove_eq_ok.1 hl) hm _

/-- R156. -/
theorem execClr_yields (hm : Memory.wf s.mem = true) (he : t.errs = s.errs) (h : execClr sz dst s = .next t) :
    Yields sz dst t (clrOP s.ccr) := by
  obtain ⟨_, hl, h⟩ := conclude_bind_eq_next h he fun _ => legalUnary_not_fatal
  obtain ⟨_, hw, h⟩ := conclude_bind_eq_next h he fun _ => not_fatal_of_writeOp
  obtain ⟨-, rfl⟩ := writeOp_eq_ok hw
  cases h
  exact yields_storeOperand (legalUnary_eq_ok.1 hl).1 hm _

/-- An extension to the size of the destination, from any narrower width (R157). -/
theorem extendRegister_yields {n : Nat} (hm : Memory.wf s.mem = true) (he : t.errs = s.errs)
    (h : conclude s (extendRegister n sz.bits dst s) = .next t) : ∃ d, Yields sz dst t (extOP n sz.bits d s.ccr) := by
  obtain ⟨k, rfl, rfl⟩ := extendRegister_eq_ok (eq_ok_of_conclude h he fun _ => extendRegister_not_fatal)
  exact ⟨_, yields_storeOperand (dst := .dataRegister k) rfl hm _⟩

/-- The flags of R122 are those of a result that `moveOP` passes on. -/
theorem Yields.logicalFlags {v : BitVec sz.bits} {f : Ccr} (h : Yields sz dst t (moveOP v f)) :
    LogicalFlags (operandValue dst sz t) f t.ccr := by
  obtain ⟨hv, hf⟩ := h
  rw [hv, hf]
  exact logicalFlags_moveFlags v f

/-- `ext` at its two sizes; at size b it is refused. -/
theorem execExt_logicalFlags (hm : Memory.wf s.mem = true) (he : t.errs = s.errs) (h : execExt sz dst s = .next t) :
    LogicalFlags (operandValue dst sz t) s.ccr t.ccr := by
  cases sz with
  | b => cases h
  | w => exact (extendRegister_yields (sz := .w) hm he h).elim fun _ hy => hy.logicalFlags
  | l => exact (extendRegister_yields (sz := .l) hm he h).elim fun _ hy => hy.logicalFlags

end yields

/-! ### The overflow flag of add and sub -/

section overflow
variable {w : Nat} (src dst r : BitVec w) (f : Ccr)

theorem addOP_v : Ccr.v (addOP src dst f).2 = addOverflow src dst (addOP src dst f).1 := by
  simp [addOP]

theorem subOP_v : Ccr.v (subOP src dst f).2 = subOverflow src dst (subOP src dst f).1 := by
  simp [subOP]

/-- R117 on the sign bits. -/
theorem addOverflow_iff : addOverflow src dst r = true ↔
    (src.getLsbD (w - 1) = false ∧ dst.getLsbD (w - 1) = false ∧ r.getLsbD (w - 1) = true) ∨
      (src.getLsbD (w - 1) = true ∧ dst.getLsbD (w - 1) = true ∧ r.getLsbD (w - 1) = false) := by
  simp [addOverflow, BitVec.msb_eq_getLsbD_last, and_assoc]

/-- R119 on the sign bits. -/
theorem subOverflow_iff : subOverflow src dst r = true ↔
    dst.getLsbD (w - 1) = true ∧ src.getLsbD (w - 1) = false ∧ r.getLsbD (w - 1) = false := by
  simp [subOverflow, BitVec.msb_eq_getLsbD_last, and_assoc]

end overflow

/-- Settles O22: V is the library's overflow of the operands read and the result written, which is the sign rule. -/
theorem addAndSubtractOverflow : Obligations.AddAndSubtractOverflow := by
  intro sz src dst s t hm he
  refine ⟨fun h => ?add, fun h => ?sub⟩
  case add =>
    obtain ⟨hv, hf⟩ := aluTwo_yields (op := addOP) hm he h
    rw [hf, hv, addOP_v, addOverflow_iff]
  case sub =>
    obtain ⟨hv, hf⟩ := aluTwo_yields (op := subOP) hm he h
    rw [hf, hv, subOP_v, subOverflow_iff]

/-- Settles O29: each of the seven passes its result to `moveOP`, whose flags are R122's. -/
theorem moveAndLogicalFlags : Obligations.MoveAndLogicalFlags := by
  intro sz src dst s t hm he
  refine ⟨fun h => (execMove_yields hm he h).1, ?flags⟩
  rintro (hmove | hnot | hand | hor | heor | hclr | hext)
  · exact (execMove_yields hm he hmove).logicalFlags
  · exact (aluOne_yields (op := notOP) hm he hnot).logicalFlags
  · exact (aluTwo_yields (op := andOP) hm he hand).logicalFlags
  · exact (aluTwo_yields (op := orOP) hm he hor).logicalFlags
  · exact (aluTwo_yields (op := eorOP) hm he heor).logicalFlags
  · exact (execClr_yields hm he hclr).logicalFlags
  · exact execExt_logicalFlags hm he hext

end Sys2Proof.Machine
end

section
/-! The statements about multiply and divide (44_multiply_divide): what mulu and muls complete with (R133, R180, R181). -/

namespace Sys2Proof.Machine

open Sys2Proof (Operand)

/-! ### The product of two words fits in a long (R133) -/

section product
variable (src dst : BitVec 16) (f : Ccr)

theorem muluOP_toNat : (muluOP src dst f).1.toNat = src.toNat * dst.toNat :=
  Nat.mod_eq_of_lt BitVec.toNat_mul_toNat_lt

theorem mulsOP_toInt : (mulsOP src dst f).1.toInt = src.toInt * dst.toInt := by
  have hle : src.toInt * dst.toInt ≤ 2 ^ 30 := BitVec.toInt_mul_toInt_le
  have hge : -(2 ^ 30) ≤ src.toInt * dst.toInt := BitVec.le_toInt_mul_toInt
  exact BitVec.toInt_ofInt_eq_self (by decide) (by omega) (by omega)

end product

/-- A multiplication whose flags are R122's of its product completes with that product in the destination. -/
theorem multiplyInstr_completes {op : BitVec 16 → BitVec 16 → Ccr → Word × Ccr} {src dst : Operand} {i : Fin 16} {s : State}
    (hop : ∀ a b f, (op a b f).2 = moveFlags (op a b f).1 f) (hd : slotOf dst = some i) (hs : accessible src .w s = true) :
    ∃ t, conclude s (multiplyInstr op src dst s) = .next t ∧
      t.reg i = (op (operandWord src s) (s.readReg i 16) s.ccr).1 ∧ LogicalFlags (t.reg i) s.ccr t.ccr := by
  rw [multiplyInstr_of_legal op (legalMulDiv_of_slot hd) hs, hop]
  refine ⟨_, rfl, State.setReg_reg_self .., ?flags⟩
  case flags =>
    rw [State.setCcr_reg, State.setReg_reg_self]
    exact logicalFlags_moveFlags _ _

/-- Settles O40: both complete alike, and the two products are those of the integers since they fit in 32 bits. -/
theorem multiplyResults : Obligations.MultiplyResults := by
  intro src dst i s hd hs
  refine ⟨?mulu, ?muls⟩
  case mulu =>
    obtain ⟨t, hnext, hreg, hflags⟩ := multiplyInstr_completes (op := muluOP) (fun _ _ _ => rfl) hd hs
    exact ⟨t, hnext, hreg ▸ muluOP_toNat .., hflags⟩
  case muls =>
    obtain ⟨t, hnext, hreg, hflags⟩ := multiplyInstr_completes (op := mulsOP) (fun _ _ _ => rfl) hd hs
    exact ⟨t, hnext, hreg ▸ mulsOP_toInt .., hflags⟩

end Sys2Proof.Machine
end

section
/-! The statement about the Division-By-Zero exception (60_exceptions, R221): a divide raises it on a zero divisor, and no
other instruction writes the exception slot. -/

namespace Sys2Proof.Machine

open Sys2Proof (Operand Instr)

/-- `raise Fatal(k)` where no exception is recorded yet (R213). -/
theorem State.raiseFatal_of_exc_none {s : State} (k : FatalKind) (h : s.exc = none) :
    s.raiseFatal k = { s with exc := some k } := by
  simp [State.raiseFatal, h]

/-- A raise that changes the slot leaves its own kind there. -/
theorem State.raiseFatal_exc_of_ne {s : State} {k : FatalKind} (h : (s.raiseFatal k).exc ≠ s.exc) :
    (s.raiseFatal k).exc = some k := by
  cases hexc : s.exc with
  | none => rw [State.raiseFatal_of_exc_none k hexc]
  | some e => simp [State.raiseFatal, hexc] at h

/-- A divide by a zero word is the exception and nothing else, whatever its quotient function. -/
theorem conclude_divideInstr_of_zero (op : BitVec 16 → Word → Ccr → Option Word × Ccr) {src dst : Operand} {i : Fin 16}
    {s : State} (hd : slotOf dst = some i) (hs : accessible src .w s = true) (hexc : s.exc = none)
    (hzero : operandWord src s = 0#16) :
    conclude s (divideInstr op src dst s) = .next { s with exc := some .divisionByZero } := by
  rw [divideInstr_of_legal op (legalMulDiv_of_slot hd) hs, if_pos hzero, conclude_fatal,
    State.raiseFatal_of_exc_none _ hexc]

/-- No instruction's own effect records an event: neither the exception slot nor the error list is written. -/
theorem Effect.exc_errs {i : Instr} {s t : State} (h : Effect i s t) : t.exc = s.exc ∧ t.errs = s.errs := by
  cases i <;> simp only [Effect] at h
  case add | sub | neg | asl | asr | lsl | lsr | rol | ror => obtain ⟨_, -, _, rfl⟩ := h; simp
  case move | and | or | eor | not | clr | ext => obtain ⟨_, -, -, _, rfl⟩ := h; simp
  case cmp => obtain ⟨_, -, rfl⟩ := h; exact ⟨rfl, rfl⟩
  case swap | mulu | muls => obtain ⟨_, _, _, -, -, rfl⟩ := h; exact ⟨rfl, rfl⟩
  case divu | divs => obtain ⟨-, _, _, -, -, rfl | ⟨_, rfl⟩⟩ := h <;> exact ⟨rfl, rfl⟩
  case exg => obtain ⟨_, _, -, -, rfl⟩ := h; exact ⟨rfl, rfl⟩
  case bra | beq | bne | bge | bgt | ble | blt | jmp => obtain ⟨_, -, rfl | rfl⟩ := h <;> exact ⟨rfl, rfl⟩
  case bsr | jsr =>
    obtain ⟨_, _, -, hpush, rfl⟩ := h
    obtain ⟨-, rfl⟩ := pushPc_eq_ok hpush
    exact ⟨rfl, rfl⟩
  case rts => obtain ⟨-, rfl⟩ := h; exact ⟨rfl, rfl⟩
  case nonExecutable => subst h; exact ⟨rfl, rfl⟩

/-- Of what an instruction can do, only a divide by zero changes the exception slot. -/
theorem exec_dividesByZero_of_exc_ne {i : Instr} {s t : State} (h : exec i s = .next t) (hne : t.exc ≠ s.exc) :
    DividesByZero i s ∧ t = s.raiseFatal .divisionByZero := by
  rcases exec_cases h with ⟨k, rfl⟩ | hdivide | heffect
  · exact absurd (s.recordError_exc k) hne
  · exact hdivide
  · exact absurd heffect.exc_errs.1 hne

/-- Settles O44: both divides test the same word, and a change of the exception slot is traced back to that test. -/
theorem onlyDividesRaiseDivisionByZero : Obligations.OnlyDividesRaiseDivisionByZero := by
  refine ⟨fun src dst i s hd hs hexc hzero => ?raises, fun i s t hnext hne => ?only⟩
  case raises =>
    exact ⟨conclude_divideInstr_of_zero _ hd hs hexc hzero, conclude_divideInstr_of_zero _ hd hs hexc hzero⟩
  case only =>
    obtain ⟨hdivides, rfl⟩ := exec_dividesByZero_of_exc_ne hnext hne
    exact ⟨State.raiseFatal_exc_of_ne hne, hdivides⟩

end Sys2Proof.Machine
end

section
/-! What a whole step does (30_encoding section 2): the cases of a step's next state, the invariant it keeps, the parameters
it never writes and the one event it may record. -/

namespace Sys2Proof.Machine

open Sys2Proof (Instr)

/-- Everything a next state of a step can be (R73): the same state where halted, Invalid-PC raised, or the end of a cell. -/
theorem step_cases {s t : State} (h : step s = .next t) :
    (s.halted = true ∧ t = s) ∨
    (s.halted = false ∧ s.pcAligned = false ∧ t = s.raiseFatal .invalidPC) ∨
    ∃ c, Ready s c ∧ runCell (fetchedState s c) c = .next t := by
  rcases beginStep_cases s with ⟨hh, hb⟩ | ⟨hh, ha, hb⟩ | ⟨c, hr, -⟩
  · simp only [step, hb] at h; cases h; exact .inl ⟨hh, rfl⟩
  · simp only [step, hb] at h; cases h; exact .inr (.inl ⟨hh, ha, rfl⟩)
  · exact .inr (.inr ⟨c, hr, step_of_ready hr ▸ h⟩)

theorem State.exc_of_not_halted {s : State} (h : s.halted = false) : s.exc = none := by
  by_contra hexc
  simp [s.halted_iff.2 (.inl hexc)] at h

/-! ### Memory: canonical and inside the address space -/

/-- No instruction takes memory out of the canonical form or the address space (R46, R56). -/
theorem Effect.mem_ok {i : Instr} {s t : State} (h : Effect i s t) (hwf : Memory.wf s.mem = true)
    (hin : Memory.inSpace s.mem = true) : Memory.wf t.mem = true ∧ Memory.inSpace t.mem = true := by
  cases i <;> simp only [Effect] at h
  case add | sub | neg | asl | asr | lsl | lsr | rol | ror =>
    obtain ⟨_, hacc, _, rfl⟩ := h
    exact ⟨storeOperand_wf _ _ _ _ hwf, storeOperand_inSpace _ _ _ _ hin hacc⟩
  case move | and | or | eor | not | clr | ext =>
    obtain ⟨_, -, hacc, _, rfl⟩ := h
    exact ⟨storeOperand_wf _ _ _ _ hwf, storeOperand_inSpace _ _ _ _ hin hacc⟩
  case bsr | jsr =>
    obtain ⟨_, _, -, hpush, rfl⟩ := h
    obtain ⟨hvalid, rfl⟩ := pushPc_eq_ok hpush
    have hspace := (valid_iff _ _).1 hvalid
    exact ⟨Memory.wf_write _ _ _ _ hwf, Memory.inSpace_write _ _ _ _ hin (by simp only [Config.maxAddress]; omega)⟩
  case cmp => obtain ⟨_, -, rfl⟩ := h; exact ⟨hwf, hin⟩
  case swap | mulu | muls => obtain ⟨_, _, _, -, -, rfl⟩ := h; exact ⟨hwf, hin⟩
  case divu | divs => obtain ⟨-, _, _, -, -, rfl | ⟨_, rfl⟩⟩ := h <;> exact ⟨hwf, hin⟩
  case exg => obtain ⟨_, _, -, -, rfl⟩ := h; exact ⟨hwf, hin⟩
  case bra | beq | bne | bge | bgt | ble | blt | jmp => obtain ⟨_, -, rfl | rfl⟩ := h <;> exact ⟨hwf, hin⟩
  case rts => obtain ⟨-, rfl⟩ := h; exact ⟨hwf, hin⟩
  case nonExecutable => subst h; exact ⟨hwf, hin⟩

theorem exec_mem_ok {i : Instr} {s t : State} (h : exec i s = .next t) (hwf : Memory.wf s.mem = true)
    (hin : Memory.inSpace s.mem = true) : Memory.wf t.mem = true ∧ Memory.inSpace t.mem = true := by
  rcases exec_cases h with ⟨k, rfl⟩ | ⟨-, rfl⟩ | heffect
  · exact ⟨hwf, hin⟩
  · exact ⟨hwf, hin⟩
  · exact heffect.mem_ok hwf hin

/-! ### The invariant -/

/-- The invariant is kept where memory keeps its form and the bookkeeping, the undo stack and the parameters stay. -/
theorem State.Inv.of_bookkeeping {s t : State} (h : s.Inv)
    (hmem : Memory.wf t.mem = true ∧ Memory.inSpace t.mem = true)
    (hbook : t.lastInstr = s.lastInstr ∧ t.line = s.line ∧ t.undo = s.undo ∧ t.params = s.params) : t.Inv := by
  obtain ⟨-, -, hnamed, hframes⟩ := h
  obtain ⟨hlast, hline, hundo, hparams⟩ := hbook
  refine ⟨hmem.1, hmem.2, ?_, ?_⟩
  · rw [hlast, hline, hnamed]
  · rw [hundo, hparams]; exact hframes

/-- The frame a ready state pushes is one of the invariant's (R77, R78). -/
theorem Ready.frame_inv {s : State} {c : InstrCell} (hr : Ready s c) (h : s.Inv) (hpc : s.pc ≠ 0) :
    Frame.Inv s.params.program.length s.frame := by
  have hlt := hr.pc_lt
  obtain ⟨-, h0, h4, -⟩ := hr
  obtain ⟨hwf, hin, hnamed, -⟩ := h
  have hpos : 0 < s.pc := by omega
  exact ⟨hwf, hin, hpos, h4, hlt, hnamed⟩

/-- The fetch keeps the invariant: its frame is sound and it names both text and line (R78, R79). -/
theorem fetchedState_inv {s : State} {c : InstrCell} (hr : Ready s c) (h : s.Inv) : (fetchedState s c).Inv := by
  obtain ⟨hwf, hin, hnamed, hframes⟩ := id h
  refine ⟨hwf, hin, rfl, fun f hf => ?_⟩
  by_cases hpc : s.pc = 0
  · exact hframes f (by simpa [fetchedState, hpc] using hf)
  · rw [fetchedState_undo_of_pc_ne_zero c hpc, List.mem_append, List.mem_singleton] at hf
    rcases hf with hf | rfl
    · exact hframes f hf
    · exact hr.frame_inv h hpc

theorem runCell_inv {s t : State} {c : InstrCell} (h : s.Inv) (hnext : runCell s c = .next t) : t.Inv := by
  obtain ⟨hwf, hin, -, -⟩ := id h
  rcases runCell_cases hnext with ⟨i, -, hexec⟩ | ⟨k, -, rfl⟩
  · exact h.of_bookkeeping (exec_mem_ok hexec hwf hin) (exec_bookkeeping hexec)
  · exact h.of_bookkeeping ⟨hwf, hin⟩ ⟨rfl, rfl, rfl, rfl⟩

theorem step_inv {s t : State} (h : s.Inv) (hnext : step s = .next t) : t.Inv := by
  rcases step_cases hnext with ⟨-, rfl⟩ | ⟨-, -, rfl⟩ | ⟨c, hr, hrun⟩
  · exact h
  · exact h
  · exact runCell_inv (fetchedState_inv hr h) hrun

/-! ### Undo: the two cases of the stack (R255, R256) -/

theorem undoFromStack_of_empty {s : State} (h : s.undo = []) : s.undoFromStack = s := by
  simp [State.undoFromStack, h]

theorem undoFromStack_of_append {s : State} {fs : List Frame} {f : Frame} (h : s.undo = fs ++ [f]) :
    s.undoFromStack =
      { s with
        pc := f.pc, ccr := f.ccr, x := f.x, mem := f.mem, errs := f.errs,
        lastInstr := f.lastInstr, line := f.line, undo := fs } := by
  simp [State.undoFromStack, h]

/-- An undo finds the stack empty or takes its last frame. -/
theorem State.undo_cases (s : State) : s.undo = [] ∨ ∃ fs f, s.undo = fs ++ [f] := by
  simpa using s.undo.eq_nil_or_concat

theorem undoFromStack_inv {s : State} (h : s.Inv) : s.undoFromStack.Inv := by
  rcases s.undo_cases with hempty | ⟨fs, f, hlast⟩
  · rwa [undoFromStack_of_empty hempty]
  · obtain ⟨-, -, -, hframes⟩ := h
    obtain ⟨hwf, hin, -, -, -, hnamed⟩ := hframes f (by simp [hlast])
    rw [undoFromStack_of_append hlast]
    exact ⟨hwf, hin, hnamed, fun g hg => hframes g (by simp [hlast, hg])⟩

/-- Settles O3: the fetch pushes a sound frame, the instruction keeps memory's form, and an undo takes a frame whose
soundness the invariant holds. -/
theorem stepKeepsInvariant : Obligations.StepKeepsInvariant :=
  ⟨fun _ _ => step_inv, fun _ => undoFromStack_inv⟩

/-! ### Parameters and events -/

theorem runCell_params {s t : State} {c : InstrCell} (h : runCell s c = .next t) : t.params = s.params := by
  rcases runCell_cases h with ⟨i, -, hexec⟩ | ⟨k, -, rfl⟩
  · obtain ⟨-, -, -, hparams⟩ := exec_bookkeeping hexec
    exact hparams
  · rfl

/-- Settles O4: neither a cell's run nor an undo writes the parameters. -/
theorem programIsNeverWritten : Obligations.ProgramIsNeverWritten := by
  refine ⟨fun s t hnext => ?step, fun s => ?undo⟩
  case step =>
    rcases step_cases hnext with ⟨-, rfl⟩ | ⟨-, -, rfl⟩ | ⟨c, -, hrun⟩
    · rfl
    · rfl
    · exact runCell_params (s := fetchedState s c) hrun
  case undo =>
    rcases s.undo_cases with hempty | ⟨fs, f, hlast⟩
    · rw [undoFromStack_of_empty hempty]
    · rw [undoFromStack_of_append hlast]

/-- The events one step may record (R224): none, one error, or one fatal exception where none was. -/
def AtMostOneEvent (s t : State) : Prop :=
  (t.errs = s.errs ∧ t.exc = s.exc) ∨
  (∃ k l, t.errs = s.errs ++ [⟨k, l⟩] ∧ t.exc = s.exc) ∨
  (t.errs = s.errs ∧ s.exc = none ∧ ∃ k, t.exc = some k)

theorem atMostOneEvent_recordError (s : State) (k : NonFatalKind) : AtMostOneEvent s (s.recordError k) :=
  .inr (.inl ⟨k, s.line, rfl, rfl⟩)

theorem atMostOneEvent_raiseFatal {s : State} (k : FatalKind) (h : s.exc = none) : AtMostOneEvent s (s.raiseFatal k) :=
  .inr (.inr ⟨rfl, h, k, by rw [State.raiseFatal_of_exc_none k h]⟩)

theorem runCell_atMostOneEvent {s t : State} {c : InstrCell} (hexc : s.exc = none) (h : runCell s c = .next t) :
    AtMostOneEvent s t := by
  rcases runCell_cases h with ⟨i, -, hexec⟩ | ⟨k, -, rfl⟩
  · rcases exec_cases hexec with ⟨k, rfl⟩ | ⟨-, rfl⟩ | heffect
    · exact atMostOneEvent_recordError s k
    · exact atMostOneEvent_raiseFatal _ hexc
    · exact .inl heffect.exc_errs.symm
  · exact atMostOneEvent_recordError s k

/-- Settles O10: a step that is not halted starts without an exception, and each way it can end records at most one event. -/
theorem oneEventPerStep : Obligations.OneEventPerStep := by
  intro s t hnext
  rcases step_cases hnext with ⟨-, rfl⟩ | ⟨hrunning, -, rfl⟩ | ⟨c, hr, hrun⟩
  · exact .inl ⟨rfl, rfl⟩
  · exact atMostOneEvent_raiseFatal _ (State.exc_of_not_halted hrunning)
  · exact runCell_atMostOneEvent (s := fetchedState s c) hr.1 hrun

end Sys2Proof.Machine
end

section
/-! The statements about launch (10_state section 7), the step's outcomes (30_encoding section 2) and undo (70_reset
section 3). -/

namespace Sys2Proof.Machine

open Sys2Proof (Instr)

/-! ### Launch and reset -/

@[simp] theorem State.launch_reg (p : Params) (i : Fin 16) : (State.launch p).reg i = 0 := by
  simp [State.launch, State.reg]

theorem launch_inv {p : Params} (hwf : Memory.wf p.initMem = true) (hin : Memory.inSpace p.initMem = true) :
    (State.launch p).Inv :=
  ⟨hwf, hin, rfl, fun _ hf => absurd hf (List.not_mem_nil)⟩

/-- Settles O1: the launch's fields are its definition's, and reset is the launch with empty parameters. -/
theorem launchValues : Obligations.LaunchValues :=
  ⟨fun p => ⟨State.launch_reg p, rfl, rfl, rfl, rfl, rfl, rfl, rfl, rfl, rfl⟩, rfl, fun _ => rfl⟩

/-- Settles O2: the launch pushes no frame and names no cell, so its memory decides; reset has no byte. -/
theorem launchMeetsInvariant : Obligations.LaunchMeetsInvariant :=
  ⟨fun _ => launch_inv, launch_inv rfl rfl⟩

/-! ### The outcomes of a step -/

/-- Settles O6: the pc test fails after the halt test passed, and a machine with an exception is halted. -/
theorem badPcRaisesInvalidPC : Obligations.BadPcRaisesInvalidPC := by
  intro s hexc hend hbad
  have hrunning : s.halted = false := by
    rw [Bool.eq_false_iff, ne_eq, s.halted_iff]
    rintro (h | h)
    · exact h hexc
    · omega
  have hmisaligned : s.pcAligned = false := by
    rw [Bool.eq_false_iff, ne_eq, s.pcAligned_iff]
    omega
  refine ⟨?step, ?finished⟩
  case step => rw [step, beginStep_of_bad_pc hrunning hmisaligned, State.raiseFatal_of_exc_none _ hexc]
  case finished => exact (State.halted_iff _).2 (.inl (Option.some_ne_none _))

theorem runCell_of_ok {c : InstrCell} {i : Instr} (s : State) (h : decodeCell c = .ok i) : runCell s c = exec i s := by
  simp [runCell, h]

theorem runCell_of_stop {c : InstrCell} {e : DecodeStop} (s : State) (h : decodeCell c = .error e) :
    runCell s c = conclude s (.error (stopEvent e)) := by
  simp [runCell, h]

/-- Settles O8: a ready state's step runs the cell in the fetched state. -/
theorem stepRunsDecodedInstruction : Obligations.StepRunsDecodedInstruction := by
  intro s c i hr hdecode
  rw [step_of_ready hr, runCell_of_ok _ hdecode]

/-- A decode error ends the step with its record (R216, R218). -/
theorem step_of_decode_error {s : State} {c : InstrCell} {k : NonFatalKind} (hr : Ready s c)
    (h : decodeCell c = .error (.error k)) : step s = .next (errorState (fetchedState s c) k) := by
  rw [step_of_ready hr, runCell_of_stop _ h]
  rfl

/-- A decode refusal refuses the step (R74). -/
theorem step_of_decode_refusal {s : State} {c : InstrCell} {r : DecodeRefusal} (hr : Ready s c)
    (h : decodeCell c = .error (.refuse r)) : step s = .refused (refusalOf r) := by
  rw [step_of_ready hr, runCell_of_stop _ h]
  rfl

/-- Settles O9: each decode stop concludes the fetched state, whose line is the cell's. -/
theorem stepStopsOnUndecodableCell : Obligations.StepStopsOnUndecodableCell :=
  fun _ _ hr => ⟨fun _ => step_of_decode_error hr, fun _ => step_of_decode_refusal hr⟩

/-! ### Undo -/

/-- Settles O59: the two cases of the undo stack. -/
theorem undoRestoresTheLastFrame : Obligations.UndoRestoresTheLastFrame := by
  refine ⟨fun s => undoFromStack_of_empty, fun s fs f hlast => ?_⟩
  rw [undoFromStack_of_append hlast]
  exact ⟨rfl, rfl, rfl, rfl, rfl, rfl, rfl, rfl, rfl⟩

theorem runCell_undo {s t : State} {c : InstrCell} (h : runCell s c = .next t) : t.undo = s.undo := by
  rcases runCell_cases h with ⟨i, -, hexec⟩ | ⟨k, -, rfl⟩
  · obtain ⟨-, -, hundo, -⟩ := exec_bookkeeping hexec
    exact hundo
  · rfl

/-- A step that executes a cell away from pc 0 leaves the snapshot of its start on top of the stack (R78). -/
theorem step_pushes_frame {s u : State} {c : InstrCell} (hr : Ready s c) (hpc : s.pc ≠ 0) (h : step s = .next u) :
    u.undo = s.undo ++ [s.frame] := by
  rw [step_of_ready hr] at h
  rw [runCell_undo h, fetchedState_undo_of_pc_ne_zero c hpc]

/-- `n + 1` undos are `n` undos and one more. -/
theorem undoTimes_succ (n : Nat) (s : State) : undoTimes (n + 1) s = (undoTimes n s).undoFromStack := by
  induction n generalizing s with
  | zero => rfl
  | succ n ih => exact ih s.undoFromStack

/-- Undoing a state with the snapshot of `s` on top of the stack of `s` restores `s` but for its exception. -/
theorem sameUndoFields_undoFromStack {s v : State} (h : v.undo = s.undo ++ [s.frame]) :
    SameUndoFields s v.undoFromStack := by
  rw [undoFromStack_of_append h]
  exact ⟨rfl, rfl, rfl, rfl, rfl, rfl, rfl, rfl⟩

theorem pushingRun_undo (n : Nat) {s t : State} (h : PushingRun n s t) : SameUndoFields s (undoTimes n t) := by
  induction n generalizing s with
  | zero => subst h; exact ⟨rfl, rfl, rfl, rfl, rfl, rfl, rfl, rfl⟩
  | succ n ih =>
    obtain ⟨hpc, ⟨c, hr⟩, u, hstep, hrun⟩ := h
    obtain ⟨-, -, -, -, -, -, -, hundo⟩ := ih hrun
    rw [undoTimes_succ]
    exact sameUndoFields_undoFromStack (hundo.trans (step_pushes_frame hr hpc hstep))

/-- Settles O60: by induction on the run, the last undo takes the frame its first step pushed. -/
theorem undosReverseAPushingRun : Obligations.UndosReverseAPushingRun :=
  fun n _ _ => pushingRun_undo n

end Sys2Proof.Machine
end

section
/-! The rules over all instructions: what a next state of any instruction may have changed (10_state sections 1 to 3,
30_encoding R100). -/

namespace Sys2Proof.Machine

open Sys2Proof (Instr)

/-- Of what an instruction can do, only a record changes the error list. -/
theorem exec_recordError_of_errs_ne {i : Instr} {s t : State} (h : exec i s = .next t) (hne : t.errs ≠ s.errs) :
    ∃ k, t = s.recordError k := by
  rcases exec_cases h with hrecord | ⟨-, rfl⟩ | heffect
  · exact hrecord
  · exact absurd rfl hne
  · exact absurd heffect.exc_errs.2 hne

/-- Settles O55: a changed error list is a record's, a changed exception slot a divide by zero's, and both leave the rest. -/
theorem everyInstructionIsAllOrNothing : Obligations.EveryInstructionIsAllOrNothing := by
  refine fun i s t hnext => ⟨exec_recordError_of_errs_ne hnext, fun hne => ?exc⟩
  case exc =>
    obtain ⟨-, rfl⟩ := exec_dividesByZero_of_exc_ne hnext hne
    rfl

/-- A field that events leave alone is kept by an instruction whose own effect keeps it. -/
theorem exec_keeps {α : Type} (field : State → α) {i : Instr} {s t : State} (h : exec i s = .next t)
    (hrecord : ∀ k, field (s.recordError k) = field s) (hraise : ∀ k, field (s.raiseFatal k) = field s)
    (heffect : Effect i s t → field t = field s) : field t = field s := by
  rcases exec_cases h with ⟨k, rfl⟩ | ⟨-, rfl⟩ | he
  · exact hrecord k
  · exact hraise _
  · exact heffect he

/-- Only control flow moves the pc (R30). -/
theorem Effect.pc {i : Instr} {s t : State} (h : Effect i s t) (hi : isControlFlow i = false) : t.pc = s.pc := by
  cases i <;> simp only [Effect] at h
  case add | sub | neg | asl | asr | lsl | lsr | rol | ror => obtain ⟨_, -, _, rfl⟩ := h; simp
  case move | and | or | eor | not | clr | ext => obtain ⟨_, -, -, _, rfl⟩ := h; simp
  case cmp => obtain ⟨_, -, rfl⟩ := h; rfl
  case swap | mulu | muls => obtain ⟨_, _, _, -, -, rfl⟩ := h; rfl
  case divu | divs => obtain ⟨-, _, _, -, -, rfl | ⟨_, rfl⟩⟩ := h <;> rfl
  case exg => obtain ⟨_, _, -, -, rfl⟩ := h; rfl
  case nonExecutable => rw [h]
  case bra | beq | bne | bge | bgt | ble | blt | jmp | bsr | jsr | rts => simp [isControlFlow] at hi

/-- Settles O56: the pc by the effect's case, the bookkeeping by the law of every instruction. -/
theorem pcAndBookkeepingWriters : Obligations.PcAndBookkeepingWriters :=
  fun _ _ _ hnext => ⟨fun hi => exec_keeps State.pc hnext (fun _ => rfl) (fun _ => rfl) fun he => he.pc hi,
    exec_bookkeeping hnext⟩

/-- Control flow, exg and the non-executable slot write no flag (R28). -/
theorem Effect.ccr {i : Instr} {s t : State} (h : Effect i s t)
    (hi : isControlFlow i = true ∨ i = .nonExecutable ∨ ∃ a b, i = .exg a b) : t.ccr = s.ccr := by
  cases i <;> simp only [Effect] at h
  case bra | beq | bne | bge | bgt | ble | blt | jmp => obtain ⟨_, -, rfl | rfl⟩ := h <;> rfl
  case bsr | jsr =>
    obtain ⟨_, _, -, hpush, rfl⟩ := h
    obtain ⟨-, rfl⟩ := pushPc_eq_ok hpush
    rfl
  case rts => obtain ⟨-, rfl⟩ := h; rfl
  case exg => obtain ⟨_, _, -, -, rfl⟩ := h; rfl
  case nonExecutable => rw [h]
  all_goals simp [isControlFlow] at hi

/-- X is written by add, sub, neg, the shifts and the rotates only (R28, R113). -/
theorem Effect.ccr_x {i : Instr} {s t : State} (h : Effect i s t) (hi : writesExtend i = false) :
    t.ccr.x = s.ccr.x := by
  cases i
  case add | sub | neg | asl | asr | lsl | lsr | rol | ror => simp [writesExtend] at hi
  case move | and | or | eor | not | clr | ext => obtain ⟨_, hx, -, _, rfl⟩ := h; exact hx
  case cmp => obtain ⟨_, hx, rfl⟩ := h; exact hx
  case swap | mulu | muls => obtain ⟨_, _, _, hx, -, rfl⟩ := h; exact hx
  case divu | divs => obtain ⟨-, _, _, hx, -, rfl | ⟨_, rfl⟩⟩ := h <;> exact hx
  case bra | beq | bne | bge | bgt | ble | blt | jmp | bsr | jsr | rts => rw [h.ccr (.inl rfl)]
  case nonExecutable => rw [h.ccr (.inr (.inl rfl))]
  case exg => rw [h.ccr (.inr (.inr ⟨_, _, rfl⟩))]

/-- Settles O57: events keep the ccr, and each effect's flags by its case. -/
theorem flagWriters : Obligations.FlagWriters :=
  fun _ _ _ hnext =>
    ⟨fun hi => exec_keeps (fun u => u.ccr.x) hnext (fun _ => rfl) (fun _ => rfl) fun he => he.ccr_x hi,
      fun hi => exec_keeps State.ccr hnext (fun _ => rfl) (fun _ => rfl) fun he => he.ccr hi⟩

/-- An instruction's effect leaves every slot it does not write (R23). -/
theorem Effect.reg {i : Instr} {s t : State} (h : Effect i s t) {j : Fin 16} (hj : j ∉ writtenSlots i) :
    t.reg j = s.reg j := by
  cases i <;> simp only [Effect] at h <;> simp only [writtenSlots, Option.mem_toList, List.mem_append, List.mem_singleton,
    not_or] at hj
  case add | sub | neg | asl | asr | lsl | lsr | rol | ror =>
    obtain ⟨_, -, _, rfl⟩ := h
    rw [State.setCcr_reg, storeOperand_reg_other _ _ _ _ hj]
  case move | and | or | eor | not | clr | ext =>
    obtain ⟨_, -, -, _, rfl⟩ := h
    rw [State.setCcr_reg, storeOperand_reg_other _ _ _ _ hj]
  case swap | mulu | muls =>
    obtain ⟨_, k, _, -, hk, rfl⟩ := h
    exact s.setReg_reg_other _ (by rintro rfl; exact hj hk)
  case divu | divs =>
    obtain ⟨-, _, k, -, hk, rfl | ⟨_, rfl⟩⟩ := h
    · rfl
    · exact s.setReg_reg_other _ (by rintro rfl; exact hj hk)
  case exg =>
    obtain ⟨k, l, hk, hl, rfl⟩ := h
    rw [State.setReg_reg_other _ _ (by rintro rfl; exact hj.2 hl), State.setReg_reg_other _ _ (by rintro rfl; exact hj.1 hk)]
  case bsr | jsr =>
    obtain ⟨_, _, -, hpush, rfl⟩ := h
    obtain ⟨-, rfl⟩ := pushPc_eq_ok hpush
    exact s.setReg_reg_other _ (Ne.symm hj)
  case rts => obtain ⟨-, rfl⟩ := h; exact State.setReg_reg_other _ _ (Ne.symm hj)
  case cmp => obtain ⟨_, -, rfl⟩ := h; rfl
  case bra | beq | bne | bge | bgt | ble | blt | jmp => obtain ⟨_, -, rfl | rfl⟩ := h <;> rfl
  case nonExecutable => rw [h]

/-- Settles O58: events keep every register, and each effect writes its own slots. -/
theorem registerWriters : Obligations.RegisterWriters :=
  fun _ _ _ j hnext hj => exec_keeps (State.reg · j) hnext (fun _ => rfl) (fun _ => rfl) fun he => he.reg hj

end Sys2Proof.Machine
end

section
/-! The statements about the decoder (30_encoding sections 1 to 3): what its checks answer on a text that is split into base,
suffix and field, and that the encoder's cells decode to what they spell. -/

namespace Sys2Proof

open Machine

/-! ### A text split into its mnemonic, its suffix and its operand field (R81, R99) -/

section split
variable {t token field base : Text} {suffix : Option Text}

/-- R84: an unknown mnemonic stops the decoder before the suffix and the operands. -/
theorem decodeText_of_unknown (ht : splitAtFirst isSpace t = (token, field)) (hm : splitMnemonic token = (base, suffix))
    (hbase : mnemonicOf base = none) : decodeText t = .error (.refuse .unknownMnemonic) := by
  simp [decodeText, ht, hm, hbase]

/-- R99(b) to (e): under a known mnemonic the size is checked, then the operand field is read. -/
theorem decodeText_of_known {m : Mnemonic} (ht : splitAtFirst isSpace t = (token, field))
    (hm : splitMnemonic token = (base, suffix)) (hbase : mnemonicOf base = some m) :
    decodeText t = checkSize m suffix >>= fun s => formInstr m s field := by
  simp [decodeText, ht, hm, hbase]

end split

/-- What no character of `a` ends is kept in front of what `b` splits into. -/
theorem splitAtFirst_append_left (p : Char → Bool) (a b : Text) (ha : ∀ c ∈ a, p c = false) :
    splitAtFirst p (a ++ b) = (a ++ (splitAtFirst p b).1, (splitAtFirst p b).2) := by
  induction a with
  | nil => rfl
  | cons c r ih =>
    have hr := ih fun d hd => ha d (List.mem_cons_of_mem c hd)
    simp [splitAtFirst, ha c List.mem_cons_self, hr]

/-- A base mnemonic is read up to the first dot (R81). -/
theorem splitMnemonic_dotted {base : Text} (suffix : Text) (hbase : ∀ c ∈ base, c ≠ '.') :
    splitMnemonic (base ++ '.' :: suffix) = (base, some suffix) := by
  have := splitAtFirst_append (· == '.') base ('.' :: suffix) (fun c hc => by simpa using hbase c hc) (.inr ⟨_, _, rfl, rfl⟩)
  simp [splitMnemonic, this]

theorem splitMnemonic_undotted {base : Text} (hbase : ∀ c ∈ base, c ≠ '.') : splitMnemonic base = (base, none) := by
  have := splitAtFirst_append (· == '.') base [] (fun c hc => by simpa using hbase c hc) (.inl rfl)
  rw [List.append_nil] at this
  simp [splitMnemonic, this]

/-! ### Mnemonics -/

theorem mnemonicOf_text (m : Mnemonic) : mnemonicOf m.text = some m := by cases m <;> decide

/-- A base that spells a mnemonic in any case is read as it (R84). -/
theorem mnemonicOf_of_lower_eq {base : Text} {m : Mnemonic} (h : lower base = m.text) : mnemonicOf base = some m := by
  rw [← mnemonicOf_lower, h, mnemonicOf_text]

theorem mnemonicOf_eq_none {base : Text} (h : ∀ m : Mnemonic, m.text ≠ lower base) : mnemonicOf base = none := by
  simp [mnemonicOf, h]

theorem Mnemonic.text_plain (m : Mnemonic) : ∀ c ∈ m.text, c ≠ '.' ∧ isSpace c = false := by
  cases m <;> simp [Mnemonic.text, isSpace]

/-- A property of characters that ignores case holds of a text whose lower case has it. -/
theorem forall_mem_of_lower {p : Char → Prop} (hp : ∀ c : Char, p c.toLower → p c) {t u : Text} (h : lower t = u)
    (hu : ∀ c ∈ u, p c) : ∀ c ∈ t, p c :=
  fun c hc => hp c (hu _ (h ▸ List.mem_map_of_mem hc))

/-- A base that spells a mnemonic has neither a dot nor white space. -/
theorem base_plain {base : Text} {m : Mnemonic} (h : lower base = m.text) :
    ∀ c ∈ base, c ≠ '.' ∧ isSpace c = false := by
  refine forall_mem_of_lower (fun c hc => ?_) h m.text_plain
  rwa [isSpace_toLower, ne_eq, toLower_eq_iff c '.' (by decide)] at hc

/-- The decoder on a base that spells a mnemonic, with a suffix: the size check decides before the operands (R99). -/
theorem decodeText_dotted {base suffix field : Text} {m : Mnemonic} (hbase : lower base = m.text)
    (hsuffix : ∀ c ∈ suffix, isSpace c = false) (hfield : field = [] ∨ ∃ c r, field = c :: r ∧ isSpace c = true) :
    decodeText (base ++ '.' :: (suffix ++ field)) = checkSize m (some suffix) >>= fun s => formInstr m s field := by
  have hplain := base_plain hbase
  have htoken : ∀ c ∈ base ++ '.' :: suffix, isSpace c = false := by
    intro c hc
    rcases List.mem_append.1 hc with hc | hc
    · exact (hplain c hc).2
    · rcases List.mem_cons.1 hc with rfl | hc
      · rfl
      · exact hsuffix c hc
  have hsplit := splitAtFirst_append isSpace _ field htoken hfield
  rw [List.append_assoc, List.cons_append] at hsplit
  exact decodeText_of_known hsplit (splitMnemonic_dotted suffix fun c hc => (hplain c hc).1) (mnemonicOf_of_lower_eq hbase)

/-! ### Decoding what the encoder spells -/

/-- An instruction is what its mnemonic's format makes of its operands. -/
theorem apply_format_operands {i : Instr} {m : Mnemonic} (h : i.mnemonic = some m) :
    (m.format (i.size.getD .w)).apply i.operands = some i := by
  cases i <;> cases h <;> rfl

/-- The field of operands of the right number is read back as what the format makes of them. -/
theorem formInstr_fieldText {m : Mnemonic} {sz : Size} {ops : List Operand} {i : Instr}
    (h : (m.format sz).apply ops = some i) : formInstr m sz (fieldText ops) = .ok i := by
  match hf : m.format sz, ops, h with
  | .f1 j, [], h =>
    cases h
    simp [formInstr, hf, fieldText, operandTexts, trim, trimStart]
  | .f2 make, [a], h =>
    cases h
    exact formInstr_one m sz make a hf
  | .f3 make, [a, b], h =>
    cases h
    simpa [fieldText] using formInstr_two m sz make a b hf

theorem fieldText_start (ops : List Operand) :
    fieldText ops = [] ∨ ∃ c r, fieldText ops = c :: r ∧ isSpace c = true := by
  match ops with
  | [] => exact .inl rfl
  | [_] | _ :: _ :: _ => exact .inr ⟨' ', _, rfl, rfl⟩

theorem Instr.takesSize_of_wf {i : Instr} {m : Mnemonic} {s : Size} (h : i.wf = true) (hm : i.mnemonic = some m)
    (hs : i.size = some s) : m.takesSize s = true := by
  simpa [Instr.wf, hm, hs] using h

theorem eq_nonExecutable_of_mnemonic {i : Instr} (h : i.mnemonic = none) : i = .nonExecutable := by
  cases i with
  | nonExecutable => rfl
  | _ => cases h

/-- Settles O12: the spelled text splits into mnemonic, size and field, and each part is read back. -/
theorem decodeOfEncodeIsTheInstruction : Obligations.DecodeOfEncodeIsTheInstruction := by
  intro i line hwf
  cases hm : i.mnemonic with
  | none =>
    rw [eq_nonExecutable_of_mnemonic hm]
    rfl
  | some m =>
    have hcell : decodeCell (encode i line) = decodeText (m.text ++ sizeText i.size ++ fieldText i.operands) := by
      simp [encode, hm, decodeCell]
    rw [hcell, decodeText_spelled m i.size _ (fieldText_start _) fun s hs => Instr.takesSize_of_wf hwf hm hs]
    exact formInstr_fieldText (apply_format_operands hm)

/-! ### What decodes is well formed -/

/-- Every instruction the format makes has the property. -/
def Format.All (P : Instr → Prop) : Format → Prop
  | .f1 i => P i
  | .f2 make => ∀ a, P (make a)
  | .f3 make => ∀ a b, P (make a b)

/-- A check that passes and what follows it. -/
theorem decode_bind_eq_ok {α β : Type} {x : Except DecodeStop α} {f : α → Except DecodeStop β} {b : β}
    (h : (x >>= f) = .ok b) : ∃ a, x = .ok a ∧ f a = .ok b := by
  match x, h with
  | .ok a, h => exact ⟨a, rfl, h⟩

theorem Format.All.of_formInstr {P : Instr → Prop} {m : Mnemonic} {s : Size} {field : Text} {i : Instr}
    (hall : (m.format s).All P) (h : formInstr m s field = .ok i) : P i := by
  unfold formInstr at h
  split at h
  next j hf _ => cases h; rwa [hf] at hall
  next make a hf _ =>
    obtain ⟨x, -, h⟩ := decode_bind_eq_ok h
    cases h
    rw [hf] at hall
    exact hall x
  next make a b hf _ =>
    obtain ⟨x, -, h⟩ := decode_bind_eq_ok h
    obtain ⟨y, -, h⟩ := decode_bind_eq_ok h
    cases h
    rw [hf] at hall
    exact hall x y
  next => cases h

/-- A format at a size the mnemonic takes, or at the default size w, makes well-formed instructions (R110). -/
theorem Mnemonic.format_all_wf {m : Mnemonic} {s : Size} (h : s = .w ∨ m.takesSize s = true) :
    (m.format s).All (·.wf = true) := by
  cases m
  case ext =>
    rcases h with rfl | h
    · exact fun _ => rfl
    · exact fun _ => h
  case rts => rfl
  case neg | not | clr | swap | bra | bsr | beq | bne | bge | bgt | ble | blt | jmp | jsr => exact fun _ => rfl
  all_goals exact fun _ _ => rfl

theorem checkSize_eq_ok {m : Mnemonic} {suffix : Option Text} {s : Size} (h : checkSize m suffix = .ok s) :
    s = .w ∨ m.takesSize s = true := by
  unfold checkSize at h
  split at h
  · cases h; exact .inl rfl
  · split at h
    · cases h
    · split at h
      · rename_i htakes; cases h; exact .inr htakes
      · cases h

theorem wf_of_decodeText {t : Text} {i : Instr} (h : decodeText t = .ok i) : i.wf = true := by
  rcases ht : splitAtFirst isSpace t with ⟨token, field⟩
  rcases htoken : splitMnemonic token with ⟨base, suffix⟩
  cases hbase : mnemonicOf base with
  | none => simp [decodeText_of_unknown ht htoken hbase] at h
  | some m =>
    rw [decodeText_of_known ht htoken hbase] at h
    obtain ⟨s, hsize, h⟩ := decode_bind_eq_ok h
    exact (Mnemonic.format_all_wf (checkSize_eq_ok hsize)).of_formInstr h

theorem wf_of_decodeCell {c : InstrCell} {i : Instr} (h : decodeCell c = .ok i) : i.wf = true := by
  unfold decodeCell at h
  split at h
  · cases h; rfl
  · exact wf_of_decodeText h

/-- R110's table, row by row. -/
theorem Mnemonic.takesSize_eq_false_iff (m : Mnemonic) (sz : Size) :
    m.takesSize sz = false ↔
      (m = .ext ∧ sz = .b) ∨ (m ∈ [.swap, .mulu, .muls, .divu, .divs] ∧ sz ≠ .w) ∨ (m = .exg ∧ sz ≠ .l) ∨
        m ∈ [.jmp, .jsr, .rts] := by
  cases m <;> simp [Mnemonic.takesSize]

/-! ### Suffixes (R82, R110) -/

theorem checkSize_of_not_taken {m : Mnemonic} {suffix : Text} {sz : Size} (hs : suffixSize suffix = some sz)
    (h : m.takesSize sz = false) : checkSize m (some suffix) = .error (.refuse .sizeNotShown) := by
  simp [checkSize, hs, h]

theorem checkSize_of_invalid {m : Mnemonic} {suffix : Text} (hs : suffixSize suffix = none) :
    checkSize m (some suffix) = .error (.error .invalidSize) := by
  simp [checkSize, hs]

/-- A suffix that is a size's letter in either case: it names the size and has no white space. -/
theorem suffix_of_letter {suffix : Text} {sz : Size}
    (h : sz = .b ∧ lower suffix = ['b'] ∨ sz = .w ∧ lower suffix = ['w'] ∨ sz = .l ∧ lower suffix = ['l']) :
    suffixSize suffix = some sz ∧ ∀ c ∈ suffix, isSpace c = false := by
  have plain {u : Text} (hl : lower suffix = u) (hu : ∀ c ∈ u, isSpace c = false) : ∀ c ∈ suffix, isSpace c = false :=
    forall_mem_of_lower (fun c hc => by rwa [isSpace_toLower] at hc) hl hu
  rcases h with ⟨rfl, hl⟩ | ⟨rfl, hl⟩ | ⟨rfl, hl⟩ <;>
    exact ⟨by simp [suffixSize, hl], plain hl (by simp [isSpace])⟩

theorem suffixSize_eq_none {suffix : Text} (hb : lower suffix ≠ ['b']) (hw : lower suffix ≠ ['w'])
    (hl : lower suffix ≠ ['l']) : suffixSize suffix = none := by
  unfold suffixSize
  split <;> simp_all

theorem decodeCell_of_text {c : InstrCell} {t : Text} (hexec : c.nonExec = false) (ht : c.text = t) :
    decodeCell c = decodeText t := by
  simp [decodeCell, hexec, ht]

/-- Settles O13: the size check passes only a size the mnemonic takes or the default, and refuses any other. -/
theorem decodedInstructionsAreWellFormed : Obligations.DecodedInstructionsAreWellFormed := by
  refine ⟨fun c i => wf_of_decodeCell, Mnemonic.takesSize_eq_false_iff, ?refused⟩
  case refused =>
    intro s c m sz base suffix field hr hexec htext hbase hfield hletter hsize
    obtain ⟨hsuffix, hplain⟩ := suffix_of_letter hletter
    refine step_of_decode_refusal (r := .sizeNotShown) hr ?_
    rw [decodeCell_of_text hexec htext, decodeText_dotted hbase hplain hfield, checkSize_of_not_taken hsuffix hsize]
    rfl

/-- Settles O16: the size check fails with InvalidSize before the operand field is read. -/
theorem invalidSuffixIsRecorded : Obligations.InvalidSuffixIsRecorded := by
  intro s c m base suffix field hr hexec htext hbase hplain hfield hb hw hl
  refine step_of_decode_error hr ?_
  rw [decodeCell_of_text hexec htext, decodeText_dotted hbase hplain hfield,
    checkSize_of_invalid (suffixSize_eq_none hb hw hl)]
  rfl

/-! ### Unknown mnemonics (R84) -/

/-- A base ended by the text's end, a dot or white space is what the decoder looks up. -/
theorem base_of_ended {base rest : Text} (hbase : ∀ c ∈ base, c ≠ '.' ∧ isSpace c = false)
    (hrest : rest = [] ∨ ∃ c r, rest = c :: r ∧ (c = '.' ∨ isSpace c = true)) :
    ∃ token field suffix, splitAtFirst isSpace (base ++ rest) = (token, field) ∧
      splitMnemonic token = (base, suffix) := by
  have hnodot : ∀ c ∈ base, c ≠ '.' := fun c hc => (hbase c hc).1
  have hnospace : ∀ c ∈ base, isSpace c = false := fun c hc => (hbase c hc).2
  rcases hrest with rfl | ⟨c, r, rfl, rfl | hspace⟩
  · exact ⟨base, [], none, splitAtFirst_append _ _ _ hnospace (.inl rfl), splitMnemonic_undotted hnodot⟩
  · refine ⟨base ++ '.' :: (splitAtFirst isSpace r).1, (splitAtFirst isSpace r).2, some (splitAtFirst isSpace r).1, ?_,
      splitMnemonic_dotted _ hnodot⟩
    rw [splitAtFirst_append_left _ _ _ hnospace]
    rfl
  · exact ⟨base, c :: r, none, splitAtFirst_append _ _ _ hnospace (.inr ⟨c, r, rfl, hspace⟩), splitMnemonic_undotted hnodot⟩

/-- Settles O15: the base is looked up first, and it is none of the 34 spellings. -/
theorem unknownMnemonicIsRefused : Obligations.UnknownMnemonicIsRefused := by
  intro s c base rest hr hexec htext hbase hrest hunknown
  obtain ⟨token, field, suffix, htoken, hsplit⟩ := base_of_ended hbase hrest
  refine step_of_decode_refusal (r := .unknownMnemonic) hr ?_
  rw [decodeCell_of_text hexec htext, decodeText_of_unknown htoken hsplit (mnemonicOf_eq_none hunknown)]

/-! ### The case of letters (R72) -/

theorem splitMnemonic_lower (token : Text) :
    splitMnemonic (lower token) = (lower (splitMnemonic token).1, (splitMnemonic token).2.map lower) := by
  unfold splitMnemonic
  rw [splitAtFirst_lower _ fun c => beq_toLower c '.' (by decide)]
  rcases splitAtFirst (· == '.') token with ⟨base, _ | ⟨c, suffix⟩⟩ <;> rfl

/-- Settles O14: the text in lower case splits into the parts in lower case, and every check ignores their case. -/
theorem decodingIgnoresLetterCase : Obligations.DecodingIgnoresLetterCase := by
  intro t
  rcases ht : splitAtFirst isSpace t with ⟨token, field⟩
  rcases htoken : splitMnemonic token with ⟨base, suffix⟩
  have ht' : splitAtFirst isSpace (lower t) = (lower token, lower field) := by
    rw [splitAtFirst_lower _ isSpace_toLower, ht]
  have htoken' : splitMnemonic (lower token) = (lower base, suffix.map lower) := by
    rw [splitMnemonic_lower, htoken]
  cases hbase : mnemonicOf base with
  | none =>
    rw [decodeText_of_unknown ht htoken hbase, decodeText_of_unknown ht' htoken' (by rw [mnemonicOf_lower, hbase])]
  | some m =>
    rw [decodeText_of_known ht htoken hbase, decodeText_of_known ht' htoken' (by rw [mnemonicOf_lower, hbase]),
      checkSize_lower]
    simp only [formInstr_lower]

/-- Settles O11: the decoder runs on each of the fifteen texts. -/
theorem knownTextsDecode : Obligations.KnownTextsDecode := by
  unfold Obligations.KnownTextsDecode
  decide

end Sys2Proof
end

section
/-! The statement about the host's memory access (20_memory section 2): a get after a set. -/

namespace Sys2Proof.Machine

theorem State.hostSet_of_valid {s : State} {a : Int} {n : Nat} (v : Int) (h : valid a n = true) :
    s.hostSet a n v = s.setMem (Memory.write s.mem a.toNat n (v % 256 ^ n).toNat) := by
  simp [State.hostSet, h]

theorem State.hostGet_of_valid {s : State} {a : Int} {n : Nat} (h : valid a n = true) :
    s.hostGet a n = some (Memory.read s.mem a.toNat n) := by
  simp [State.hostGet, h]

/-- The low `n` bytes of an integer are a number of `n` bytes. -/
theorem toNat_emod_pow_lt (v : Int) (n : Nat) : (v % 256 ^ n).toNat < 256 ^ n := by
  have hpos : (0 : Int) < 256 ^ n := by positivity
  zify
  rw [Int.toNat_of_nonneg (Int.emod_nonneg v hpos.ne')]
  exact Int.emod_lt_of_pos v hpos

/-- Settles O19: the bytes written are read back, and a write leaves the bytes outside it. -/
theorem hostSetThenGet : Obligations.HostSetThenGet := by
  intro s a n v _ hvalid hwf
  rw [State.hostSet_of_valid v hvalid]
  refine ⟨?get, fun b hb => ?outside⟩
  case get =>
    rw [State.hostGet_of_valid hvalid, State.setMem_mem, Memory.read_write_self _ _ _ _ hwf,
      Nat.mod_eq_of_lt (toNat_emod_pow_lt v n)]
  case outside => exact Memory.getByte_write_outside _ _ _ _ _ hb

end Sys2Proof.Machine
end

section
/-! The statements about arithmetic, move and the logical instructions (41_arithmetic, 42_move_logical): what each legal form
completes with, and the frames. -/

namespace Sys2Proof.Machine

open Sys2Proof (Operand Size Instr)

/-! ### The frames -/

/-- An instruction that is no divide ends in an error record or in its effect. -/
theorem exec_error_or_effect {i : Instr} {s t : State} (h : exec i s = .next t)
    (hi : ∀ src dst, i ≠ .divu src dst ∧ i ≠ .divs src dst) : (∃ k, t = errorState s k) ∨ Effect i s t := by
  rcases exec_cases h with hrecord | ⟨⟨src, dst, hdivide, -⟩, -⟩ | heffect
  · exact .inl hrecord
  · exact absurd hdivide (by simp [hi src dst])
  · exact .inr heffect

/-- An effect that stores to the destination has the destination's frame. -/
theorem dataFrame_of_stores {sz : Size} {dst : Operand} {s t : State} (h : ∃ f, Stores sz dst s t f) :
    DataFrame sz dst s t :=
  h.elim fun _ hstores => hstores.dataFrame.1

/-- A store whose flags keep X has the destination's frame and keeps X. -/
theorem dataFrame_x_of_stores {sz : Size} {dst : Operand} {s t : State}
    (h : ∃ f : Ccr, f.x = s.ccr.x ∧ Stores sz dst s t f) : DataFrame sz dst s t ∧ t.ccr.x = s.ccr.x := by
  obtain ⟨f, hx, hstores⟩ := h
  obtain ⟨hframe, rfl⟩ := hstores.dataFrame
  exact ⟨hframe, hx⟩

/-- Settles O25: the effect of add, sub and neg is one store, that of cmp a new ccr. -/
theorem arithmeticFrame : Obligations.ArithmeticFrame := by
  refine fun sz src dst s t => ⟨?stores, fun hcmp => ?cmp⟩
  case stores =>
    rintro (h | h | h) <;>
      exact (exec_error_or_effect h fun _ _ => ⟨nofun, nofun⟩).imp_right dataFrame_of_stores
  case cmp =>
    refine (exec_error_or_effect hcmp fun _ _ => ⟨nofun, nofun⟩).imp_right ?_
    rintro ⟨f, hx, rfl⟩
    exact ⟨rfl, hx⟩

/-- Settles O30: the effect of each of the six is one store with flags that keep X. -/
theorem moveAndLogicalFrame : Obligations.MoveAndLogicalFrame := by
  rintro sz src dst s t (h | h | h | h | h | h) <;>
    exact (exec_error_or_effect h fun _ _ => ⟨nofun, nofun⟩).imp_right dataFrame_x_of_stores

/-! ### Completion: a legal form with accessible operands -/

section completes
variable {sz : Size} {src dst : Operand} {s : State}

theorem aluTwo_completes (op : {w : Nat} → BitVec w → BitVec w → Ccr → BitVec w × Ccr) (hm : Memory.wf s.mem = true)
    (hi : isImmediate dst = false) (hmem : ¬ (isMem src = true ∧ isMem dst = true)) (hs : accessible src sz s = true)
    (hd : accessible dst sz s = true) :
    ∃ t, conclude s (aluTwo op sz src dst s) = .next t ∧
      Yields sz dst t (op (operandValue src sz s) (operandValue dst sz s) s.ccr) := by
  rw [aluTwo_of_legal op (legalAlu_eq_ok.2 ⟨hi, hmem⟩) hs hd]
  exact ⟨_, rfl, yields_storeOperand hi hm _⟩

theorem aluOne_completes (op : {w : Nat} → BitVec w → Ccr → BitVec w × Ccr) (hm : Memory.wf s.mem = true)
    (hi : isImmediate dst = false) (ha : isAddressRegister dst = false) (hd : accessible dst sz s = true) :
    ∃ t, conclude s (aluOne op sz dst s) = .next t ∧ Yields sz dst t (op (operandValue dst sz s) s.ccr) := by
  rw [aluOne_of_legal op (legalUnary_eq_ok.2 ⟨hi, ha⟩) hd]
  exact ⟨_, rfl, yields_storeOperand hi hm _⟩

/-- R151. -/
theorem execMove_completes (hm : Memory.wf s.mem = true) (hi : isImmediate dst = false) (hs : accessible src sz s = true)
    (hd : accessible dst sz s = true) :
    ∃ t, execMove sz src dst s = .next t ∧ Yields sz dst t (moveOP (operandValue src sz s) s.ccr) := by
  simp only [execMove, legalMove_eq_ok.2 hi, readOp_of_accessible hs, writeOp_of_accessible _ hd, ok_bind_except]
  exact ⟨_, rfl, yields_storeOperand hi hm _⟩

/-- R156. -/
theorem execClr_completes (hm : Memory.wf s.mem = true) (hi : isImmediate dst = false) (ha : isAddressRegister dst = false)
    (hd : accessible dst sz s = true) : ∃ t, execClr sz dst s = .next t ∧ Yields sz dst t (clrOP s.ccr) := by
  simp only [execClr, legalUnary_eq_ok.2 ⟨hi, ha⟩, writeOp_of_accessible _ hd, ok_bind_except]
  exact ⟨_, rfl, yields_storeOperand hi hm _⟩

/-- R143: only the ccr is written. -/
theorem execCmp_completes (hi : isImmediate dst = false) (hs : accessible src sz s = true)
    (hd : accessible dst sz s = true) :
    execCmp sz src dst s = .next (s.setCcr (cmpOP (operandValue src sz s) (operandValue dst sz s) s.ccr)) := by
  simp only [execCmp, legalMove_eq_ok.2 hi, readOp_of_accessible hs, readOp_of_accessible hd, ok_bind_except, conclude_ok]

end completes

/-! ### The library's results (R116 to R124) -/

section results
variable {w : Nat} (src dst : BitVec w) (f : Ccr)

/-- Z and N as R116 and R118 take them from the result. -/
def ResultFlags (r : BitVec w) (f : Ccr) : Prop := f.z = decide (r = 0) ∧ f.n = r.getLsbD (w - 1)

theorem resultFlags_pack (r : BitVec w) (x v c : Bool) : ResultFlags r (Ccr.pack x r.msb (r == 0) v c) := by
  simp [ResultFlags, BitVec.msb_eq_getLsbD_last, beq_zero_eq_decide]

theorem addOP_toNat : (addOP src dst f).1.toNat = (dst.toNat + src.toNat) % 2 ^ w := by
  simp [addOP]

theorem addOP_c : Ccr.c (addOP src dst f).2 = decide (dst.toNat + src.toNat > 2 ^ w - 1) := by
  simp [addOP]

theorem addOP_x : Ccr.x (addOP src dst f).2 = Ccr.c (addOP src dst f).2 := by
  simp [addOP]

theorem addOP_resultFlags : ResultFlags (addOP src dst f).1 (addOP src dst f).2 := resultFlags_pack ..

/-- Destination minus source is the difference of the bit vectors (R118). -/
theorem subOP_value : (subOP src dst f).1 = dst - src := by
  simp only [subOP]
  rw [Int.sub_eq_add_neg, BitVec.ofInt_add, BitVec.ofInt_neg, BitVec.ofInt_natCast, BitVec.ofInt_natCast,
    BitVec.ofNat_toNat, BitVec.ofNat_toNat, BitVec.setWidth_eq, BitVec.setWidth_eq, BitVec.sub_eq_add_neg]

theorem subOP_toNat : ((subOP src dst f).1.toNat : Int) = ((dst.toNat : Int) - (src.toNat : Int)) % 2 ^ w := by
  have hpos : (0 : Int) < 2 ^ w := by positivity
  simp only [subOP, BitVec.toNat_ofInt]
  push_cast
  exact Int.toNat_of_nonneg (Int.emod_nonneg _ hpos.ne')

theorem subOP_c : Ccr.c (subOP src dst f).2 = decide (dst.toNat < src.toNat) := by
  simp [subOP]

theorem subOP_x : Ccr.x (subOP src dst f).2 = Ccr.c (subOP src dst f).2 := by
  simp [subOP]

theorem subOP_resultFlags : ResultFlags (subOP src dst f).1 (subOP src dst f).2 := resultFlags_pack ..

theorem negOP_value : (negOP dst f).1 = -dst := by
  rw [negOP, subOP_value]; simp

theorem negOP_c : Ccr.c (negOP dst f).2 = decide (dst ≠ 0) := by
  rw [negOP, subOP_c, Bool.eq_iff_iff]
  simp [Nat.pos_iff_ne_zero, BitVec.toNat_eq]

/-- The subtract overflow asks for a negative destination, and neg subtracts from 0 (R119, R121). -/
theorem negOP_v : Ccr.v (negOP dst f).2 = false := by
  simp [negOP, subOP, subOverflow]

theorem notOP_toNat : (notOP dst f).1.toNat = 2 ^ w - 1 - dst.toNat := BitVec.toNat_not ..

end results

/-! ### The statements -/

/-- Settles O20: the destination reads as the library's sum, whose flags are the ccr. -/
theorem addResult : Obligations.AddResult := by
  intro sz src dst s hm hi hmem hs hd
  obtain ⟨t, hnext, hv, hf⟩ := aluTwo_completes addOP hm hi hmem hs hd
  refine ⟨t, hnext, ?_⟩
  rw [hv, hf]
  exact ⟨addOP_toNat .., addOP_c .., addOP_x .., addOP_resultFlags ..⟩

/-- Settles O21: the destination reads as the library's difference, whose flags are the ccr. -/
theorem subResult : Obligations.SubResult := by
  intro sz src dst s hm hi hmem hs hd
  obtain ⟨t, hnext, hv, hf⟩ := aluTwo_completes subOP hm hi hmem hs hd
  refine ⟨t, hnext, ?_⟩
  rw [hv, hf]
  exact ⟨subOP_toNat .., subOP_c .., subOP_x .., subOP_resultFlags ..⟩

/-- Settles O23: cmp keeps X and takes the other flags from the subtraction, whose result is the difference. -/
theorem cmpResult : Obligations.CmpResult := by
  intro sz src dst s hi hs hd
  refine ⟨_, execCmp_completes hi hs hd, cmpOP_x .., ?_⟩
  obtain ⟨hz, hn⟩ := subOP_resultFlags (operandValue src sz s) (operandValue dst sz s) s.ccr
  have hv := subOP_v (operandValue src sz s) (operandValue dst sz s) s.ccr
  rw [subOP_value] at hz hn hv
  simp [cmpOP, subOP_c, hz, hn, hv, subOverflow, BitVec.msb_eq_getLsbD_last, BitVec.sub_eq_iff_eq_add]

/-- Settles O24: neg subtracts the operand from 0, so the borrow is that the operand is not 0 and V cannot be set. -/
theorem negResult : Obligations.NegResult := by
  intro sz dst s hm hi ha hd
  obtain ⟨t, hnext, hv, hf⟩ := aluOne_completes negOP hm hi ha hd
  refine ⟨t, hnext, ?_⟩
  rw [hv, hf]
  refine ⟨?value, negOP_c .., subOP_x .., negOP_v .., subOP_resultFlags ..⟩
  case value => rw [negOP_value, BitVec.toNat_neg]

/-- Settles O26: move's result is the value it read. -/
theorem moveResult : Obligations.MoveResult := by
  intro sz src dst s hm hi hs hd
  obtain ⟨t, hnext, hv, -⟩ := execMove_completes hm hi hs hd
  exact ⟨t, hnext, hv⟩

/-- Settles O27: each result is the bit vectors' own operation, whose bits are the operands' combined. -/
theorem logicalResults : Obligations.LogicalResults := by
  intro sz src dst s hm hi hmem hs hd
  refine ⟨?and, ?or, ?eor⟩
  case and =>
    obtain ⟨t, hnext, hv, -⟩ := aluTwo_completes andOP hm hi hmem hs hd
    exact ⟨t, hnext, fun b _ => by rw [hv]; exact BitVec.getLsbD_and⟩
  case or =>
    obtain ⟨t, hnext, hv, -⟩ := aluTwo_completes orOP hm hi hmem hs hd
    exact ⟨t, hnext, fun b _ => by rw [hv]; exact BitVec.getLsbD_or⟩
  case eor =>
    obtain ⟨t, hnext, hv, -⟩ := aluTwo_completes eorOP hm hi hmem hs hd
    exact ⟨t, hnext, fun b _ => by rw [hv]; exact BitVec.getLsbD_xor⟩

/-- Settles O28: not's result is the complement, clr's is 0. -/
theorem notAndClrResults : Obligations.NotAndClrResults := by
  intro sz dst s hm hi ha hd
  refine ⟨?not, ?clr⟩
  case not =>
    obtain ⟨t, hnext, hv, -⟩ := aluOne_completes notOP hm hi ha hd
    exact ⟨t, hnext, by rw [hv, notOP_toNat]⟩
  case clr =>
    obtain ⟨t, hnext, hv, -⟩ := execClr_completes hm hi ha hd
    exact ⟨t, hnext, by rw [hv]; rfl⟩

/-! ### ext, swap, exg -/

theorem State.readReg_long (s : State) (i : Fin 16) : s.readReg i 32 = s.reg i := BitVec.setWidth_eq _

/-- `ext` from `n` bits to the size: the signed value is kept, with the frame and the flags (R124, R157). -/
theorem extendRegister_completes {n : Nat} (sz : Size) (hn : n ≤ sz.bits) (k : Fin 8) (s : State) :
    ∃ t, conclude s (extendRegister n sz.bits (.dataRegister k) s) = .next t ∧
      (t.readReg (dataSlot k) sz.bits).toInt = (s.readReg (dataSlot k) n).toInt ∧
      DataFrame sz (.dataRegister k) s t ∧ LogicalFlags (t.readReg (dataSlot k) sz.bits) s.ccr t.ccr := by
  have hread (f : Ccr) (v : BitVec sz.bits) :
      ((s.writeReg (dataSlot k) v).setCcr f).readReg (dataSlot k) sz.bits = v :=
    State.readReg_writeReg_self s _ v (Size.bits_le sz)
  refine ⟨_, rfl, ?value, dataFrame_store s _ _, ?flags⟩
  case value => rw [hread]; exact BitVec.toInt_signExtend_of_le hn
  case flags => rw [hread]; exact logicalFlags_moveFlags _ _

/-- Settles O31: both sizes are one extension, and size b is refused before its operand. -/
theorem extResult : Obligations.ExtResult := by
  refine fun n s => ⟨extendRegister_completes .w (by decide) n s, ?long, fun _ => rfl⟩
  case long =>
    obtain ⟨t, hnext, hvalue, hframe, hflags⟩ := extendRegister_completes .l (n := 16) (by decide) n s
    refine ⟨t, hnext, ?_⟩
    rw [← State.readReg_long t]
    exact ⟨hvalue, hframe, hflags⟩

/-- Two bit vectors put together, in numbers. -/
theorem toNat_append_add {m n : Nat} (hi : BitVec m) (lo : BitVec n) :
    (hi ++ lo).toNat = hi.toNat * 2 ^ n + lo.toNat := by
  rw [BitVec.toNat_append, ← Nat.shiftLeft_add_eq_or_of_lt lo.isLt, Nat.shiftLeft_eq]

theorem swapOP_toNat (d : Word) (f : Ccr) : (swapOP d f).1.toNat = d.toNat % 65536 * 65536 + d.toNat / 65536 := by
  have hlt := d.isLt
  simp only [swapOP, moveOP, toNat_append_add, BitVec.extractLsb'_toNat, Nat.shiftRight_eq_div_pow]
  omega

/-- Settles O32: the long is written whole, so its frame is the destination's and its flags are R122's. -/
theorem swapResult : Obligations.SwapResult := by
  intro n s
  refine ⟨_, rfl, ?value, dataFrame_setReg s _ _ rfl, ?flags⟩
  case value => rw [State.setCcr_reg, State.setReg_reg_self, swapOP_toNat]
  case flags => rw [State.setCcr_reg, State.setReg_reg_self]; exact logicalFlags_moveFlags _ _

theorem registerOnly_of_slot {op : Operand} {i : Fin 16} (h : slotOf op = some i) : registerOnly op = .ok i := by
  simp [registerOnly, h]

/-- Settles O33: the second write is the one that counts where the slots are the same, and then both values are too. -/
theorem exgResult : Obligations.ExgResult := by
  intro op1 op2 i j s hi hj
  refine ⟨(s.setReg i (s.reg j)).setReg j (s.reg i), ?next, ?first, ?second, fun k hki hkj => ?others, rfl, rfl, rfl,
    ⟨rfl, rfl, rfl, rfl, rfl, rfl⟩⟩
  case next => simp [exec, execExg, registerOnly_of_slot hi, registerOnly_of_slot hj]
  case first =>
    by_cases hij : j = i
    · subst hij; rw [State.setReg_reg_self]
    · rw [State.setReg_reg_other _ _ hij, State.setReg_reg_self]
  case second => rw [State.setReg_reg_self]
  case others => rw [State.setReg_reg_other _ _ hkj.symm, State.setReg_reg_other _ _ hki.symm]

end Sys2Proof.Machine
end

section
/-! The statements about the shifts and rotates (43_shift_rotate): what each legal form completes with, the frame, and what
the other forms do. -/

namespace Sys2Proof.Machine

open Sys2Proof (Operand Size Instr)

/-! ### Completion -/

theorem shiftInstr_completes (op : {w : Nat} → BitVec w → Nat → Ccr → BitVec w × Ccr) {sz : Size} {count dst : Operand}
    {s : State} {c : Nat} (hm : Memory.wf s.mem = true) (hform : ShiftForm sz count dst) (hc : CountIs count s c)
    (hd : accessible dst sz s = true) :
    ∃ t, conclude s (shiftInstr op sz count dst s) = .next t ∧ Yields sz dst t (op (operandValue dst sz s) c s.ccr) := by
  obtain ⟨hlegal, hi⟩ := legalShift_of_form hform
  rw [shiftInstr_of_legal op hlegal hd, shiftCount_of_countIs hc]
  exact ⟨_, rfl, yields_storeOperand hi hm _⟩

/-! ### The library's results (R126 to R131) -/

section results
variable {w : Nat} (x : BitVec w) (c : Nat) (f : Ccr)

theorem lslOP_toNat : (lslOP x c f).1.toNat = x.toNat * 2 ^ c % 2 ^ w := BitVec.toNat_ofNat ..

theorem aslOP_toNat (rule : AslVRule) : (aslOP rule x c f).1.toNat = x.toNat * 2 ^ c % 2 ^ w := BitVec.toNat_ofNat ..

theorem lsrOP_toNat : (lsrOP x c f).1.toNat = x.toNat / 2 ^ c :=
  Nat.mod_eq_of_lt ((Nat.div_le_self _ _).trans_lt x.isLt)

/-- Floor division of the signed value is the arithmetic right shift (R129). -/
theorem asrOP_toInt : (asrOP x c f).1.toInt = x.toInt / 2 ^ c := by
  have hshift : x.toInt / 2 ^ c = (x.sshiftRight c).toInt := by
    rw [BitVec.toInt_sshiftRight, Int.shiftRight_eq_div_pow]
    push_cast
    rfl
  simp only [asrOP, hshift, BitVec.ofInt_toInt]

theorem ofNat_mul_two_pow : BitVec.ofNat w (x.toNat * 2 ^ c) = x <<< c := by
  apply BitVec.eq_of_toNat_eq
  simp [Nat.shiftLeft_eq]

theorem ofNat_div_two_pow : BitVec.ofNat w (x.toNat / 2 ^ c) = x >>> c := by
  apply BitVec.eq_of_toNat_eq
  rw [BitVec.toNat_ofNat, BitVec.toNat_ushiftRight, Nat.shiftRight_eq_div_pow]
  exact Nat.mod_eq_of_lt ((Nat.div_le_self _ _).trans_lt x.isLt)

/-- The two halves of a rotation share no bit, so their sum is their union. -/
theorem shiftLeft_add_ushiftRight {j k : Nat} (h : j + k = w) : x <<< j + x >>> k = x <<< j ||| x >>> k := by
  apply BitVec.add_eq_or_of_and_eq_zero
  apply BitVec.eq_of_getLsbD_eq
  intro b hb
  by_cases hj : b < j
  · simp [hj]
  · simp [BitVec.getLsbD_of_ge x (k + b) (by omega)]

/-- R130: `rol` is the rotation of the bit vector. -/
theorem rolOP_value : (rolOP x c f).1 = x.rotateLeft c := by
  rcases Nat.eq_zero_or_pos w with rfl | hw
  · exact Subsingleton.elim _ _
  · have hk := Nat.mod_lt c hw
    simp only [rolOP]
    rw [BitVec.ofNat_add, ofNat_mul_two_pow, ofNat_div_two_pow, shiftLeft_add_ushiftRight x (by omega),
      BitVec.rotateLeft_def]

/-- R130: `ror` is the rotation of the bit vector. -/
theorem rorOP_value : (rorOP x c f).1 = x.rotateRight c := by
  rcases Nat.eq_zero_or_pos w with rfl | hw
  · exact Subsingleton.elim _ _
  · have hk := Nat.mod_lt c hw
    simp only [rorOP]
    rw [Nat.add_comm, BitVec.ofNat_add, ofNat_mul_two_pow, ofNat_div_two_pow, shiftLeft_add_ushiftRight x (by omega),
      BitVec.rotateRight_def, BitVec.or_comm]

/-- Bit `b` moves `c` places up and round. -/
theorem getLsbD_rolOP {b : Nat} (hb : b < w) : (rolOP x c f).1.getLsbD ((b + c) % w) = x.getLsbD b := by
  have hk := Nat.mod_lt c (Nat.zero_lt_of_lt hb)
  rw [rolOP_value, BitVec.getLsbD_rotateLeft, Nat.add_mod_eq_ite, Nat.mod_eq_of_lt hb]
  by_cases hround : w ≤ b + c % w
  · have hlow : b + c % w - w < c % w := by omega
    have hback : w - c % w + (b + c % w - w) = b := by omega
    simp [hround, hlow, hback]
  · have hhigh : ¬ b + c % w < c % w := by omega
    have hin : b + c % w < w := by omega
    simp [hround, hhigh, hin]

/-- Bit `b` comes from `c` places up and round. -/
theorem getLsbD_rorOP {b : Nat} (hb : b < w) : (rorOP x c f).1.getLsbD b = x.getLsbD ((b + c) % w) := by
  have hk := Nat.mod_lt c (Nat.zero_lt_of_lt hb)
  rw [rorOP_value, BitVec.getLsbD_rotateRight, Nat.add_mod_eq_ite, Nat.mod_eq_of_lt hb]
  by_cases hround : w ≤ b + c % w
  · have hhigh : ¬ b < w - c % w := by omega
    have hback : b - (w - c % w) = b + c % w - w := by omega
    simp [hround, hhigh, hb, hback]
  · have hlow : b < w - c % w := by omega
    simp [hround, hlow, Nat.add_comm]

/-- R131 under BEFORE_AFTER. -/
theorem aslOverflow_beforeAfter_iff (r : BitVec w) :
    aslOverflow .beforeAfter x r c = true ↔ x.getLsbD (w - 1) ≠ r.getLsbD (w - 1) := by
  simp [aslOverflow, BitVec.msb_eq_getLsbD_last]

/-- R131 under ANY_POINT: some `m_k` differs from `m_0`, which is the top bit. -/
theorem aslOverflow_anyPoint_iff (hw : 0 < w) (r : BitVec w) :
    aslOverflow .anyPoint x r c = true ↔
      ∃ k, k ≤ c ∧ (decide (k < w) && x.getLsbD (w - 1 - k)) ≠ x.getLsbD (w - 1) := by
  have hfirst : signAfter x 0 = x.getLsbD (w - 1) := by simp [signAfter, hw]
  simp only [aslOverflow, hfirst, List.any_eq_true, List.mem_range, Nat.lt_succ_iff, bne_iff_ne]
  rfl

theorem aslOP_v (rule : AslVRule) : Ccr.v (aslOP rule x c f).2 = aslOverflow rule x (aslOP rule x c f).1 c :=
  (shiftFlags_spec ..).2

end results

/-! ### The statements -/

/-- Settles O34: both write the value times 2^c, with C and X from the last bit out of the top. -/
theorem leftShiftResults : Obligations.LeftShiftResults := by
  intro sz count dst s c hm hform hc hd
  refine ⟨?lsl, ?asl⟩
  case lsl =>
    obtain ⟨t, hnext, hv, hf⟩ := shiftInstr_completes lslOP hm hform hc hd
    refine ⟨t, hnext, ?_⟩
    rw [hv, hf]
    exact ⟨lslOP_toNat .., (shiftFlags_spec ..).2, (shiftFlags_spec ..).1⟩
  case asl =>
    obtain ⟨t, hnext, hv, hf⟩ := shiftInstr_completes (aslOP s.params.config.aslVRule) hm hform hc hd
    refine ⟨t, hnext, ?_⟩
    rw [hv, hf]
    exact ⟨aslOP_toNat .., (shiftFlags_spec ..).1⟩

/-- Settles O35: V is the library's overflow of the value before and the result, under the state's rule. -/
theorem aslOverflowByRule : Obligations.AslOverflowByRule := by
  intro sz count dst s c hm hform hc hd
  obtain ⟨t, hnext, hv, hf⟩ := shiftInstr_completes (aslOP s.params.config.aslVRule) hm hform hc hd
  refine ⟨t, hnext, ?_⟩
  rw [hv, hf, aslOP_v]
  refine ⟨fun hrule => ?beforeAfter, fun hrule => ?anyPoint⟩
  case beforeAfter => rw [hrule, aslOverflow_beforeAfter_iff]
  case anyPoint => rw [hrule, aslOverflow_anyPoint_iff _ _ (Size.bits_pos sz)]

/-- Settles O36: the unsigned and the signed floor division, with C and X from the last bit out of the bottom. -/
theorem rightShiftResults : Obligations.RightShiftResults := by
  intro sz count dst s c hm hform hc hd
  refine ⟨?lsr, ?asr⟩
  case lsr =>
    obtain ⟨t, hnext, hv, hf⟩ := shiftInstr_completes lsrOP hm hform hc hd
    refine ⟨t, hnext, ?_⟩
    rw [hv, hf]
    exact ⟨lsrOP_toNat .., (shiftFlags_spec ..).2, (shiftFlags_spec ..).1⟩
  case asr =>
    obtain ⟨t, hnext, hv, hf⟩ := shiftInstr_completes asrOP hm hform hc hd
    refine ⟨t, hnext, ?_⟩
    rw [hv, hf, ← BitVec.msb_eq_getLsbD_last]
    exact ⟨asrOP_toInt .., (shiftFlags_spec ..).2, (shiftFlags_spec ..).1⟩

/-- Settles O37: both are rotations of the bit vector, with C and X from the end the bit came round to. -/
theorem rotateResults : Obligations.RotateResults := by
  intro sz count dst s c hm hform hc hd
  refine ⟨?rol, ?ror⟩
  case rol =>
    obtain ⟨t, hnext, hv, hf⟩ := shiftInstr_completes rolOP hm hform hc hd
    refine ⟨t, hnext, ?_⟩
    rw [hv, hf]
    exact ⟨fun b => getLsbD_rolOP _ _ _, (shiftFlags_spec ..).2, (shiftFlags_spec ..).1⟩
  case ror =>
    obtain ⟨t, hnext, hv, hf⟩ := shiftInstr_completes rorOP hm hform hc hd
    refine ⟨t, hnext, ?_⟩
    rw [hv, hf, ← BitVec.msb_eq_getLsbD_last]
    exact ⟨fun b => getLsbD_rorOP _ _ _, (shiftFlags_spec ..).2, (shiftFlags_spec ..).1⟩

/-- Settles O38: the effect of each of the six is one store to the destination. -/
theorem shiftFrame : Obligations.ShiftFrame := by
  rintro sz count dst s t (h | h | h | h | h | h) <;>
    exact (exec_error_or_effect h fun _ _ => ⟨nofun, nofun⟩).imp_right dataFrame_of_stores

/-! ### The other forms (R107) -/

/-- Each of the six is the shared shape with its own library function. -/
theorem exec_shift {mk : Size → Operand → Operand → Instr}
    (hmk : mk ∈ [Instr.asl, Instr.asr, Instr.lsl, Instr.lsr, Instr.rol, Instr.ror]) (s : State) :
    ∃ op : {w : Nat} → BitVec w → Nat → Ccr → BitVec w × Ccr,
      ∀ sz count dst, exec (mk sz count dst) s = conclude s (shiftInstr op sz count dst s) := by
  simp only [List.mem_cons, List.not_mem_nil, or_false] at hmk
  rcases hmk with rfl | rfl | rfl | rfl | rfl | rfl
  · exact ⟨aslOP _, fun _ _ _ => rfl⟩
  · exact ⟨asrOP, fun _ _ _ => rfl⟩
  · exact ⟨lslOP, fun _ _ _ => rfl⟩
  · exact ⟨lsrOP, fun _ _ _ => rfl⟩
  · exact ⟨rolOP, fun _ _ _ => rfl⟩
  · exact ⟨rorOP, fun _ _ _ => rfl⟩

/-- A form R107 does not call legal ends in the rule's event. -/
theorem exec_shift_of_illegal {mk : Size → Operand → Operand → Instr}
    (hmk : mk ∈ [Instr.asl, Instr.asr, Instr.lsl, Instr.lsr, Instr.rol, Instr.ror]) {sz : Size} {count dst : Operand}
    (s : State) {e : Event} (h : legalShift sz count dst = .error e) :
    exec (mk sz count dst) s = conclude s (.error e) := by
  obtain ⟨op, hexec⟩ := exec_shift hmk s
  rw [hexec, shiftInstr, h, error_bind_except]

section legalShift
variable (sz : Size) {count dst : Operand}

theorem legalShift_immediate (h : isImmediate dst = true) : legalShift sz count dst = illegalOperand := by
  cases dst <;> simp [isImmediate] at h
  rfl

theorem legalShift_addressRegister (h : isAddressRegister dst = true) :
    legalShift sz count dst = .error (.refuse .formNotShown) := by
  cases dst <;> simp [isAddressRegister] at h
  rfl

theorem legalShift_count_outside (n : Fin 8) {c : Int} (h : c < 0 ∨ 8 < c) :
    legalShift sz (.immediate c) (.dataRegister n) = .error (.nonFatal .shiftCount) := by
  have hout : ¬ (0 ≤ c ∧ c ≤ Config.maxRegisterCount) := by simp only [Config.maxRegisterCount]; omega
  simp only [legalShift, if_neg hout]

theorem legalShift_count_not_shown (n : Fin 8) (h : isMem count = true ∨ isAddressRegister count = true) :
    legalShift sz count (.dataRegister n) = .error (.refuse .formNotShown) := by
  cases count <;> simp [isMem, isAddressRegister] at h <;> rfl

theorem legalShift_memory_count {c : Int} (hm : isMem dst = true) (h : c ≠ 1) :
    legalShift sz (.immediate c) dst = .error (.nonFatal .shiftCount) := by
  cases dst <;> simp [isMem] at hm <;> simp [legalShift, h]

theorem legalShift_memory_size {sz : Size} (hm : isMem dst = true) (h : sz ≠ .w) :
    legalShift sz (.immediate 1) dst = .error (.nonFatal .invalidSize) := by
  cases dst <;> simp [isMem] at hm <;> simp [legalShift, h]

theorem legalShift_memory_not_shown (hm : isMem dst = true) (h : isImmediate count = false) :
    legalShift sz count dst = .error (.refuse .formNotShown) := by
  cases dst <;> simp [isMem] at hm <;> cases count <;> simp [isImmediate] at h <;> rfl

end legalShift

/-- Settles O39: R107's test clause by clause; its event is all such a form does. -/
theorem shiftsRejectOtherForms : Obligations.ShiftsRejectOtherForms := by
  intro mk hmk sz count dst s
  have reject {e : Event} (h : legalShift sz count dst = .error e) := exec_shift_of_illegal hmk s h
  refine ⟨fun h => reject (legalShift_immediate sz h), fun h => reject (legalShift_addressRegister sz h), ?_, ?_, ?_, ?_,
    fun hm h => reject (legalShift_memory_not_shown sz hm h)⟩
  · rintro n c rfl rfl h
    exact reject (legalShift_count_outside sz n h)
  · rintro n rfl h
    exact reject (legalShift_count_not_shown sz n h)
  · rintro c hm rfl h
    exact reject (legalShift_memory_count sz hm h)
  · rintro hm rfl h
    exact reject (legalShift_memory_size hm h)

end Sys2Proof.Machine
end

section
/-! The statements about the divides and the frames and other forms of multiply and divide (44_multiply_divide). -/

namespace Sys2Proof.Machine

open Sys2Proof (Operand Size Instr)

/-! ### The overflow tests (R182) -/

theorem divuOverflow_iff (p : DivOvfPolicy) (a b : Nat) : divuOverflow p a b = true ↔ DivuOverflows p a b := by
  cases p <;> simp [divuOverflow, DivuOverflows]

theorem divsOverflow_iff (p : DivOvfPolicy) (a b : Int) : divsOverflow p a b = true ↔ DivsOverflows p a b := by
  cases p <;> simp [divsOverflow, DivsOverflows]

/-! ### The packed result and its flags (R135 to R137) -/

theorem toNat_ofInt_16 (q : Int) : ((BitVec.ofInt 16 q).toNat : Int) = q % 65536 := by
  rw [BitVec.toNat_ofInt]
  omega

theorem packDivide_toNat (q r : Int) : ((packDivide q r).toNat : Int) = r % 65536 * 65536 + q % 65536 := by
  rw [packDivide, toNat_append_add]
  push_cast
  rw [toNat_ofInt_16, toNat_ofInt_16]

/-- R135, R136: N and Z are those of the 16-bit quotient, C is cleared, V and X are kept. -/
def QuotientFlags (q : Int) (old new : Ccr) : Prop :=
  new.c = false ∧ new.z = decide (q % 65536 = 0) ∧ new.n = decide (32768 ≤ q % 65536) ∧ new.v = old.v ∧ new.x = old.x

theorem quotientFlags_spec (q : Int) (f : Ccr) : QuotientFlags q f (quotientFlags q f) := by
  have hq := toNat_ofInt_16 q
  refine ⟨by simp [quotientFlags], ?z, ?n, by simp [quotientFlags], by simp [quotientFlags]⟩
  case z =>
    rw [quotientFlags, Ccr.pack_z]
    refine (beq_zero_eq_decide _).trans (decide_eq_decide.2 ?_)
    rw [BitVec.toNat_eq, BitVec.toNat_ofNat]
    omega
  case n =>
    rw [quotientFlags, Ccr.pack_n, BitVec.msb_eq_decide, decide_eq_decide]
    omega

/-! ### Completion -/

/-- A divide of a non-zero word completes with its function's writes. -/
theorem divideInstr_completes (op : BitVec 16 → Word → Ccr → Option Word × Ccr) {src dst : Operand} {s : State} {i : Fin 16}
    (hd : slotOf dst = some i) (hs : accessible src .w s = true) (hz : operandWord src s ≠ 0#16) :
    conclude s (divideInstr op src dst s) = .next (divideWrite i (op (operandWord src s) (s.reg i) s.ccr) s) := by
  rw [divideInstr_of_legal op (legalMulDiv_of_slot hd) hs, if_neg hz, conclude_ok]

/-- What a quotient and a remainder leave in the destination and the ccr. -/
theorem divideWrite_quotient (i : Fin 16) (q r : Int) (s : State) :
    let t := divideWrite i (some (packDivide q r), quotientFlags q s.ccr) s
    ((t.reg i).toNat : Int) = r % 65536 * 65536 + q % 65536 ∧ QuotientFlags q s.ccr t.ccr := by
  refine ⟨?_, quotientFlags_spec q s.ccr⟩
  rw [divideWrite, State.setCcr_reg, State.setReg_reg_self, packDivide_toNat]

section library
variable {p : DivOvfPolicy} {d : BitVec 16} {a : Word} {f : Ccr}

theorem divuOP_of_fits (h : ¬ DivuOverflows p a.toNat d.toNat) :
    divuOP p d a f = (some (packDivide ((a.toNat / d.toNat : Nat) : Int) ((a.toNat % d.toNat : Nat) : Int)),
      quotientFlags ((a.toNat / d.toNat : Nat) : Int) f) := by
  rw [divuOP, if_neg (by rwa [divuOverflow_iff])]

theorem divuOP_of_overflow (h : DivuOverflows p a.toNat d.toNat) : divuOP p d a f = (none, divideOverflowFlags f) := by
  rw [divuOP, if_pos ((divuOverflow_iff ..).2 h)]

theorem divsOP_of_fits (h : ¬ DivsOverflows p a.toInt d.toInt) :
    divsOP p d a f = (some (packDivide (a.toInt.tdiv d.toInt) (a.toInt - a.toInt.tdiv d.toInt * d.toInt)),
      quotientFlags (a.toInt.tdiv d.toInt) f) := by
  rw [divsOP, if_neg (by rwa [divsOverflow_iff])]

theorem divsOP_of_overflow (h : DivsOverflows p a.toInt d.toInt) : divsOP p d a f = (none, divideOverflowFlags f) := by
  rw [divsOP, if_pos ((divsOverflow_iff ..).2 h)]

end library

/-- Settles O41: the quotient and remainder of the unsigned values are packed; the remainder is below the 16-bit divisor. -/
theorem divuResult : Obligations.DivuResult := by
  rintro src dst i s a b hd hs rfl rfl hb hfits
  have hz : operandWord src s ≠ 0#16 := fun h => hb (by rw [h]; rfl)
  have hlt : (s.reg i).toNat % (operandWord src s).toNat < 65536 :=
    (Nat.mod_lt _ (Nat.pos_of_ne_zero hb)).trans (operandWord src s).isLt
  refine ⟨_, divideInstr_completes _ hd hs hz, ?_⟩
  rw [divuOP_of_fits hfits]
  obtain ⟨hvalue, hc, hzero, hn, hv, hx⟩ := divideWrite_quotient i
    (((s.reg i).toNat / (operandWord src s).toNat : Nat) : Int)
    (((s.reg i).toNat % (operandWord src s).toNat : Nat) : Int) s
  generalize (s.reg i).toNat % (operandWord src s).toNat = r at *
  generalize (s.reg i).toNat / (operandWord src s).toNat = q at *
  refine ⟨by omega, hc, ?_, ?_, hv, hx⟩
  · rw [hzero, decide_eq_decide]; omega
  · rw [hn, decide_eq_decide]; omega

/-- The remainder of a division that rounds toward zero is smaller than the divisor and has the dividend's sign or is 0. -/
theorem tmod_spec (a : Int) {b : Int} (hb : b ≠ 0) :
    |a.tmod b| < |b| ∧ (a.tmod b = 0 ∨ (0 < a.tmod b ↔ 0 < a)) := by
  refine ⟨?small, ?sign⟩
  case small =>
    rw [Int.abs_eq_natAbs, Int.abs_eq_natAbs, Int.natAbs_tmod]
    exact_mod_cast Nat.mod_lt _ (Int.natAbs_pos.2 hb)
  case sign =>
    rcases le_or_gt 0 a with ha | ha
    · have := Int.tmod_nonneg b ha
      rcases ha.eq_or_lt with rfl | hpos
      · simp
      · omega
    · have := Int.tmod_nonneg b (a := -a) (by omega)
      rw [Int.neg_tmod] at this
      omega

/-- Settles O42: the truncated quotient and its remainder are packed. -/
theorem divsResult : Obligations.DivsResult := by
  rintro src dst i s a b hd hs rfl rfl hb hfits
  have hz : operandWord src s ≠ 0#16 := fun h => hb (by rw [h]; rfl)
  have hmod : (s.reg i).toInt - (s.reg i).toInt.tdiv (operandWord src s).toInt * (operandWord src s).toInt =
      (s.reg i).toInt.tmod (operandWord src s).toInt := by
    rw [Int.tmod_def, Int.mul_comm]
  obtain ⟨hsmall, hsign⟩ := tmod_spec (s.reg i).toInt hb
  refine ⟨_, _, _, divideInstr_completes _ hd hs hz, (Int.tdiv_mul_add_tmod _ _).symm, hsmall, hsign, ?_⟩
  rw [divsOP_of_fits hfits, hmod]
  exact divideWrite_quotient ..

/-- The flags of a divide overflow: V set, C cleared, the others kept (R135, R136). -/
theorem divideOverflowFlags_spec (f : Ccr) :
    (divideOverflowFlags f).v = true ∧ (divideOverflowFlags f).c = false ∧ (divideOverflowFlags f).x = f.x ∧
      (divideOverflowFlags f).n = f.n ∧ (divideOverflowFlags f).z = f.z := by
  simp [divideOverflowFlags]

/-- Settles O43: an overflow has no result to write, only its flags. -/
theorem divideOverflow : Obligations.DivideOverflow := by
  intro src dst i s hd hs hz
  refine ⟨fun h => ?divu, fun h => ?divs⟩
  case divu =>
    refine ⟨divideOverflowFlags s.ccr, ?_, divideOverflowFlags_spec _⟩
    rw [exec, execDivu, divideInstr_completes _ hd hs hz, divuOP_of_overflow h]
    rfl
  case divs =>
    refine ⟨divideOverflowFlags s.ccr, ?_, divideOverflowFlags_spec _⟩
    rw [exec, execDivs, divideInstr_completes _ hd hs hz, divsOP_of_overflow h]
    rfl

/-! ### The frame -/

/-- New flags alone leave every frame. -/
theorem dataFrame_setCcr (sz : Size) (dst : Operand) (s : State) (f : Ccr) : DataFrame sz dst s (s.setCcr f) :=
  ⟨fun _ _ => rfl, fun _ _ => rfl, fun _ _ => rfl, rfl, rfl, rfl, rfl, rfl, rfl, rfl⟩

/-- A long register and flags that keep X: the frame of a multiply. -/
theorem dataFrame_x_of_setReg {dst : Operand} {s t : State}
    (h : ∃ (f : Ccr) (i : Fin 16) (v : Word), f.x = s.ccr.x ∧ slotOf dst = some i ∧ t = (s.setReg i v).setCcr f) :
    DataFrame .l dst s t ∧ t.ccr.x = s.ccr.x := by
  obtain ⟨f, i, v, hx, hi, rfl⟩ := h
  exact ⟨dataFrame_setReg s v f hi, hx⟩

/-- That, or flags alone: the frame of a divide. -/
theorem dataFrame_x_of_divide {dst : Operand} {s t : State}
    (h : ∃ (f : Ccr) (i : Fin 16), f.x = s.ccr.x ∧ slotOf dst = some i ∧
      (t = s.setCcr f ∨ ∃ v, t = (s.setReg i v).setCcr f)) :
    DataFrame .l dst s t ∧ t.ccr.x = s.ccr.x := by
  obtain ⟨f, i, hx, hi, rfl | ⟨v, rfl⟩⟩ := h
  · exact ⟨dataFrame_setCcr .., hx⟩
  · exact ⟨dataFrame_setReg s v f hi, hx⟩

/-- The word a divide by zero found zero is that of its own source. -/
theorem DividesByZero.source {i : Instr} {src dst : Operand} {s : State} (h : DividesByZero i s)
    (hi : i = .divu src dst ∨ i = .divs src dst) : operandWord src s = 0 := by
  obtain ⟨src', dst', hi', hz⟩ := h
  rcases hi with rfl | rfl
  · obtain rfl : src = src' := hi'.elim (fun h => (Instr.divu.inj h).1) nofun
    exact hz
  · obtain rfl : src = src' := hi'.elim nofun fun h => (Instr.divs.inj h).1
    exact hz

/-- What a next state of a divide is, in terms of the frame. -/
theorem divide_frame {i : Instr} {src dst : Operand} {s t : State} (hi : i = .divu src dst ∨ i = .divs src dst)
    (h : exec i s = .next t) :
    (∃ k, t = errorState s k) ∨ (operandWord src s = 0 ∧ t = { s with exc := t.exc }) ∨
      (DataFrame .l dst s t ∧ t.ccr.x = s.ccr.x) := by
  rcases exec_cases h with hrecord | ⟨hzero, rfl⟩ | heffect
  · exact .inl hrecord
  · exact .inr (.inl ⟨hzero.source hi, rfl⟩)
  · rcases hi with rfl | rfl <;> exact .inr (.inr (dataFrame_x_of_divide heffect.2))

/-- Settles O45: the multiplies write one long register, the divides that or nothing, or raise the exception. -/
theorem multiplyDivideFrame : Obligations.MultiplyDivideFrame := by
  refine fun src dst s t => ⟨?multiply, ?divide⟩
  case multiply =>
    rintro (h | h) <;>
      exact (exec_error_or_effect h fun _ _ => ⟨nofun, nofun⟩).imp_right dataFrame_x_of_setReg
  case divide =>
    rintro (h | h)
    · exact divide_frame (.inl rfl) h
    · exact divide_frame (.inr rfl) h

/-! ### The other forms (R108) -/

/-- Each of the four tests its form, reads its source as a word, and goes on in its own way. -/
theorem exec_multiplyDivide {mk : Operand → Operand → Instr}
    (hmk : mk ∈ [Instr.mulu, Instr.muls, Instr.divu, Instr.divs]) (s : State) :
    ∃ rest : Fin 16 → BitVec 16 → Except Event State, ∀ src dst,
      exec (mk src dst) s = conclude s (legalMulDiv src dst >>= fun i => readWord src s >>= rest i) := by
  simp only [List.mem_cons, List.not_mem_nil, or_false] at hmk
  rcases hmk with rfl | rfl | rfl | rfl <;> exact ⟨_, fun _ _ => rfl⟩

theorem exec_multiplyDivide_of_illegal {mk : Operand → Operand → Instr}
    (hmk : mk ∈ [Instr.mulu, Instr.muls, Instr.divu, Instr.divs]) {src dst : Operand} (s : State) {e : Event}
    (h : legalMulDiv src dst = .error e) : exec (mk src dst) s = conclude s (.error e) := by
  obtain ⟨rest, hexec⟩ := exec_multiplyDivide hmk s
  rw [hexec, h, error_bind_except]

section legalMulDiv
variable {src dst : Operand}

theorem legalMulDiv_immediate (h : isImmediate dst = true) :
    legalMulDiv src dst = .error (.nonFatal .illegalOperand) := by
  cases dst <;> simp [isImmediate] at h
  rfl

theorem legalMulDiv_memory_to_memory (hm : isMem dst = true) (h : isMem src = true) :
    legalMulDiv src dst = .error (.nonFatal .memToMem) := by
  cases dst <;> simp [isMem] at hm <;> simp [legalMulDiv, h]

theorem legalMulDiv_memory_not_shown (hm : isMem dst = true) (h : isMem src = false) :
    legalMulDiv src dst = .error (.refuse .formNotShown) := by
  cases dst <;> simp [isMem] at hm <;> simp [legalMulDiv, h]

end legalMulDiv

/-- Settles O46: R108's test clause by clause; its event is all such a form does. -/
theorem multiplyDivideRejectOtherForms : Obligations.MultiplyDivideRejectOtherForms := by
  intro mk hmk src dst s
  have reject {e : Event} (h : legalMulDiv src dst = .error e) := exec_multiplyDivide_of_illegal hmk s h
  exact ⟨fun h => reject (legalMulDiv_immediate h), fun hm h => reject (legalMulDiv_memory_to_memory hm h),
    fun hm h => reject (legalMulDiv_memory_not_shown hm h)⟩

end Sys2Proof.Machine
end

section
/-! The statements about control flow (45_control_flow). -/

namespace Sys2Proof.Machine

open Sys2Proof (Operand Size Instr)

/-! ### Branches and jumps -/

/-- R191 to R193: the shape of all seven branches, for the condition its flag test decides. -/
theorem branchRule_of_branchInstr {i : Instr} {taken : Bool} {sz : Size} {d : Int} {s : State} {cond : Prop}
    (hexec : exec i s = conclude s (branchInstr taken sz (.absoluteOffset d) s)) (hcond : taken = true ↔ cond) :
    BranchRule i sz d s cond := by
  have hshape : branchInstr taken sz (.absoluteOffset d) s =
      if !taken then .ok s else if inRange sz d then .ok (s.jumpBy d) else .error (.nonFatal .offsetTooLong) := rfl
  rw [BranchRule, hexec, hshape]
  refine ⟨fun hc hfits => ?taken, fun hc hlong => ?tooLong, fun hc => ?notTaken⟩
  case taken =>
    rw [hcond.2 hc, (inRange_iff sz d).2 hfits]
    rfl
  case tooLong =>
    have hout : inRange sz d = false := by rwa [Bool.eq_false_iff, ne_eq, inRange_iff]
    rw [hcond.2 hc, hout]
    rfl
  case notTaken =>
    have hnot : taken = false := by rwa [Bool.eq_false_iff, ne_eq, hcond]
    rw [hnot]
    rfl

/-- Settles O47: each is the branch shape on its own flag test, which is R192's condition. -/
theorem branchResults : Obligations.BranchResults := by
  refine fun sz d s => ⟨?bra, ?beq, ?bne, ?bge, ?bgt, ?ble, ?blt⟩ <;> refine branchRule_of_branchInstr rfl ?_
  case bra => simp
  case beq => rfl
  case bne => simp [condNe]
  case bge => simp [condGe]
  case bgt => simp [condGt]
  case ble => simp [condLe]
  case blt => simp [condLt]

/-- Settles O48: the jump adds its displacement, and the loader's one is that of the label. -/
theorem jmpResult : Obligations.JmpResult := by
  refine ⟨fun d s => rfl, fun l c s hpc => ?label⟩
  case label =>
    have htarget : s.pc + labelDisplacement l c = 4 * ((l : Int) + 1) := by rw [hpc, labelDisplacement]; ring
    rw [← htarget]
    rfl

theorem displacementOf_not_literal {target : Operand} (h : ∀ d, target ≠ .absoluteOffset d) :
    displacementOf target = .error (.refuse .formNotShown) := by
  cases target with
  | absoluteOffset d => exact absurd rfl (h d)
  | _ => rfl

/-- A branch reads its displacement first (R109). -/
theorem exec_branch {mk : Size → Operand → Instr}
    (hmk : mk ∈ [Instr.bra, Instr.bsr, Instr.beq, Instr.bne, Instr.bge, Instr.bgt, Instr.ble, Instr.blt]) (sz : Size)
    (s : State) : ∃ rest : Int → Except Event State, ∀ target,
      exec (mk sz target) s = conclude s (displacementOf target >>= rest) := by
  simp only [List.mem_cons, List.not_mem_nil, or_false] at hmk
  rcases hmk with rfl | rfl | rfl | rfl | rfl | rfl | rfl | rfl <;> exact ⟨_, fun _ => rfl⟩

/-- Settles O52: the displacement is read first and its refusal is the instruction's. -/
theorem controlFlowRejectsOtherTargets : Obligations.ControlFlowRejectsOtherTargets := by
  intro sz target s h
  have hrefuse := displacementOf_not_literal h
  refine ⟨fun mk hmk => ?branch, ?jmp, ?jsr⟩
  case branch =>
    obtain ⟨rest, hexec⟩ := exec_branch hmk sz s
    rw [hexec, hrefuse]
    rfl
  case jmp => rw [exec, execJmp, hrefuse]; rfl
  case jsr => rw [exec, execJsr, hrefuse]; rfl

/-! ### Calls and returns -/

/-- R202: jsr is the push and the jump. -/
theorem exec_jsr (d : Int) (s : State) :
    exec (.jsr (.absoluteOffset d)) s = conclude s (pushPc s >>= fun t => .ok (t.jumpBy d)) := rfl

/-- R194: bsr is that where its displacement fits. -/
theorem exec_bsr (sz : Size) (d : Int) (s : State) :
    exec (.bsr sz (.absoluteOffset d)) s =
      conclude s (if inRange sz d then pushPc s >>= fun t => .ok (t.jumpBy d) else .error (.nonFatal .offsetTooLong)) := rfl

theorem exec_bsr_of_fits {sz : Size} {d : Int} (s : State) (h : DisplacementFits sz d) :
    exec (.bsr sz (.absoluteOffset d)) s = exec (.jsr (.absoluteOffset d)) s := by
  rw [exec_bsr, if_pos ((inRange_iff sz d).2 h), exec_jsr]

theorem exec_jsr_of_valid {s : State} (d : Int) (hm : Memory.wf s.mem = true) (h : (s.reg spSlot + 4).toNat ≤ 0x7FFFFFFC) :
    ∃ t, exec (.jsr (.absoluteOffset d)) s = .next t ∧ Called d s t := by
  rw [exec_jsr, pushPc_of_valid h]
  exact ⟨_, rfl, called_of_push d hm⟩

theorem exec_jsr_of_not_valid {s : State} (d : Int) (h : 0x7FFFFFFC < (s.reg spSlot + 4).toNat) :
    exec (.jsr (.absoluteOffset d)) s = .next (errorState s .invalidAddress) := by
  rw [exec_jsr, pushPc_of_not_valid h]
  rfl

/-- Settles O49: jsr succeeds as its push does, and bsr is jsr where its displacement fits. -/
theorem callResults : Obligations.CallResults := by
  refine fun sz d s hm => ⟨fun hvalid => ?valid, fun hout => ?notValid, fun hlong => ?tooLong⟩
  case valid =>
    have hjsr := exec_jsr_of_valid d hm hvalid
    exact ⟨hjsr, fun hfits => by rwa [exec_bsr_of_fits s hfits]⟩
  case notValid =>
    have hjsr := exec_jsr_of_not_valid d hout
    exact ⟨hjsr, fun hfits => by rwa [exec_bsr_of_fits s hfits]⟩
  case tooLong =>
    rw [exec_bsr, if_neg (by rwa [inRange_iff])]
    rfl

/-- R203: rts pops where a7 is valid for a long. -/
theorem exec_rts_of_valid {s : State} (h : valid ((s.reg spSlot).toNat : Int) 4 = true) :
    ∃ t, exec .rts s = .next t ∧ Returned s t := by
  simp only [exec, execRts, h, if_true, conclude_ok]
  refine ⟨_, rfl, rfl, by simp, fun i hi => ?_, rfl, rfl, rfl, rfl, rfl, rfl, rfl, rfl⟩
  rw [State.setReg_reg_other _ _ hi.symm, State.setPc_reg]

theorem exec_rts_of_not_valid {s : State} (h : valid ((s.reg spSlot).toNat : Int) 4 = false) :
    exec .rts s = .next (errorState s .invalidAddress) := by
  simp only [exec, execRts, h]
  rfl

theorem valid_long_iff (n : Nat) : valid (n : Int) 4 = true ↔ n ≤ 0x7FFFFFFC := by
  rw [valid_iff]
  omega

/-- Settles O50: a7 is valid for a long up to 0x7FFFFFFC. -/
theorem returnResult : Obligations.ReturnResult := by
  refine fun s => ⟨fun h => exec_rts_of_valid ((valid_long_iff _).2 h), fun h => exec_rts_of_not_valid ?_⟩
  rw [Bool.eq_false_iff, ne_eq, valid_long_iff]
  omega

/-- A call that recorded no error left the state `Called` describes, with a7 valid for a long. -/
theorem called_of_exec {sz : Size} {target : Operand} {s t : State} (hm : Memory.wf s.mem = true) (he : t.errs = s.errs)
    (h : exec (.jsr target) s = .next t ∨ exec (.bsr sz target) s = .next t) :
    ∃ d, valid ((s.reg spSlot + 4).toNat : Int) 4 = true ∧ Called d s t := by
  have heffect : ∃ d u, target = .absoluteOffset d ∧ pushPc s = .ok u ∧ t = u.jumpBy d := by
    rcases h with h | h <;>
      exact (exec_error_or_effect h fun _ _ => ⟨nofun, nofun⟩).resolve_left (not_recordError_of_errs_eq he)
  obtain ⟨d, u, -, hpush, rfl⟩ := heffect
  obtain ⟨hvalid, rfl⟩ := pushPc_eq_ok hpush
  exact ⟨d, hvalid, called_of_push d hm⟩

/-- Settles O51: the call left a valid a7 on the pushed pc, so the return reads that pc and takes a7 back by 4. -/
theorem callThenReturnIsBalanced : Obligations.CallThenReturnIsBalanced := by
  intro sz target s t u hm hpc hlt he hcall hsp hbytes
  obtain ⟨d, hvalid, htsp, -, hpushed, -⟩ := called_of_exec hm he hcall
  have husp : u.reg spSlot = s.reg spSlot + 4 := hsp.trans htsp
  rw [← husp] at hvalid
  obtain ⟨r, hnext, hrpc, hrsp, -⟩ := exec_rts_of_valid hvalid
  refine ⟨r, hnext, ?pc, ?sp⟩
  case pc =>
    rw [htsp] at hbytes
    rw [hrpc, husp, Memory.read_congr 4 u.mem t.mem _ hbytes, hpushed, Int.emod_eq_of_lt hpc hlt]
  case sp => rw [hrsp, husp, BitVec.add_sub_cancel]

end Sys2Proof.Machine
end

section
/-! The statements about errors of operands (30_encoding section 4, 20_memory section 2): illegal combinations and operands
outside the address space. -/

namespace Sys2Proof.Machine

open Sys2Proof (Operand Size Instr)

/-! ### A memory operand is of no other kind -/

theorem isImmediate_of_isMem {op : Operand} (h : isMem op = true) : isImmediate op = false := by
  cases op <;> simp [isMem] at h <;> rfl

theorem isAddressRegister_of_isMem {op : Operand} (h : isMem op = true) : isAddressRegister op = false := by
  cases op <;> simp [isMem] at h <;> rfl

/-! ### The instructions that share a shape -/

theorem exec_aluTwo {mk : Size → Operand → Operand → Instr}
    (hmk : mk ∈ [Instr.add, Instr.sub, Instr.and, Instr.or, Instr.eor]) (s : State) :
    ∃ op : {w : Nat} → BitVec w → BitVec w → Ccr → BitVec w × Ccr,
      ∀ sz src dst, exec (mk sz src dst) s = conclude s (aluTwo op sz src dst s) := by
  simp only [List.mem_cons, List.not_mem_nil, or_false] at hmk
  rcases hmk with rfl | rfl | rfl | rfl | rfl
  · exact ⟨addOP, fun _ _ _ => rfl⟩
  · exact ⟨subOP, fun _ _ _ => rfl⟩
  · exact ⟨andOP, fun _ _ _ => rfl⟩
  · exact ⟨orOP, fun _ _ _ => rfl⟩
  · exact ⟨eorOP, fun _ _ _ => rfl⟩

/-- cmp and move test the destination and read the source alike. -/
theorem exec_cmp_move {mk : Size → Operand → Operand → Instr} (hmk : mk ∈ [Instr.cmp, Instr.move]) (sz : Size)
    (dst : Operand) (s : State) :
    ∃ rest : BitVec sz.bits → Except Event State,
      (∀ src, exec (mk sz src dst) s = conclude s (legalMove dst >>= fun _ => readOp src sz s >>= rest)) ∧
        (accessible dst sz s = false → ∀ v, rest v = .error (.nonFatal .invalidAddress)) := by
  simp only [List.mem_cons, List.not_mem_nil, or_false] at hmk
  rcases hmk with rfl | rfl
  · exact ⟨_, fun _ => rfl, fun hd v => by rw [readOp_of_not_accessible hd, error_bind_except]⟩
  · exact ⟨_, fun _ => rfl, fun hd v => by rw [writeOp_of_not_accessible _ hd, error_bind_except]⟩

/-- not, clr and neg test the destination and then access it. -/
theorem exec_unary {mk : Size → Operand → Instr} (hmk : mk ∈ [Instr.not, Instr.clr, Instr.neg]) (sz : Size)
    (dst : Operand) (s : State) :
    ∃ rest : Except Event State, exec (mk sz dst) s = conclude s (legalUnary dst >>= fun _ => rest) ∧
      (accessible dst sz s = false → rest = .error (.nonFatal .invalidAddress)) := by
  simp only [List.mem_cons, List.not_mem_nil, or_false] at hmk
  rcases hmk with rfl | rfl | rfl
  · exact ⟨_, rfl, fun hd => by rw [readOp_of_not_accessible hd, error_bind_except]⟩
  · exact ⟨_, rfl, fun hd => by rw [writeOp_of_not_accessible _ hd, error_bind_except]⟩
  · exact ⟨_, rfl, fun hd => by rw [readOp_of_not_accessible hd, error_bind_except]⟩

/-! ### Illegal combinations (R101 to R106) -/

section legality
variable {src dst : Operand}

theorem legalAlu_immediate (h : isImmediate dst = true) : legalAlu src dst = illegalOperand := by
  simp [legalAlu, h]

theorem legalAlu_memory_to_memory (hs : isMem src = true) (hd : isMem dst = true) :
    legalAlu src dst = .error (.nonFatal .memToMem) := by
  simp [legalAlu, isImmediate_of_isMem hd, hs, hd]

theorem legalMove_immediate (h : isImmediate dst = true) : legalMove dst = illegalOperand := by
  simp [legalMove, h]

theorem legalUnary_illegal (h : isImmediate dst = true ∨ isAddressRegister dst = true) :
    legalUnary dst = illegalOperand := by
  rcases h with h | h <;> simp [legalUnary, h]

theorem dataRegisterOnly_illegal (h : ∀ n, dst ≠ .dataRegister n) :
    dataRegisterOnly dst = .error (.nonFatal .illegalOperand) := by
  cases dst with
  | dataRegister n => exact absurd rfl (h n)
  | _ => rfl

theorem registerOnly_illegal (h : slotOf dst = none) : registerOnly dst = .error (.nonFatal .illegalOperand) := by
  simp [registerOnly, h]

end legality

theorem execExt_illegal {sz : Size} {op : Operand} (s : State) (h : ∀ n, op ≠ .dataRegister n) (hsz : sz ≠ .b) :
    execExt sz op s = .next (errorState s .illegalOperand) := by
  have hextend (n w : Nat) : extendRegister n w op s = .error (.nonFatal .illegalOperand) := by
    rw [extendRegister, dataRegisterOnly_illegal h, error_bind_except]
  cases sz with
  | b => exact absurd rfl hsz
  | w | l => simp only [execExt, hextend]; rfl

theorem execExg_illegal {op1 op2 : Operand} (s : State) (h : slotOf op1 = none ∨ slotOf op2 = none) :
    execExg op1 op2 s = .next (errorState s .illegalOperand) := by
  cases hfirst : slotOf op1 with
  | none => rw [execExg, registerOnly_illegal hfirst]; rfl
  | some i =>
    have hsecond : slotOf op2 = none := h.resolve_left (by simp [hfirst])
    rw [execExg, registerOnly_of_slot hfirst, registerOnly_illegal hsecond]
    rfl

/-- Settles O53: the legality test comes first in each shape, and its error is all the instruction does. -/
theorem illegalOperandsAreRecorded : Obligations.IllegalOperandsAreRecorded := by
  refine fun sz src dst s => ⟨fun mk hmk => ?alu, fun mk hmk h => ?move, fun mk hmk h => ?unary, fun h => ?dataRegister,
    execExg_illegal s⟩
  case alu =>
    obtain ⟨op, hexec⟩ := exec_aluTwo hmk s
    refine ⟨fun h => ?_, fun hs hd => ?_⟩
    · rw [hexec, aluTwo, legalAlu_immediate h]; rfl
    · rw [hexec, aluTwo, legalAlu_memory_to_memory hs hd]; rfl
  case move =>
    obtain ⟨rest, hexec, -⟩ := exec_cmp_move hmk sz dst s
    rw [hexec, legalMove_immediate h]
    rfl
  case unary =>
    obtain ⟨rest, hexec, -⟩ := exec_unary hmk sz dst s
    rw [hexec, legalUnary_illegal h]
    rfl
  case dataRegister =>
    refine ⟨execExt_illegal s h, ?swap⟩
    rw [exec, execSwap, dataRegisterOnly_illegal h]
    rfl

/-! ### Operands outside the address space (R56, R97, R100) -/

/-- Only a memory operand can be inaccessible. -/
theorem isMem_of_not_accessible {op : Operand} {sz : Size} {s : State} (h : accessible op sz s = false) :
    isMem op = true := by
  cases op <;> simp [accessible, effectiveAddress] at h <;> rfl

theorem aluTwo_of_not_accessible (op : {w : Nat} → BitVec w → BitVec w → Ccr → BitVec w × Ccr) {sz : Size}
    {src dst : Operand} {s : State} (hl : legalAlu src dst = .ok ())
    (h : accessible src sz s = false ∨ accessible dst sz s = false) :
    aluTwo op sz src dst s = .error (.nonFatal .invalidAddress) := by
  cases hs : accessible src sz s with
  | false => simp only [aluTwo, hl, readOp_of_not_accessible hs, ok_bind_except, error_bind_except]
  | true =>
    have hd : accessible dst sz s = false := h.resolve_left (by simp [hs])
    simp only [aluTwo, hl, readOp_of_accessible hs, readOp_of_not_accessible hd, ok_bind_except, error_bind_except]

theorem shiftInstr_of_not_accessible (op : {w : Nat} → BitVec w → Nat → Ccr → BitVec w × Ccr) {sz : Size}
    {count dst : Operand} {s : State} (hl : legalShift sz count dst = .ok ()) (hd : accessible dst sz s = false) :
    shiftInstr op sz count dst s = .error (.nonFatal .invalidAddress) := by
  simp only [shiftInstr, hl, readOp_of_not_accessible hd, ok_bind_except, error_bind_except]

theorem exec_cmp_move_of_not_accessible {mk : Size → Operand → Operand → Instr} (hmk : mk ∈ [Instr.cmp, Instr.move])
    {sz : Size} {src dst : Operand} {s : State} (hi : isImmediate dst = false)
    (h : accessible src sz s = false ∨ accessible dst sz s = false) :
    exec (mk sz src dst) s = .next (errorState s .invalidAddress) := by
  obtain ⟨rest, hexec, hrest⟩ := exec_cmp_move hmk sz dst s
  rw [hexec, legalMove_eq_ok.2 hi, ok_bind_except]
  cases hs : accessible src sz s with
  | false => rw [readOp_of_not_accessible hs]; rfl
  | true =>
    rw [readOp_of_accessible hs, ok_bind_except, hrest (h.resolve_left (by simp [hs]))]
    rfl

/-- Settles O54: each legal form passes its test, and the first access outside the address space is its error. -/
theorem invalidAddressesAreRecorded : Obligations.InvalidAddressesAreRecorded := by
  refine fun sz src dst s hi => ⟨fun h => ⟨fun hmem mk hmk => ?alu, fun mk hmk => ?move⟩,
    fun hd => ⟨fun mk hmk => ?unary, fun hform mk hmk => ?shift⟩, fun hs i hslot mk hmk => ?multiplyDivide⟩
  case alu =>
    obtain ⟨op, hexec⟩ := exec_aluTwo hmk s
    rw [hexec, aluTwo_of_not_accessible op (legalAlu_eq_ok.2 ⟨hi, hmem⟩) h]
    rfl
  case move => exact exec_cmp_move_of_not_accessible hmk hi h
  case unary =>
    obtain ⟨rest, hexec, hrest⟩ := exec_unary hmk sz dst s
    have ha := isAddressRegister_of_isMem (isMem_of_not_accessible hd)
    rw [hexec, legalUnary_eq_ok.2 ⟨hi, ha⟩, ok_bind_except, hrest hd]
    rfl
  case shift =>
    obtain ⟨op, hexec⟩ := exec_shift hmk s
    rw [hexec, shiftInstr_of_not_accessible op (legalShift_of_form hform).1 hd]
    rfl
  case multiplyDivide =>
    obtain ⟨rest, hexec⟩ := exec_multiplyDivide hmk s
    rw [hexec, legalMulDiv_of_slot hslot, ok_bind_except, readWord_of_not_accessible hs]
    rfl

end Sys2Proof.Machine
end
